-- ==== Sys2Proof/Word.lean ====
section
/-! DEFINITION. The one word of the hardware: the byte. Every access to `IN`, `WIN` and `OUT` moves
exactly one byte (rule R49); there is no wider access, so no byte order is decided here. -/

namespace Sys2Proof

/-- A byte of `IN`, of the window or of `OUT` (rules R15, R16, R20). -/
abbrev Byte := BitVec 8

end Sys2Proof
end

