-- ==== Sys2Proof/Machine/Parts.lean ====
section
/-! DEFINITION. The parts State is made of: the phases, the fault kinds, and the register groups of the
five units (10_state.md). Types only; what is done with them stands in the files that import this one. -/

namespace Sys2Proof.Machine

/-- `phase`, the sequencer state (rule R26): the source's five states and this spec's IDLE and FAULT. -/
inductive Phase where
  | idle
  | header
  | stored
  | fixed
  | dynamic
  | done
  | fault
deriving DecidableEq, Repr, Inhabited

/-- The place of the sequencer inside a block (rule R27). -/
inductive Sub where
  /-- the phase's first element comes next: the header, the stored body, or the three counts -/
  | entry
  /-- DYNAMIC: the code-length code lengths (CLLENS) come next -/
  | codeLens
  /-- DYNAMIC: a code-length symbol comes next -/
  | codeSyms
  /-- FIXED, DYNAMIC: a literal/length symbol comes next -/
  | symbol
  /-- FIXED, DYNAMIC: a length symbol has been decoded, its distance symbol comes next (rule R193) -/
  | distance
deriving DecidableEq, Repr, Inhabited

/-- The ten fault kinds of rule R270, in the order of their codes. -/
inductive FaultCode where
  | truncated
  | overSubscribed
  | undecodable
  | invalidBlockType
  | badCodeCount
  | repeatWithoutPrevious
  | repeatOverrun
  | invalidLengthSymbol
  | distanceTooFar
  | storedLengthMismatch
deriving DecidableEq, Repr, Inhabited

/-- The Bit Cursor's registers (rules R11 to R13). -/
structure Cursor where
  /-- `incnt`: the index of the next byte of `IN` that has not been fetched (rule R11) -/
  incnt : Nat
  /-- `bitbuf`: the fetched and unconsumed bits, next stream bit at bit 0 (rule R12) -/
  bitbuf : BitVec 7
  /-- `bitcnt`: how many of them are valid, 0 to 7 between operations (rule R13) -/
  bitcnt : BitVec 3
deriving DecidableEq, Repr, Inhabited

/-- A Huffman table store (rules R30, R31): `count[0..15]` and `symbol[0..cap-1]`, entries of `w` bits. -/
structure Table (w cap : Nat) where
  count : Vector (BitVec w) 16
  symbol : Vector (BitVec w) cap
deriving DecidableEq, Repr, Inhabited

/-- The builder's working registers (rule R33): `left`, 17-bit two's complement, and `offs[1..15]`
(`offs[len]` at index `len - 1`). -/
structure BuilderRegs where
  left : BitVec 17
  offs : Vector (BitVec 9) 15
deriving DecidableEq, Repr, Inhabited

/-- The symbol decoder's working registers (rule R34). -/
structure DecoderRegs where
  code : BitVec 16
  first : BitVec 16
  index : BitVec 9
  len : BitVec 4
deriving DecidableEq, Repr, Inhabited

/-- Everything private to one block or to one stream element: the table stores (rule R31), the length
work arrays (rule R32) and the working registers (rules R23, R33, R34). -/
structure BlockRegs where
  cltab : Table 5 19
  lltab : Table 9 288
  dtab : Table 5 30
  cllen : Vector (BitVec 3) 19
  lengths : Vector (BitVec 4) 316
  slen : BitVec 16
  snlen : BitVec 16
  scnt : BitVec 16
  nlen : BitVec 9
  ndist : BitVec 6
  ncode : BitVec 5
  index : BitVec 9
  sym : BitVec 9
  rep : BitVec 8
  rlen : BitVec 4
  length : BitVec 9
  dsym : BitVec 5
  dist : BitVec 16
  builder : BuilderRegs
  decoder : DecoderRegs
deriving DecidableEq, Repr, Inhabited

/-- One value for everything the spec leaves unspecified after a fault (rule R273); the other places take the part of it
they need (log 2). -/
structure Unspecified where
  cur : Cursor
  next : BitVec 15
  outcnt : Nat
  out : List Byte
  bfinal : BitVec 1
  btype : BitVec 2
  blk : BlockRegs
deriving DecidableEq, Repr, Inhabited

/-- The host's side of the interface of rule R29: the bytes it offers as `IN` (their number is
`IN_LEN`), the `START` pulse and the reset input, each true until the block has taken it. -/
structure HostPort where
  data : List Byte
  start : Bool
  reset : Bool
deriving DecidableEq, Repr, Inhabited

end Sys2Proof.Machine
end

