-- ==== Sys2Proof/Config.lean ====
section
/-! DEFINITION. What is fixed for this hardware: the two check parameters of rule R4, the format constants
of rule R3, and the free values (no body: nothing can be proved of what they are). -/

namespace Sys2Proof

/-- The two build-time parameters of rule R4. -/
structure Params where
  /-- `CHECK_DIST`: a distance beyond the bytes produced so far raises `DistanceTooFar` -/
  checkDist : Bool
  /-- `CHECK_NLEN`: an NLEN that is not LEN's complement raises `StoredLengthMismatch` -/
  checkNlen : Bool
deriving DecidableEq, Repr

/-- The values this hardware takes: `CHECK_DIST` = 1, `CHECK_NLEN` = 0 (rule R4). -/
def Config.params : Params := { checkDist := true, checkNlen := false }

/-- `WSIZE` (rule R3): window capacity and largest distance. -/
def Config.wsize : Nat := 32768
/-- `MAXBITS` (rule R3): the longest codeword. -/
def Config.maxBits : Nat := 15
/-- `MAXLCODES` (rule R3): literal/length symbols of a dynamic block. -/
def Config.maxLCodes : Nat := 286
/-- `MAXDCODES` (rule R3): distance symbols. -/
def Config.maxDCodes : Nat := 30
/-- `NCLSYM` (rule R3): symbols of the code-length alphabet. -/
def Config.nClSym : Nat := 19
/-- `NLENSYM` (rule R3): length symbols. -/
def Config.nLenSym : Nat := 29
/-- `MAXLENS` (rule R3): capacity of the length work array. -/
def Config.maxLens : Nat := 316

/-- FREE VALUE (log 1): the byte a window cell holds that no `output` of the current run has written
(rule R18), by the draw taken when the run started and the cell's address. -/
opaque Config.freeByte : Nat → Nat → Byte

/-- FREE VALUE (log 2): what the registers hold where the spec leaves them unspecified: after a fault
(rule R273), after the reset input (rule R300), for the block's private state after the block has ended (rules
R31, R32, R135), and for that and the header's latches after the run and at the start of the next (rules R37, R38);
by the number of the draw. -/
opaque Config.free : Nat → Machine.Unspecified

end Sys2Proof
end

