-- ==== Sys2Proof/Machine/Rom.lean ====
section
/-! DEFINITION. The constant tables of rule R35. The spec marks the values of `LBASE`, `LEXT`, `DBASE`, `DEXT`
and `ORDER` as supplied from general knowledge of the format (rules R74, R75, R78; log 7). The extra-bit
counts are field widths, so they have the type of the widths `bits` takes (0 to 16, rule R95). -/

namespace Sys2Proof.Machine

/-- `LBASE[0..28]` (rule R74). -/
def lbase : List Nat :=
  [3, 4, 5, 6, 7, 8, 9, 10, 11, 13, 15, 17, 19, 23, 27, 31, 35, 43, 51, 59, 67, 83, 99, 115, 131, 163, 195, 227, 258]

/-- `LEXT[0..28]` (rule R74). -/
def lext : List (Fin 17) :=
  [0, 0, 0, 0, 0, 0, 0, 0, 1, 1, 1, 1, 2, 2, 2, 2, 3, 3, 3, 3, 4, 4, 4, 4, 5, 5, 5, 5, 0]

/-- `DBASE[0..29]` (rule R75). -/
def dbase : List Nat :=
  [1, 2, 3, 4, 5, 7, 9, 13, 17, 25, 33, 49, 65, 97, 129, 193, 257, 385, 513, 769, 1025, 1537, 2049, 3073, 4097, 6145,
    8193, 12289, 16385, 24577]

/-- `DEXT[0..29]` (rule R75). -/
def dext : List (Fin 17) :=
  [0, 0, 0, 0, 1, 1, 2, 2, 3, 3, 4, 4, 5, 5, 6, 6, 7, 7, 8, 8, 9, 9, 10, 10, 11, 11, 12, 12, 13, 13]

/-- `ORDER[0..18]` (rule R78). -/
def order : List Nat := [16, 17, 18, 0, 8, 7, 9, 6, 10, 5, 11, 4, 12, 3, 13, 2, 14, 1, 15]

/-- `FIXLL[0..287]`, the fixed literal/length code lengths (rule R150). -/
def fixll : List Nat :=
  List.replicate 144 8 ++ (List.replicate 112 9 ++ (List.replicate 24 7 ++ List.replicate 8 8))

/-- `FIXD[0..29]`, the fixed distance code lengths (rule R150). -/
def fixd : List Nat := List.replicate 30 5

end Sys2Proof.Machine
end

