-- ==== Sys2Proof/Machine/Builder.lean ====
section
/-! DEFINITION. The Canonical Huffman Table Builder (41_huffman_builder.md): `construct`, and the codeword
assignment its tables stand for (rule R69). The histogram and the symbol order are written as rules R102
and R105 state them, the residual walk step by step as in rule R101. -/

namespace Sys2Proof.Machine

/-- `count[l]`: how many of the code lengths are `l` (rule R102). -/
def lenCount (lens : List Nat) (l : Nat) : Nat := lens.countP (· == l)

/-- The walk of `left` over the lengths `len`, `len + 1`, ... (`fuel` of them), stopped at the first
negative value (rules R101, R103). -/
def residualFrom (lens : List Nat) : (fuel len : Nat) → (left : Int) → Int
  | 0, _, left => left
  | fuel + 1, len, left =>
    let left' := left * 2 - lenCount lens len
    if left' < 0 then left' else residualFrom lens fuel (len + 1) left'

/-- `left` after the walk over lengths 1 to 15 from the start value 1 (rule R103). -/
def residual (lens : List Nat) : Int := residualFrom lens 15 1 1

/-- The symbols whose code length is `l`, ascending. -/
def symbolsOfLen (lens : List Nat) (l : Nat) : List Nat := (lens.zipIdx.filter (·.1 == l)).map (·.2)

/-- The used symbols sorted by (length, symbol value): what `symbol[]` lists (rule R105). -/
def sortedSymbols (lens : List Nat) : List Nat := (List.range' 1 15).flatMap (symbolsOfLen lens)

/-- The first cells of a store take new values, the others keep what they held. -/
def overwrite {α : Type} {cap : Nat} (new : List α) (old : Vector α cap) : Vector α cap :=
  ⟨⟨(new ++ old.toList.drop new.length).take cap⟩, by simp; omega⟩

/-- `count[0..15]` as the store holds it. -/
def countStore (w : Nat) (lens : List Nat) : Vector (BitVec w) 16 :=
  ⟨⟨(List.range 16).map fun l => BitVec.ofNat w (lenCount lens l)⟩, by simp⟩

/-- `offs[1..15]` after the placement: each offset has been advanced past its symbols (rule R105). -/
def offsStore (lens : List Nat) : Vector (BitVec 9) 15 :=
  ⟨⟨(List.range' 1 15).map fun l => BitVec.ofNat 9 ((List.range' 1 l).map (lenCount lens)).sum⟩, by simp⟩

/-- What one `construct` leaves: its signed result, the table store and the builder's registers. -/
structure Built (w cap : Nat) where
  result : Int
  table : Table w cap
  regs : BuilderRegs
deriving DecidableEq, Repr

/-- `construct(t, length, n)` with `n` the number of lengths given (rule R101): the empty code returns 0
with `symbol` untouched (rule R106), an over-subscribed one its negative residual with `symbol` untouched
(rule R104), any other the final residual with the symbols placed (rule R105). -/
def construct {w cap : Nat} (t : Table w cap) (b : BuilderRegs) (lens : List Nat) : Built w cap :=
  let counted : Table w cap := { t with count := countStore w lens }
  if lenCount lens 0 = lens.length then
    { result := 0, table := counted, regs := b }
  else if residual lens < 0 then
    { result := residual lens, table := counted, regs := { b with left := BitVec.ofInt 17 (residual lens) } }
  else
    { result := residual lens
      table := { counted with symbol := overwrite ((sortedSymbols lens).map (BitVec.ofNat w)) t.symbol }
      regs := { left := BitVec.ofInt 17 (residual lens), offs := offsStore lens } }

/-- `first[l]` of rule R69: the first codeword of length `l` (`first[0]` and `count[0]` count as 0). -/
def firstCode (lens : List Nat) : Nat → Nat
  | 0 => 0
  | l + 1 => (firstCode lens l + if l = 0 then 0 else lenCount lens l) <<< 1

/-- The codeword of symbol `s` (rule R69): its length and its value, first-sent bit most significant.
None for a symbol of length 0 or outside the code. -/
def codewordOf (lens : List Nat) (s : Nat) : Option (Nat × Nat) :=
  match lens[s]? with
  | none => none
  | some 0 => none
  | some (l + 1) => some (l + 1, firstCode lens (l + 1) + lenCount (lens.take s) (l + 1))

end Sys2Proof.Machine
end

