-- ==== Sys2Proof/Syntax.lean ====
section
/-! DEFINITION. The instructions: one constructor per row of spec/opcode_table.json, in the table's order
(rule R130). The extra bits an element carries are its operand `e` (or `r`), assembled least significant
bit first (rule R47). -/

namespace Sys2Proof

/-- The stream elements of rule R130. A length symbol and the distance symbol that follows it are two
constructors, as the table has two rows (rules R193, R194; log 9). -/
inductive Instr where
  /-- BLOCK_STORED: block header with BTYPE = 0; `bfinal` marks the last block (rule R132) -/
  | blockStored (bfinal : BitVec 1)
  /-- BLOCK_FIXED: block header with BTYPE = 1 (rule R137) -/
  | blockFixed (bfinal : BitVec 1)
  /-- BLOCK_DYNAMIC: block header with BTYPE = 2 (rule R138) -/
  | blockDynamic (bfinal : BitVec 1)
  /-- BLOCK_RESERVED: block header with the reserved BTYPE = 3 (rule R133) -/
  | blockReserved (bfinal : BitVec 1)
  /-- STORED_BODY: body of a stored block: LEN and NLEN; the pad before them is discarded and the data bytes after them are moved by the meaning (rule R140) -/
  | storedBody (len : BitVec 16) (nlen : BitVec 16)
  /-- DYN_HEADER: HLIT, HDIST, HCLEN (rule R161) -/
  | dynHeader (hlit : BitVec 5) (hdist : BitVec 5) (hclen : BitVec 4)
  /-- CLLENS: the code-length code lengths, `HCLEN + 4` of them, in the order they are sent (rule R163) -/
  | cllens (ls : List (BitVec 3))
  /-- CL_0_15: a code length `v` (rule R167) -/
  | cl0to15 (v : BitVec 4)
  /-- CL_16: repeat the previous length `3 + r` times (rule R169) -/
  | cl16 (r : BitVec 2)
  /-- CL_17: repeat length 0 `3 + r` times (rule R170) -/
  | cl17 (r : BitVec 3)
  /-- CL_18: repeat length 0 `11 + r` times (rule R171) -/
  | cl18 (r : BitVec 7)
  /-- LIT_0_143: literal byte 0 to 143 (rule R191) -/
  | lit0to143 (b : Byte)
  /-- LIT_144_255: literal byte 144 to 255 (rule R191) -/
  | lit144to255 (b : Byte)
  /-- EOB: end of block (rule R192) -/
  | eob
  /-- LSYM_257: length symbol 257: length 3 (rule R200) -/
  | lsym257
  /-- LSYM_258: length symbol 258: length 4 (rule R201) -/
  | lsym258
  /-- LSYM_259: length symbol 259: length 5 (rule R202) -/
  | lsym259
  /-- LSYM_260: length symbol 260: length 6 (rule R203) -/
  | lsym260
  /-- LSYM_261: length symbol 261: length 7 (rule R204) -/
  | lsym261
  /-- LSYM_262: length symbol 262: length 8 (rule R205) -/
  | lsym262
  /-- LSYM_263: length symbol 263: length 9 (rule R206) -/
  | lsym263
  /-- LSYM_264: length symbol 264: length 10 (rule R207) -/
  | lsym264
  /-- LSYM_265: length symbol 265: length 11 + e (rule R208) -/
  | lsym265 (e : BitVec 1)
  /-- LSYM_266: length symbol 266: length 13 + e (rule R209) -/
  | lsym266 (e : BitVec 1)
  /-- LSYM_267: length symbol 267: length 15 + e (rule R210) -/
  | lsym267 (e : BitVec 1)
  /-- LSYM_268: length symbol 268: length 17 + e (rule R211) -/
  | lsym268 (e : BitVec 1)
  /-- LSYM_269: length symbol 269: length 19 + e (rule R212) -/
  | lsym269 (e : BitVec 2)
  /-- LSYM_270: length symbol 270: length 23 + e (rule R213) -/
  | lsym270 (e : BitVec 2)
  /-- LSYM_271: length symbol 271: length 27 + e (rule R214) -/
  | lsym271 (e : BitVec 2)
  /-- LSYM_272: length symbol 272: length 31 + e (rule R215) -/
  | lsym272 (e : BitVec 2)
  /-- LSYM_273: length symbol 273: length 35 + e (rule R216) -/
  | lsym273 (e : BitVec 3)
  /-- LSYM_274: length symbol 274: length 43 + e (rule R217) -/
  | lsym274 (e : BitVec 3)
  /-- LSYM_275: length symbol 275: length 51 + e (rule R218) -/
  | lsym275 (e : BitVec 3)
  /-- LSYM_276: length symbol 276: length 59 + e (rule R219) -/
  | lsym276 (e : BitVec 3)
  /-- LSYM_277: length symbol 277: length 67 + e (rule R220) -/
  | lsym277 (e : BitVec 4)
  /-- LSYM_278: length symbol 278: length 83 + e (rule R221) -/
  | lsym278 (e : BitVec 4)
  /-- LSYM_279: length symbol 279: length 99 + e (rule R222) -/
  | lsym279 (e : BitVec 4)
  /-- LSYM_280: length symbol 280: length 115 + e (rule R223) -/
  | lsym280 (e : BitVec 4)
  /-- LSYM_281: length symbol 281: length 131 + e (rule R224) -/
  | lsym281 (e : BitVec 5)
  /-- LSYM_282: length symbol 282: length 163 + e (rule R225) -/
  | lsym282 (e : BitVec 5)
  /-- LSYM_283: length symbol 283: length 195 + e (rule R226) -/
  | lsym283 (e : BitVec 5)
  /-- LSYM_284: length symbol 284: length 227 + e (rule R227) -/
  | lsym284 (e : BitVec 5)
  /-- LSYM_285: length symbol 285: length 258 (rule R228) -/
  | lsym285
  /-- LL_286: reserved literal/length symbol 286 (rule R229) -/
  | ll286
  /-- LL_287: reserved literal/length symbol 287 (rule R230) -/
  | ll287
  /-- DSYM_0: distance symbol 0: distance 1 (rule R231) -/
  | dsym0
  /-- DSYM_1: distance symbol 1: distance 2 (rule R232) -/
  | dsym1
  /-- DSYM_2: distance symbol 2: distance 3 (rule R233) -/
  | dsym2
  /-- DSYM_3: distance symbol 3: distance 4 (rule R234) -/
  | dsym3
  /-- DSYM_4: distance symbol 4: distance 5 + e (rule R235) -/
  | dsym4 (e : BitVec 1)
  /-- DSYM_5: distance symbol 5: distance 7 + e (rule R236) -/
  | dsym5 (e : BitVec 1)
  /-- DSYM_6: distance symbol 6: distance 9 + e (rule R237) -/
  | dsym6 (e : BitVec 2)
  /-- DSYM_7: distance symbol 7: distance 13 + e (rule R238) -/
  | dsym7 (e : BitVec 2)
  /-- DSYM_8: distance symbol 8: distance 17 + e (rule R239) -/
  | dsym8 (e : BitVec 3)
  /-- DSYM_9: distance symbol 9: distance 25 + e (rule R240) -/
  | dsym9 (e : BitVec 3)
  /-- DSYM_10: distance symbol 10: distance 33 + e (rule R241) -/
  | dsym10 (e : BitVec 4)
  /-- DSYM_11: distance symbol 11: distance 49 + e (rule R242) -/
  | dsym11 (e : BitVec 4)
  /-- DSYM_12: distance symbol 12: distance 65 + e (rule R243) -/
  | dsym12 (e : BitVec 5)
  /-- DSYM_13: distance symbol 13: distance 97 + e (rule R244) -/
  | dsym13 (e : BitVec 5)
  /-- DSYM_14: distance symbol 14: distance 129 + e (rule R245) -/
  | dsym14 (e : BitVec 6)
  /-- DSYM_15: distance symbol 15: distance 193 + e (rule R246) -/
  | dsym15 (e : BitVec 6)
  /-- DSYM_16: distance symbol 16: distance 257 + e (rule R247) -/
  | dsym16 (e : BitVec 7)
  /-- DSYM_17: distance symbol 17: distance 385 + e (rule R248) -/
  | dsym17 (e : BitVec 7)
  /-- DSYM_18: distance symbol 18: distance 513 + e (rule R249) -/
  | dsym18 (e : BitVec 8)
  /-- DSYM_19: distance symbol 19: distance 769 + e (rule R250) -/
  | dsym19 (e : BitVec 8)
  /-- DSYM_20: distance symbol 20: distance 1025 + e (rule R251) -/
  | dsym20 (e : BitVec 9)
  /-- DSYM_21: distance symbol 21: distance 1537 + e (rule R252) -/
  | dsym21 (e : BitVec 9)
  /-- DSYM_22: distance symbol 22: distance 2049 + e (rule R253) -/
  | dsym22 (e : BitVec 10)
  /-- DSYM_23: distance symbol 23: distance 3073 + e (rule R254) -/
  | dsym23 (e : BitVec 10)
  /-- DSYM_24: distance symbol 24: distance 4097 + e (rule R255) -/
  | dsym24 (e : BitVec 11)
  /-- DSYM_25: distance symbol 25: distance 6145 + e (rule R256) -/
  | dsym25 (e : BitVec 11)
  /-- DSYM_26: distance symbol 26: distance 8193 + e (rule R257) -/
  | dsym26 (e : BitVec 12)
  /-- DSYM_27: distance symbol 27: distance 12289 + e (rule R258) -/
  | dsym27 (e : BitVec 12)
  /-- DSYM_28: distance symbol 28: distance 16385 + e (rule R259) -/
  | dsym28 (e : BitVec 13)
  /-- DSYM_29: distance symbol 29: distance 24577 + e (rule R260) -/
  | dsym29 (e : BitVec 13)
  /-- DIST_30: unassigned fixed distance pattern 11110 (rule R261) -/
  | dist30
  /-- DIST_31: unassigned fixed distance pattern 11111 (rule R262) -/
  | dist31
deriving DecidableEq, Repr

end Sys2Proof
end

