-- ==== Sys2Proof/WellFormed.lean ====
section
/-! DEFINITION. Which instructions the stream can encode. -/

namespace Sys2Proof

/-- The checks an operand's type does not make already: the two literal rows cover the bytes below 144 and
from 144 on (rule R70), and CLLENS carries HCLEN + 4, so 4 to 19, lengths (rule R79). -/
def Instr.wellFormed : Instr → Bool
  | .blockStored _ => true
  | .blockFixed _ => true
  | .blockDynamic _ => true
  | .blockReserved _ => true
  | .storedBody _ _ => true
  | .dynHeader _ _ _ => true
  | .cllens ls => decide (4 ≤ ls.length) && decide (ls.length ≤ 19)
  | .cl0to15 _ => true
  | .cl16 _ => true
  | .cl17 _ => true
  | .cl18 _ => true
  | .lit0to143 b => decide (b.toNat < 144)
  | .lit144to255 b => decide (144 ≤ b.toNat)
  | .eob => true
  | .lsym257 => true
  | .lsym258 => true
  | .lsym259 => true
  | .lsym260 => true
  | .lsym261 => true
  | .lsym262 => true
  | .lsym263 => true
  | .lsym264 => true
  | .lsym265 _ => true
  | .lsym266 _ => true
  | .lsym267 _ => true
  | .lsym268 _ => true
  | .lsym269 _ => true
  | .lsym270 _ => true
  | .lsym271 _ => true
  | .lsym272 _ => true
  | .lsym273 _ => true
  | .lsym274 _ => true
  | .lsym275 _ => true
  | .lsym276 _ => true
  | .lsym277 _ => true
  | .lsym278 _ => true
  | .lsym279 _ => true
  | .lsym280 _ => true
  | .lsym281 _ => true
  | .lsym282 _ => true
  | .lsym283 _ => true
  | .lsym284 _ => true
  | .lsym285 => true
  | .ll286 => true
  | .ll287 => true
  | .dsym0 => true
  | .dsym1 => true
  | .dsym2 => true
  | .dsym3 => true
  | .dsym4 _ => true
  | .dsym5 _ => true
  | .dsym6 _ => true
  | .dsym7 _ => true
  | .dsym8 _ => true
  | .dsym9 _ => true
  | .dsym10 _ => true
  | .dsym11 _ => true
  | .dsym12 _ => true
  | .dsym13 _ => true
  | .dsym14 _ => true
  | .dsym15 _ => true
  | .dsym16 _ => true
  | .dsym17 _ => true
  | .dsym18 _ => true
  | .dsym19 _ => true
  | .dsym20 _ => true
  | .dsym21 _ => true
  | .dsym22 _ => true
  | .dsym23 _ => true
  | .dsym24 _ => true
  | .dsym25 _ => true
  | .dsym26 _ => true
  | .dsym27 _ => true
  | .dsym28 _ => true
  | .dsym29 _ => true
  | .dist30 => true
  | .dist31 => true

end Sys2Proof
end

