-- ==== Sys2Proof/Decode.lean ====
section
/-! DEFINITION. From stream bits to instructions: the Bit Cursor (40_bit_cursor.md), the Huffman Symbol Decoder
(42_symbol_decoder.md), the element decoder, which is total and rejects by name, and after it the encoder
(30_encoding.md). Which element the bits stand for depends on where the sequencer is (rule R130), so the
decoder takes that as its context. -/

namespace Sys2Proof.Machine

/-- Why no instruction could be decoded. The first three are faults of the spec; the last two cannot
arise in a run (they name a read the rules never make) and stop the model. -/
inductive Reject where
  /-- a byte was needed beyond the end of the input (rule R91) -/
  | truncated
  /-- 15 bits match no codeword of the table (rule R113) -/
  | undecodable
  /-- a literal/length symbol above 287 (rule R190: index at or above 29) -/
  | invalidLength
  /-- an entry of `symbol[]` outside the store -/
  | storeBounds
  /-- a distance symbol above 29 or a code-length symbol above 18 -/
  | noSuchSymbol
deriving DecidableEq, Repr

/-! ### The Bit Cursor -/

/-- The byte-fetch loop of `bits` (rule R90): the value gathered, `incnt`, and the number of bits held.
`fuel` bounds the bytes fetched. The end of the input is tested before each fetch (rule R91). -/
def refill (inp : List Byte) (n : Nat) : (fuel val i cnt : Nat) → Except Reject (Nat × Nat × Nat)
  | 0, val, i, cnt => .ok (val, i, cnt)
  | fuel + 1, val, i, cnt =>
    if cnt < n then
      match inp[i]? with
      | none => .error .truncated
      | some b => refill inp n fuel (val ||| (b.toNat <<< cnt)) (i + 1) (cnt + 8)
    else .ok (val, i, cnt)

/-- `bits(n)` (rule R90). The type of `n` admits the widths 0 to 16 only (rule R95); two bytes are the most
such a field can need. -/
def bits (inp : List Byte) (n : Fin 17) (c : Cursor) : Except Reject (Nat × Cursor) :=
  match refill inp n.val 2 c.bitbuf.toNat c.incnt c.bitcnt.toNat with
  | .error r => .error r
  | .ok (val, i, cnt) =>
    .ok (val % 2 ^ n.val,
      { incnt := i, bitbuf := BitVec.ofNat 7 (val >>> n.val), bitcnt := BitVec.ofNat 3 (cnt - n.val) })

/-- `align()` (rule R92). -/
def align (c : Cursor) : Cursor := { c with bitbuf := 0, bitcnt := 0 }

/-- `nextbyte()` (rule R93); its caller has checked that the residual buffer is empty. -/
def nextbyte (inp : List Byte) (c : Cursor) : Except Reject (Byte × Cursor) :=
  match inp[c.incnt]? with
  | none => .error .truncated
  | some b => .ok (b, { c with incnt := c.incnt + 1 })

/-- The stream position `P = 8 * incnt - bitcnt` (rule R25). -/
def Cursor.pos (c : Cursor) : Nat := 8 * c.incnt - c.bitcnt.toNat

/-! ### The Huffman Symbol Decoder -/

/-- `t.count[len]`. -/
def Table.countAt {w cap : Nat} (t : Table w cap) (len : Nat) : Nat := (t.count.toList.getD len 0).toNat

/-- `t.symbol[i]`, if the store has such an entry. -/
def Table.symbolAt {w cap : Nat} (t : Table w cap) (i : Nat) : Option Nat := (t.symbol.toList[i]?).map (·.toNat)

/-- A symbol, the cursor after its codeword, and the decoder's registers as the loop leaves them. -/
structure Decoded where
  sym : Nat
  cur : Cursor
  regs : DecoderRegs
deriving DecidableEq, Repr

/-- The loop of `decode` from length `len` on, `fuel` lengths long (rule R111). -/
def decodeFrom {w cap : Nat} (t : Table w cap) (inp : List Byte) :
    (fuel len code first index : Nat) → Cursor → Except Reject Decoded
  | 0, _, _, _, _, _ => .error .undecodable
  | fuel + 1, len, code, first, index, c =>
    match bits inp 1 c with
    | .error r => .error r
    | .ok (b, c') =>
      let code' := code ||| b
      let count := t.countAt len
      if code' < first + count then
        match t.symbolAt (index + (code' - first)) with
        | none => .error .storeBounds
        | some sym =>
          .ok { sym := sym, cur := c',
                regs := { code := BitVec.ofNat 16 code', first := BitVec.ofNat 16 first,
                          index := BitVec.ofNat 9 index, len := BitVec.ofNat 4 len } }
      else decodeFrom t inp fuel (len + 1) (code' <<< 1) ((first + count) <<< 1) (index + count) c'

/-- `decode(t)` (rule R111): lengths 1 to 15. -/
def decodeSym {w cap : Nat} (t : Table w cap) (inp : List Byte) (c : Cursor) : Except Reject Decoded :=
  decodeFrom t inp 15 1 0 0 0 c

/-! ### The element decoder -/

/-- Where the sequencer is, with what decoding the next element there needs (rule R130). -/
inductive Context where
  | header
  | storedBody
  | counts
  | codeLens (ncode : Nat)
  /-- `first`: no code length has been decoded yet (`index = 0`, rule R169) -/
  | codeSyms (t : Table 5 19) (first : Bool)
  | symbol (t : Table 9 288)
  /-- `fixed`: the block is a fixed block, whose patterns 30 and 31 have rows of their own -/
  | distance (t : Table 5 30) (fixed : Bool)
deriving DecidableEq, Repr

/-- An instruction, the cursor after its bits, and the decoder's registers if a codeword was read. -/
structure Fetched where
  instr : Instr
  cur : Cursor
  regs : Option DecoderRegs
deriving DecidableEq, Repr

/-- The header instruction of a BTYPE (rules R62, R131). -/
def headerInstr (bfinal btype : Nat) : Instr :=
  match btype with
  | 0 => .blockStored (BitVec.ofNat 1 bfinal)
  | 1 => .blockFixed (BitVec.ofNat 1 bfinal)
  | 2 => .blockDynamic (BitVec.ofNat 1 bfinal)
  | _ => .blockReserved (BitVec.ofNat 1 bfinal)

/-- The instruction of length symbol `257 + k` with extra value `e` (rules R200 to R228). -/
def lengthInstr (k e : Nat) : Option Instr :=
  match k with
  | 0 => some .lsym257
  | 1 => some .lsym258
  | 2 => some .lsym259
  | 3 => some .lsym260
  | 4 => some .lsym261
  | 5 => some .lsym262
  | 6 => some .lsym263
  | 7 => some .lsym264
  | 8 => some (.lsym265 (BitVec.ofNat 1 e))
  | 9 => some (.lsym266 (BitVec.ofNat 1 e))
  | 10 => some (.lsym267 (BitVec.ofNat 1 e))
  | 11 => some (.lsym268 (BitVec.ofNat 1 e))
  | 12 => some (.lsym269 (BitVec.ofNat 2 e))
  | 13 => some (.lsym270 (BitVec.ofNat 2 e))
  | 14 => some (.lsym271 (BitVec.ofNat 2 e))
  | 15 => some (.lsym272 (BitVec.ofNat 2 e))
  | 16 => some (.lsym273 (BitVec.ofNat 3 e))
  | 17 => some (.lsym274 (BitVec.ofNat 3 e))
  | 18 => some (.lsym275 (BitVec.ofNat 3 e))
  | 19 => some (.lsym276 (BitVec.ofNat 3 e))
  | 20 => some (.lsym277 (BitVec.ofNat 4 e))
  | 21 => some (.lsym278 (BitVec.ofNat 4 e))
  | 22 => some (.lsym279 (BitVec.ofNat 4 e))
  | 23 => some (.lsym280 (BitVec.ofNat 4 e))
  | 24 => some (.lsym281 (BitVec.ofNat 5 e))
  | 25 => some (.lsym282 (BitVec.ofNat 5 e))
  | 26 => some (.lsym283 (BitVec.ofNat 5 e))
  | 27 => some (.lsym284 (BitVec.ofNat 5 e))
  | 28 => some .lsym285
  | _ => none

/-- The instruction of distance symbol `d` with extra value `e` (rules R231 to R260). -/
def distanceInstr (d e : Nat) : Option Instr :=
  match d with
  | 0 => some .dsym0
  | 1 => some .dsym1
  | 2 => some .dsym2
  | 3 => some .dsym3
  | 4 => some (.dsym4 (BitVec.ofNat 1 e))
  | 5 => some (.dsym5 (BitVec.ofNat 1 e))
  | 6 => some (.dsym6 (BitVec.ofNat 2 e))
  | 7 => some (.dsym7 (BitVec.ofNat 2 e))
  | 8 => some (.dsym8 (BitVec.ofNat 3 e))
  | 9 => some (.dsym9 (BitVec.ofNat 3 e))
  | 10 => some (.dsym10 (BitVec.ofNat 4 e))
  | 11 => some (.dsym11 (BitVec.ofNat 4 e))
  | 12 => some (.dsym12 (BitVec.ofNat 5 e))
  | 13 => some (.dsym13 (BitVec.ofNat 5 e))
  | 14 => some (.dsym14 (BitVec.ofNat 6 e))
  | 15 => some (.dsym15 (BitVec.ofNat 6 e))
  | 16 => some (.dsym16 (BitVec.ofNat 7 e))
  | 17 => some (.dsym17 (BitVec.ofNat 7 e))
  | 18 => some (.dsym18 (BitVec.ofNat 8 e))
  | 19 => some (.dsym19 (BitVec.ofNat 8 e))
  | 20 => some (.dsym20 (BitVec.ofNat 9 e))
  | 21 => some (.dsym21 (BitVec.ofNat 9 e))
  | 22 => some (.dsym22 (BitVec.ofNat 10 e))
  | 23 => some (.dsym23 (BitVec.ofNat 10 e))
  | 24 => some (.dsym24 (BitVec.ofNat 11 e))
  | 25 => some (.dsym25 (BitVec.ofNat 11 e))
  | 26 => some (.dsym26 (BitVec.ofNat 12 e))
  | 27 => some (.dsym27 (BitVec.ofNat 12 e))
  | 28 => some (.dsym28 (BitVec.ofNat 13 e))
  | 29 => some (.dsym29 (BitVec.ofNat 13 e))
  | _ => none

/-- The literal instruction of a byte (rule R191; the table has two rows, by the fixed code's bands). -/
def literalInstr (v : Nat) : Instr :=
  if v < 144 then .lit0to143 (BitVec.ofNat 8 v) else .lit144to255 (BitVec.ofNat 8 v)

/-- `n` code-length code lengths of 3 bits each (rule R163). -/
def readCodeLens (inp : List Byte) : (n : Nat) → Cursor → Except Reject (List (BitVec 3) × Cursor)
  | 0, c => .ok ([], c)
  | n + 1, c => do
    let (v, c) ← bits inp 3 c
    let (vs, c) ← readCodeLens inp n c
    return (BitVec.ofNat 3 v :: vs, c)

/-- Block header: BFINAL, then BTYPE (rule R131). -/
def decodeHeader (inp : List Byte) (c : Cursor) : Except Reject Fetched := do
  let (f, c) ← bits inp 1 c
  let (t, c) ← bits inp 2 c
  return { instr := headerInstr f t, cur := c, regs := none }

/-- Stored body: the pad is discarded, LEN and NLEN are read (rules R140, R141, R145). -/
def decodeStored (inp : List Byte) (c : Cursor) : Except Reject Fetched := do
  let (l, c) ← bits inp 16 (align c)
  let (n, c) ← bits inp 16 c
  return { instr := .storedBody (BitVec.ofNat 16 l) (BitVec.ofNat 16 n), cur := c, regs := none }

/-- HLIT, HDIST, HCLEN (rule R161). -/
def decodeCounts (inp : List Byte) (c : Cursor) : Except Reject Fetched := do
  let (l, c) ← bits inp 5 c
  let (d, c) ← bits inp 5 c
  let (n, c) ← bits inp 4 c
  return { instr := .dynHeader (BitVec.ofNat 5 l) (BitVec.ofNat 5 d) (BitVec.ofNat 4 n), cur := c, regs := none }

/-- The code-length code lengths (rule R163). -/
def decodeCodeLens (ncode : Nat) (inp : List Byte) (c : Cursor) : Except Reject Fetched := do
  let (ls, c) ← readCodeLens inp ncode c
  return { instr := .cllens ls, cur := c, regs := none }

/-- A code-length symbol with its repeat field (rules R66, R167 to R171). A symbol 16 that has no previous
length faults before its extra bits are read, so here they are not read (rule R169; log 10). -/
def decodeCodeSym (t : Table 5 19) (first : Bool) (inp : List Byte) (c : Cursor) : Except Reject Fetched := do
  let d ← decodeSym t inp c
  if d.sym < 16 then
    return { instr := .cl0to15 (BitVec.ofNat 4 d.sym), cur := d.cur, regs := some d.regs }
  else if d.sym = 16 then
    if first then
      return { instr := .cl16 0, cur := d.cur, regs := some d.regs }
    else do
      let (r, c) ← bits inp 2 d.cur
      return { instr := .cl16 (BitVec.ofNat 2 r), cur := c, regs := some d.regs }
  else if d.sym = 17 then do
    let (r, c) ← bits inp 3 d.cur
    return { instr := .cl17 (BitVec.ofNat 3 r), cur := c, regs := some d.regs }
  else if d.sym = 18 then do
    let (r, c) ← bits inp 7 d.cur
    return { instr := .cl18 (BitVec.ofNat 7 r), cur := c, regs := some d.regs }
  else throw .noSuchSymbol

/-- A literal, an end of block, a length symbol with its extra bits, or a reserved symbol (rules R190 to
R193, R229, R230). -/
def decodeSymbol (t : Table 9 288) (inp : List Byte) (c : Cursor) : Except Reject Fetched := do
  let d ← decodeSym t inp c
  if d.sym < 256 then
    return { instr := literalInstr d.sym, cur := d.cur, regs := some d.regs }
  else if d.sym = 256 then
    return { instr := .eob, cur := d.cur, regs := some d.regs }
  else if d.sym - 257 < Config.nLenSym then do
    let (e, c) ← bits inp (lext.getD (d.sym - 257) 0) d.cur
    match lengthInstr (d.sym - 257) e with
    | some i => return { instr := i, cur := c, regs := some d.regs }
    | none => throw .invalidLength
  else if d.sym = 286 then
    return { instr := .ll286, cur := d.cur, regs := some d.regs }
  else if d.sym = 287 then
    return { instr := .ll287, cur := d.cur, regs := some d.regs }
  else throw .invalidLength

/-- `n` single bits, first-read bit most significant: a codeword as `decode` gathers it (rule R46). -/
def codeBits (inp : List Byte) : (n code : Nat) → Cursor → Except Reject (Nat × Cursor)
  | 0, code, c => .ok (code, c)
  | n + 1, code, c => do
    let (b, c) ← bits inp 1 c
    codeBits inp n ((code <<< 1) ||| b) c

/-- The next five bits, if they are one of the patterns the fixed distance code leaves unassigned
(rules R71, R261, R262). -/
def unassignedPattern (inp : List Byte) (c : Cursor) : Option Fetched :=
  match codeBits inp 5 0 c with
  | .ok (30, c) => some { instr := .dist30, cur := c, regs := none }
  | .ok (31, c) => some { instr := .dist31, cur := c, regs := none }
  | _ => none

/-- A distance symbol with its extra bits (rule R194), or in a fixed block an unassigned pattern. -/
def decodeDistance (t : Table 5 30) (fixed : Bool) (inp : List Byte) (c : Cursor) : Except Reject Fetched :=
  match (if fixed then unassignedPattern inp c else none) with
  | some f => .ok f
  | none => do
    let d ← decodeSym t inp c
    if d.sym < Config.maxDCodes then do
      let (e, c) ← bits inp (dext.getD d.sym 0) d.cur
      match distanceInstr d.sym e with
      | some i => return { instr := i, cur := c, regs := some d.regs }
      | none => throw .noSuchSymbol
    else throw .noSuchSymbol

/-- The decoder: the next stream element at the cursor, by the context (rule R130). -/
def decodeElement (ctx : Context) (inp : List Byte) (c : Cursor) : Except Reject Fetched :=
  match ctx with
  | .header => decodeHeader inp c
  | .storedBody => decodeStored inp c
  | .counts => decodeCounts inp c
  | .codeLens n => decodeCodeLens n inp c
  | .codeSyms t first => decodeCodeSym t first inp c
  | .symbol t => decodeSymbol t inp c
  | .distance t fixed => decodeDistance t fixed inp c

/-! ### The encoder -/

/-- The `n` low bits of `v` in stream order for a field: bit 0 first (rule R45). -/
def lsbBits (n v : Nat) : List Bool := (List.range n).map v.testBit

/-- The `n` low bits of `v` in stream order for a codeword: most significant bit first (rule R46). -/
def msbBits (n v : Nat) : List Bool := (lsbBits n v).reverse

/-- The code lengths of the three codes in use. -/
structure Codes where
  cl : List Nat
  ll : List Nat
  d : List Nat
deriving DecidableEq, Repr

/-- The fixed block's codes (rules R70, R71). -/
def fixedCodes : Codes := { cl := [], ll := fixll, d := fixd }

/-- A symbol's codeword in stream order (rule R69). -/
def codewordBits (lens : List Nat) (s : Nat) : Option (List Bool) :=
  (codewordOf lens s).map fun p => msbBits p.1 p.2

/-- The encoder: an instruction's bits in stream order, in a block with the codes `cs` (rules R61 to R68). A
stored body is given from its byte boundary on, without the pad and the data. -/
def encode (cs : Codes) : Instr → Option (List Bool)
  | .blockStored f => some (lsbBits 1 f.toNat ++ lsbBits 2 0)
  | .blockFixed f => some (lsbBits 1 f.toNat ++ lsbBits 2 1)
  | .blockDynamic f => some (lsbBits 1 f.toNat ++ lsbBits 2 2)
  | .blockReserved f => some (lsbBits 1 f.toNat ++ lsbBits 2 3)
  | .storedBody l n => some (lsbBits 16 l.toNat ++ lsbBits 16 n.toNat)
  | .dynHeader l d n => some (lsbBits 5 l.toNat ++ (lsbBits 5 d.toNat ++ lsbBits 4 n.toNat))
  | .cllens ls => some (ls.flatMap fun v => lsbBits 3 v.toNat)
  | .cl0to15 v => codewordBits cs.cl v.toNat
  | .cl16 r => (codewordBits cs.cl 16).map (· ++ lsbBits 2 r.toNat)
  | .cl17 r => (codewordBits cs.cl 17).map (· ++ lsbBits 3 r.toNat)
  | .cl18 r => (codewordBits cs.cl 18).map (· ++ lsbBits 7 r.toNat)
  | .lit0to143 b => codewordBits cs.ll b.toNat
  | .lit144to255 b => codewordBits cs.ll b.toNat
  | .eob => codewordBits cs.ll 256
  | .lsym257 => codewordBits cs.ll 257
  | .lsym258 => codewordBits cs.ll 258
  | .lsym259 => codewordBits cs.ll 259
  | .lsym260 => codewordBits cs.ll 260
  | .lsym261 => codewordBits cs.ll 261
  | .lsym262 => codewordBits cs.ll 262
  | .lsym263 => codewordBits cs.ll 263
  | .lsym264 => codewordBits cs.ll 264
  | .lsym265 e => (codewordBits cs.ll 265).map (· ++ lsbBits 1 e.toNat)
  | .lsym266 e => (codewordBits cs.ll 266).map (· ++ lsbBits 1 e.toNat)
  | .lsym267 e => (codewordBits cs.ll 267).map (· ++ lsbBits 1 e.toNat)
  | .lsym268 e => (codewordBits cs.ll 268).map (· ++ lsbBits 1 e.toNat)
  | .lsym269 e => (codewordBits cs.ll 269).map (· ++ lsbBits 2 e.toNat)
  | .lsym270 e => (codewordBits cs.ll 270).map (· ++ lsbBits 2 e.toNat)
  | .lsym271 e => (codewordBits cs.ll 271).map (· ++ lsbBits 2 e.toNat)
  | .lsym272 e => (codewordBits cs.ll 272).map (· ++ lsbBits 2 e.toNat)
  | .lsym273 e => (codewordBits cs.ll 273).map (· ++ lsbBits 3 e.toNat)
  | .lsym274 e => (codewordBits cs.ll 274).map (· ++ lsbBits 3 e.toNat)
  | .lsym275 e => (codewordBits cs.ll 275).map (· ++ lsbBits 3 e.toNat)
  | .lsym276 e => (codewordBits cs.ll 276).map (· ++ lsbBits 3 e.toNat)
  | .lsym277 e => (codewordBits cs.ll 277).map (· ++ lsbBits 4 e.toNat)
  | .lsym278 e => (codewordBits cs.ll 278).map (· ++ lsbBits 4 e.toNat)
  | .lsym279 e => (codewordBits cs.ll 279).map (· ++ lsbBits 4 e.toNat)
  | .lsym280 e => (codewordBits cs.ll 280).map (· ++ lsbBits 4 e.toNat)
  | .lsym281 e => (codewordBits cs.ll 281).map (· ++ lsbBits 5 e.toNat)
  | .lsym282 e => (codewordBits cs.ll 282).map (· ++ lsbBits 5 e.toNat)
  | .lsym283 e => (codewordBits cs.ll 283).map (· ++ lsbBits 5 e.toNat)
  | .lsym284 e => (codewordBits cs.ll 284).map (· ++ lsbBits 5 e.toNat)
  | .lsym285 => codewordBits cs.ll 285
  | .ll286 => codewordBits cs.ll 286
  | .ll287 => codewordBits cs.ll 287
  | .dsym0 => codewordBits cs.d 0
  | .dsym1 => codewordBits cs.d 1
  | .dsym2 => codewordBits cs.d 2
  | .dsym3 => codewordBits cs.d 3
  | .dsym4 e => (codewordBits cs.d 4).map (· ++ lsbBits 1 e.toNat)
  | .dsym5 e => (codewordBits cs.d 5).map (· ++ lsbBits 1 e.toNat)
  | .dsym6 e => (codewordBits cs.d 6).map (· ++ lsbBits 2 e.toNat)
  | .dsym7 e => (codewordBits cs.d 7).map (· ++ lsbBits 2 e.toNat)
  | .dsym8 e => (codewordBits cs.d 8).map (· ++ lsbBits 3 e.toNat)
  | .dsym9 e => (codewordBits cs.d 9).map (· ++ lsbBits 3 e.toNat)
  | .dsym10 e => (codewordBits cs.d 10).map (· ++ lsbBits 4 e.toNat)
  | .dsym11 e => (codewordBits cs.d 11).map (· ++ lsbBits 4 e.toNat)
  | .dsym12 e => (codewordBits cs.d 12).map (· ++ lsbBits 5 e.toNat)
  | .dsym13 e => (codewordBits cs.d 13).map (· ++ lsbBits 5 e.toNat)
  | .dsym14 e => (codewordBits cs.d 14).map (· ++ lsbBits 6 e.toNat)
  | .dsym15 e => (codewordBits cs.d 15).map (· ++ lsbBits 6 e.toNat)
  | .dsym16 e => (codewordBits cs.d 16).map (· ++ lsbBits 7 e.toNat)
  | .dsym17 e => (codewordBits cs.d 17).map (· ++ lsbBits 7 e.toNat)
  | .dsym18 e => (codewordBits cs.d 18).map (· ++ lsbBits 8 e.toNat)
  | .dsym19 e => (codewordBits cs.d 19).map (· ++ lsbBits 8 e.toNat)
  | .dsym20 e => (codewordBits cs.d 20).map (· ++ lsbBits 9 e.toNat)
  | .dsym21 e => (codewordBits cs.d 21).map (· ++ lsbBits 9 e.toNat)
  | .dsym22 e => (codewordBits cs.d 22).map (· ++ lsbBits 10 e.toNat)
  | .dsym23 e => (codewordBits cs.d 23).map (· ++ lsbBits 10 e.toNat)
  | .dsym24 e => (codewordBits cs.d 24).map (· ++ lsbBits 11 e.toNat)
  | .dsym25 e => (codewordBits cs.d 25).map (· ++ lsbBits 11 e.toNat)
  | .dsym26 e => (codewordBits cs.d 26).map (· ++ lsbBits 12 e.toNat)
  | .dsym27 e => (codewordBits cs.d 27).map (· ++ lsbBits 12 e.toNat)
  | .dsym28 e => (codewordBits cs.d 28).map (· ++ lsbBits 13 e.toNat)
  | .dsym29 e => (codewordBits cs.d 29).map (· ++ lsbBits 13 e.toNat)
  | .dist30 => some (msbBits 5 30)
  | .dist31 => some (msbBits 5 31)

/-- The eight bits of a byte in stream order (rule R44). -/
def byteBits (b : Byte) : List Bool := lsbBits 8 b.toNat

/-- The value of stream bits as a field: the first is bit 0 (rule R45). -/
def bitsValue : List Bool → Nat
  | [] => 0
  | b :: bs => b.toNat + 2 * bitsValue bs

/-- Stream bits laid out as bytes of `IN`, the last byte filled with zero bits (rules R44, R82). `fuel` is
at least the number of bytes. -/
def packBits : (fuel : Nat) → List Bool → List Byte
  | 0, _ => []
  | _ + 1, [] => []
  | fuel + 1, bs => BitVec.ofNat 8 (bitsValue (bs.take 8)) :: packBits fuel (bs.drop 8)

/-- The stream bits not yet consumed: the residual ones, then those of the bytes not yet fetched. -/
def upcoming (inp : List Byte) (c : Cursor) : List Bool :=
  lsbBits c.bitcnt.toNat c.bitbuf.toNat ++ (inp.drop c.incnt).flatMap byteBits

/-! ### The opcode table's words -/

/-- The fixed literal/length table as rule R151 states its contents: what `construct` makes of `FIXLL`. A
fixed block may hold it in read-only memory (rule R153). -/
def fixedLltab : Table 9 288 where
  count := ⟨⟨[0, 0, 0, 0, 0, 0, 0, 24, 152, 112, 0, 0, 0, 0, 0, 0]⟩, rfl⟩
  symbol :=
    ⟨⟨(List.range' 256 24 ++ (List.range' 0 144 ++ (List.range' 280 8 ++ List.range' 144 112))).map (BitVec.ofNat 9)⟩,
      by simp⟩

/-- The fixed distance table as rule R152 states its contents. -/
def fixedDtab : Table 5 30 where
  count := ⟨⟨[0, 0, 0, 0, 0, 30, 0, 0, 0, 0, 0, 0, 0, 0, 0, 0]⟩, rfl⟩
  symbol := ⟨⟨(List.range 30).map (BitVec.ofNat 5)⟩, by simp⟩

/-- Where a word of the opcode table stands in a stream. -/
inductive Slot where
  | header
  | storedBody
  | counts
  | symbol
  | distance
deriving DecidableEq, Repr

/-- The slot a table word is read in and its bits in stream order. The table numbers a header by the
value `bits` would return and a codeword by its first-sent bit as most significant (rule R83), and words
of different slots coincide, so the slot is taken from the word's size (log 11). -/
def tableWord (nbits w : Nat) : Option (Slot × List Bool) :=
  match nbits with
  | 3 => some (.header, lsbBits 3 w)
  | 5 => some (.distance, msbBits 5 w)
  | 7 => some (.symbol, msbBits 7 w)
  | 8 => if w < 32 then some (.distance, msbBits 5 w) else some (.symbol, msbBits 8 w)
  | 9 => some (.symbol, msbBits 9 w)
  | 14 => some (.counts, lsbBits 14 w)
  | 16 => if 400 ≤ w ∧ w < 512 then some (.symbol, msbBits 9 w) else some (.counts, lsbBits 14 w)
  | 32 => some (.storedBody, lsbBits 32 w)
  | _ => none

/-- The bytes of `IN` that hold a table word's bits at stream position 0, with zeros after them. -/
def wordBytes (bs : List Bool) : List Byte := packBits 4 bs ++ List.replicate 8 0

/-- The decoder's context in a slot of a fixed block. -/
def Slot.context : Slot → Context
  | .header => .header
  | .storedBody => .storedBody
  | .counts => .counts
  | .symbol => .symbol fixedLltab
  | .distance => .distance fixedDtab true

end Sys2Proof.Machine

namespace Sys2Proof

/-- The instruction the decoder reads from an opcode-table word (log 11). -/
def decodeTableWord (nbits w : Nat) : Option Instr :=
  match Machine.tableWord nbits w with
  | none => none
  | some (slot, bs) =>
    match Machine.decodeElement slot.context (Machine.wordBytes bs) { incnt := 0, bitbuf := 0, bitcnt := 0 } with
    | .ok f => some f.instr
    | .error _ => none

end Sys2Proof
end

