-- ==== Sys2Proof/Machine/Operands.lean ====
section
/-! DEFINITION. Operand assembly (30_encoding.md section 4): how a symbol's or a header's fields become the
quantity the element works with. All fields are unsigned and added to the base without scaling. -/

namespace Sys2Proof.Machine

/-- `length = LBASE[s - 257] + e` for length symbol `s` (rule R73). -/
def lengthOf (sym e : Nat) : Nat := lbase.getD (sym - 257) 0 + e

/-- `dist = DBASE[d] + e` for distance symbol `d` (rule R73). -/
def distanceOf (d e : Nat) : Nat := dbase.getD d 0 + e

/-- `nlen = HLIT + 257` (rule R79). -/
def nlenOf (hlit : Nat) : Nat := hlit + 257

/-- `ndist = HDIST + 1` (rule R79). -/
def ndistOf (hdist : Nat) : Nat := hdist + 1

/-- `ncode = HCLEN + 4` (rule R79). -/
def ncodeOf (hclen : Nat) : Nat := hclen + 4

/-- `rep = 3 + r` for code-length symbols 16 and 17 (rule R77). -/
def repShort (r : Nat) : Nat := 3 + r

/-- `rep = 11 + r` for code-length symbol 18 (rule R77). -/
def repLong (r : Nat) : Nat := 11 + r

/-- `cllen[0..18]` from the lengths sent: the `i`-th goes to slot `ORDER[i]`, every other slot is 0 (rules
R163, R164). -/
def placeCodeLens (ls : List (BitVec 3)) : Vector (BitVec 3) 19 :=
  (order.zip ls).foldl (fun v p => v.setIfInBounds p.1 p.2) (Vector.replicate 19 0)

end Sys2Proof.Machine
end

