-- ==== Sys2Proof/Machine/State.lean ====
section
/-! DEFINITION. The machine's state as plain data (10_state.md), the reasons the model can stop, and the state
after reset. -/

namespace Sys2Proof.Machine

/-- Stops of the model itself. None of the spec's ten faults is here: taking one of those is a next state
(rule R272). All are safe: the model stops where the rules give nothing, and no run reaches one. -/
inductive Fault where
  /-- Raised by the fetch and by the code-length symbols: an entry of a table store or of `lengths` outside
  the store would be read or written, which no rule does (rules R31, R32, R37, R112). Safe. -/
  | storeBounds
  /-- Raised by the fetch: a table gave a distance symbol above 29 or a code-length symbol above 18, which
  no built table holds (rules R76, R77). Safe. -/
  | noSuchSymbol
deriving DecidableEq, Repr

/-- Requests the model gives no meaning. -/
inductive Refusal where
  /-- Raised by exec's arms for an instruction without a meaning. Safe. -/
  | notModelled (mnemonic : String)
  /-- Raised by the stored body: `nextbyte` with a residual bit buffer that is not empty, a call outside
  the block's contract to which a model should give no meaning (rule R93). Safe. -/
  | nextbyteUnaligned
deriving DecidableEq, Repr

/-- The state: the Decoder State (rules R11 to R21), the sequencer's registers (rules R22 to R26), the block's
private stores and working registers (rules R23, R30 to R34), and the host's side of the interface (rule
R29). `params` are the block's build-time parameters, fixed for a machine (rule R4, log 19). `winDraw` and
`draws` are the model's own: they number the free values (log 1, log 2). -/
structure State where
  /-- `CHECK_DIST` and `CHECK_NLEN`, which no step changes (rules R4, R39, log 19) -/
  params : Params
  /-- what the host offers and asks for (rule R29) -/
  host : HostPort
  /-- `IN[0..IN_LEN-1]` of the run, latched at `START` (rules R15, R302) -/
  input : List Byte
  /-- `incnt`, `bitbuf`, `bitcnt` -/
  cur : Cursor
  /-- the window's written cells, by address (rule R16) -/
  window : List Host.Cell
  /-- the draw the window's unwritten cells hold (rule R18) -/
  winDraw : Nat
  /-- `next`, the window's write index (rule R17) -/
  next : BitVec 15
  /-- `outcnt` (rule R19) -/
  outcnt : Nat
  /-- `OUT` (rule R20) -/
  out : List Byte
  /-- `bfinal` (rule R22) -/
  bfinal : BitVec 1
  /-- `btype` (rule R22) -/
  btype : BitVec 2
  /-- `phase` (rule R26) -/
  phase : Phase
  /-- the place inside the block (rule R27) -/
  sub : Sub
  /-- `fault_code` (rule R24) -/
  faultCode : BitVec 4
  /-- what is private to a block or an element (rules R23, R30 to R34) -/
  blk : BlockRegs
  /-- how many free values have been drawn -/
  draws : Nat
deriving DecidableEq, Repr

/-- The block's private state with every register 0 (log 3). -/
def BlockRegs.zero : BlockRegs where
  cltab := { count := Vector.replicate 16 0, symbol := Vector.replicate 19 0 }
  lltab := { count := Vector.replicate 16 0, symbol := Vector.replicate 288 0 }
  dtab := { count := Vector.replicate 16 0, symbol := Vector.replicate 30 0 }
  cllen := Vector.replicate 19 0
  lengths := Vector.replicate 316 0
  slen := 0
  snlen := 0
  scnt := 0
  nlen := 0
  ndist := 0
  ncode := 0
  index := 0
  sym := 0
  rep := 0
  rlen := 0
  length := 0
  dsym := 0
  dist := 0
  builder := { left := 0, offs := Vector.replicate 15 0 }
  decoder := { code := 0, first := 0, index := 0, len := 0 }

/-- The machine right after hardware reset (rules R37, R300): IDLE, `fault_code` 0, `outcnt` 0, `OUT` empty.
Every other register is unspecified there and is 0 here (log 3); the window lists no cell; the parameters are this
hardware's (log 19). -/
def State.reset : State where
  params := Config.params
  host := { data := [], start := false, reset := false }
  input := []
  cur := { incnt := 0, bitbuf := 0, bitcnt := 0 }
  window := []
  winDraw := 0
  next := 0
  outcnt := 0
  out := []
  bfinal := 0
  btype := 0
  phase := .idle
  sub := .entry
  faultCode := 0
  blk := BlockRegs.zero
  draws := 1

end Sys2Proof.Machine
end

