-- ==== Sys2Proof/Machine/Flags.lean ====
section
/-! DEFINITION. The status the host reads (rules R28, R29). The block has no arithmetic flags: BUSY, DONE and FAULT
are functions of `phase`, and the only internal condition is the sign of `construct`'s result. -/

namespace Sys2Proof.Machine

/-- The encoding of `phase` on `STATUS.phase` (rule R26); 7 is never produced. -/
def Phase.code : Phase → BitVec 3
  | .idle => 0
  | .header => 1
  | .stored => 2
  | .fixed => 3
  | .dynamic => 4
  | .done => 5
  | .fault => 6

/-- The fault codes of rule R270. -/
def FaultCode.code : FaultCode → BitVec 4
  | .truncated => 1
  | .overSubscribed => 2
  | .undecodable => 3
  | .invalidBlockType => 4
  | .badCodeCount => 5
  | .repeatWithoutPrevious => 6
  | .repeatOverrun => 7
  | .invalidLengthSymbol => 8
  | .distanceTooFar => 9
  | .storedLengthMismatch => 10

/-- BUSY of a phase (rule R28). -/
def Phase.busy : Phase → Bool
  | .header => true
  | .stored => true
  | .fixed => true
  | .dynamic => true
  | .idle => false
  | .done => false
  | .fault => false

/-- The BUSY flag (rule R28). -/
def State.busyFlag (s : State) : Bool := s.phase.busy

/-- The DONE flag (rule R28). -/
def State.doneFlag (s : State) : Bool := s.phase == .done

/-- The FAULT flag (rule R28). -/
def State.faultFlag (s : State) : Bool := s.phase == .fault

/-- `STATUS.phase` (rule R29). -/
def State.statusPhase (s : State) : BitVec 3 := s.phase.code

/-- `IN_LEN` of the run (rule R5): the number of bytes of `IN`. -/
def State.inLen (s : State) : Nat := s.input.length

/-- The builder's verdict: negative means over-subscribed, zero and positive go on (rules R28, R104). -/
def overSubscribed (result : Int) : Bool := result < 0

end Sys2Proof.Machine
end

