-- ==== Sys2Proof/Machine/Ops.lean ====
section
/-! DEFINITION. The named operations over memory and registers: the window and the output (43_window_output.md),
taking a fault (rule R272), the return from one, which is a new `START` (rules R276, R302), the reset input
(rule R300), and the end of a block (rule R135). -/

namespace Sys2Proof.Machine

/-! ### Window memory: written cells by address, strictly rising -/

/-- The byte written at an address, if one was. -/
def memLookup : List Host.Cell → Nat → Option Byte
  | [], _ => none
  | (a, v) :: m, b => if a = b then some v else memLookup m b

/-- Write a byte at an address. -/
def memWrite : List Host.Cell → Nat → Byte → List Host.Cell
  | [], b, w => [(b, w)]
  | (a, v) :: m, b, w =>
    if b < a then (b, w) :: (a, v) :: m
    else if a = b then (b, w) :: m
    else (a, v) :: memWrite m b w

/-- Every address is at least `lo` and below the capacity, and they strictly rise. -/
def memWfFrom : (lo : Nat) → List Host.Cell → Bool
  | _, [] => true
  | lo, (a, _) :: m => decide (lo ≤ a) && (decide (a < Config.wsize) && memWfFrom (a + 1) m)

/-- The canonical form of the window memory. An unlisted cell reads as a free value, so no entry can equal
what an unlisted address reads as. -/
def memWf (m : List Host.Cell) : Bool := memWfFrom 0 m

/-- `MemRead(WIN, addr, 1)`: the byte last written, or the free value of a cell this run has not written
(rule R18, log 1). -/
def State.winRead (s : State) (addr : Nat) : Byte :=
  (memLookup s.window addr).getD (Config.freeByte s.winDraw addr)

/-! ### Sliding Window / Output Sink -/

/-- `output(b)` (rule R121): four effects in one action. -/
def output (s : State) (b : Byte) : State :=
  { s with
    out := s.out ++ [b]
    window := memWrite s.window s.next.toNat b
    next := s.next + 1
    outcnt := s.outcnt + 1 }

/-- `(next - dist) mod 32768` (rules R8, R123), by the wrap-around of the 15-bit index. -/
def State.copyAddr (s : State) (dist : Nat) : Nat := (s.next - BitVec.ofNat 15 dist).toNat

/-- The loop of `copy`: byte by byte, the read address computed anew each time (rule R123). -/
def copyLoop (dist : Nat) : (n : Nat) → State → State
  | 0, s => s
  | n + 1, s => copyLoop dist n (output s (s.winRead (s.copyAddr dist)))

/-! ### Faults, start, reset -/

/-- Registers take the free values of the next draw, and the window holds unwritten cells only. Parameters, host
port, `input`, `phase`, `sub` and `fault_code` are not touched. -/
def unspecified (s : State) : State :=
  let u := Config.free s.draws
  { s with
    cur := u.cur
    window := []
    winDraw := s.draws
    next := u.next
    outcnt := u.outcnt
    out := u.out
    bfinal := u.bfinal
    btype := u.btype
    blk := u.blk
    draws := s.draws + 1 }

/-- `raise F()`, fault entry (rule R272): `fault_code` takes the fault's code, `phase` becomes FAULT, the run
ends. Everything else is unspecified from then on (rule R273, log 2). -/
def raiseFault (f : FaultCode) (s : State) : State :=
  { unspecified s with phase := .fault, sub := .entry, faultCode := f.code }

/-- The start of a run, taken in IDLE, DONE and FAULT (rule R302): the only way out of FAULT (rule R276). Nothing else
of an earlier run is carried over (rule R38): the window keeps unspecified contents, its cells take a new draw, and
`bfinal`, `btype`, the tables, the work arrays and the working registers are unspecified until written (rule R37, log
2). -/
def startRun (s : State) : State :=
  let u := Config.free s.draws
  { s with
    host := { s.host with start := false }
    input := s.host.data
    cur := { incnt := 0, bitbuf := 0, bitcnt := 0 }
    window := []
    winDraw := s.draws
    next := 0
    outcnt := 0
    out := []
    bfinal := u.bfinal
    btype := u.btype
    phase := .header
    sub := .entry
    faultCode := 0
    blk := u.blk
    draws := s.draws + 1 }

/-- The reset input, in any phase (rule R300): IDLE, `fault_code` 0, `outcnt` 0, `OUT` empty (rule R37), all
other registers unspecified. -/
def hardwareReset (s : State) : State :=
  { unspecified s with
    host := { s.host with reset := false }
    outcnt := 0
    out := []
    phase := .idle
    sub := .entry
    faultCode := 0 }

/-- The end of a block (rule R135): DONE after the final block, else the next header. The block's tables, work
arrays and working registers become unspecified (rules R23, R31, R32, log 2), and at the end of the run `bfinal`
and `btype` too (rules R22, R38); the Bit Cursor, the window, `next`, `outcnt` and `OUT` carry over (log 5). -/
def endBlock (s : State) : State :=
  let u := Config.free s.draws
  { s with
    bfinal := if s.bfinal = 1 then u.bfinal else s.bfinal
    btype := if s.bfinal = 1 then u.btype else s.btype
    phase := if s.bfinal = 1 then .done else .header
    sub := .entry
    blk := u.blk
    draws := s.draws + 1 }

/-- `copy(length, dist)` (rules R123, R124): with `CHECK_DIST` = 1 a distance beyond the bytes produced so far
raises `DistanceTooFar` before any byte is copied. -/
def copy (p : Params) (length dist : Nat) (s : State) : Host.Outcome State Fault Refusal :=
  if p.checkDist = true ∧ s.outcnt < dist then .next (raiseFault .distanceTooFar s)
  else .next (copyLoop dist length s)

end Sys2Proof.Machine
end

