-- ==== Sys2Proof/Machine/DistanceSym.lean ====
section
/-! DEFINITION. The distance symbols 0 to 29 (rules R231 to R260) and the unassigned fixed distance patterns
30, 31 (rules R261, R262). Each is one definition over the shared `distanceSymbol` of rules R194, R195. -/

namespace Sys2Proof.Machine

/-- A distance symbol: `dsym` takes the symbol, `dist` its base plus its extra value, and the match is
carried out: `copy(length, dist)` (rules R194, R195), with the block's own `CHECK_DIST` (rule R4). After it a
literal/length symbol comes next. -/
def distanceSymbol (s : State) (d e : Nat) : Host.Outcome State Fault Refusal :=
  copy s.params s.blk.length.toNat (distanceOf d e)
    { s with
      blk.dsym := BitVec.ofNat 5 d
      blk.dist := BitVec.ofNat 16 (distanceOf d e)
      sub := .symbol }

/-- An unassigned fixed distance pattern, its five bits consumed: ten further bits are read, none of the
lengths 6 to 15 has a symbol, and the run ends in `Undecodable`, or in `Truncated` if the input ends
before the fifteenth bit (rules R113, R261, R262). -/
def unassignedDistance (s : State) : Host.Outcome State Fault Refusal :=
  match bits s.input 10 s.cur with
  | .error _ => .next (raiseFault .truncated s)
  | .ok _ => .next (raiseFault .undecodable s)

/-- `DSYM 0` (rule R231). -/
def execDsym0 (s : State) : Host.Outcome State Fault Refusal := distanceSymbol s 0 0

/-- `DSYM 1` (rule R232). -/
def execDsym1 (s : State) : Host.Outcome State Fault Refusal := distanceSymbol s 1 0

/-- `DSYM 2` (rule R233). -/
def execDsym2 (s : State) : Host.Outcome State Fault Refusal := distanceSymbol s 2 0

/-- `DSYM 3` (rule R234). -/
def execDsym3 (s : State) : Host.Outcome State Fault Refusal := distanceSymbol s 3 0

/-- `DSYM 4` (rule R235). -/
def execDsym4 (e : BitVec 1) (s : State) : Host.Outcome State Fault Refusal := distanceSymbol s 4 e.toNat

/-- `DSYM 5` (rule R236). -/
def execDsym5 (e : BitVec 1) (s : State) : Host.Outcome State Fault Refusal := distanceSymbol s 5 e.toNat

/-- `DSYM 6` (rule R237). -/
def execDsym6 (e : BitVec 2) (s : State) : Host.Outcome State Fault Refusal := distanceSymbol s 6 e.toNat

/-- `DSYM 7` (rule R238). -/
def execDsym7 (e : BitVec 2) (s : State) : Host.Outcome State Fault Refusal := distanceSymbol s 7 e.toNat

/-- `DSYM 8` (rule R239). -/
def execDsym8 (e : BitVec 3) (s : State) : Host.Outcome State Fault Refusal := distanceSymbol s 8 e.toNat

/-- `DSYM 9` (rule R240). -/
def execDsym9 (e : BitVec 3) (s : State) : Host.Outcome State Fault Refusal := distanceSymbol s 9 e.toNat

/-- `DSYM 10` (rule R241). -/
def execDsym10 (e : BitVec 4) (s : State) : Host.Outcome State Fault Refusal := distanceSymbol s 10 e.toNat

/-- `DSYM 11` (rule R242). -/
def execDsym11 (e : BitVec 4) (s : State) : Host.Outcome State Fault Refusal := distanceSymbol s 11 e.toNat

/-- `DSYM 12` (rule R243). -/
def execDsym12 (e : BitVec 5) (s : State) : Host.Outcome State Fault Refusal := distanceSymbol s 12 e.toNat

/-- `DSYM 13` (rule R244). -/
def execDsym13 (e : BitVec 5) (s : State) : Host.Outcome State Fault Refusal := distanceSymbol s 13 e.toNat

/-- `DSYM 14` (rule R245). -/
def execDsym14 (e : BitVec 6) (s : State) : Host.Outcome State Fault Refusal := distanceSymbol s 14 e.toNat

/-- `DSYM 15` (rule R246). -/
def execDsym15 (e : BitVec 6) (s : State) : Host.Outcome State Fault Refusal := distanceSymbol s 15 e.toNat

/-- `DSYM 16` (rule R247). -/
def execDsym16 (e : BitVec 7) (s : State) : Host.Outcome State Fault Refusal := distanceSymbol s 16 e.toNat

/-- `DSYM 17` (rule R248). -/
def execDsym17 (e : BitVec 7) (s : State) : Host.Outcome State Fault Refusal := distanceSymbol s 17 e.toNat

/-- `DSYM 18` (rule R249). -/
def execDsym18 (e : BitVec 8) (s : State) : Host.Outcome State Fault Refusal := distanceSymbol s 18 e.toNat

/-- `DSYM 19` (rule R250). -/
def execDsym19 (e : BitVec 8) (s : State) : Host.Outcome State Fault Refusal := distanceSymbol s 19 e.toNat

/-- `DSYM 20` (rule R251). -/
def execDsym20 (e : BitVec 9) (s : State) : Host.Outcome State Fault Refusal := distanceSymbol s 20 e.toNat

/-- `DSYM 21` (rule R252). -/
def execDsym21 (e : BitVec 9) (s : State) : Host.Outcome State Fault Refusal := distanceSymbol s 21 e.toNat

/-- `DSYM 22` (rule R253). -/
def execDsym22 (e : BitVec 10) (s : State) : Host.Outcome State Fault Refusal := distanceSymbol s 22 e.toNat

/-- `DSYM 23` (rule R254). -/
def execDsym23 (e : BitVec 10) (s : State) : Host.Outcome State Fault Refusal := distanceSymbol s 23 e.toNat

/-- `DSYM 24` (rule R255). -/
def execDsym24 (e : BitVec 11) (s : State) : Host.Outcome State Fault Refusal := distanceSymbol s 24 e.toNat

/-- `DSYM 25` (rule R256). -/
def execDsym25 (e : BitVec 11) (s : State) : Host.Outcome State Fault Refusal := distanceSymbol s 25 e.toNat

/-- `DSYM 26` (rule R257). -/
def execDsym26 (e : BitVec 12) (s : State) : Host.Outcome State Fault Refusal := distanceSymbol s 26 e.toNat

/-- `DSYM 27` (rule R258). -/
def execDsym27 (e : BitVec 12) (s : State) : Host.Outcome State Fault Refusal := distanceSymbol s 27 e.toNat

/-- `DSYM 28` (rule R259). -/
def execDsym28 (e : BitVec 13) (s : State) : Host.Outcome State Fault Refusal := distanceSymbol s 28 e.toNat

/-- `DSYM 29` (rule R260). -/
def execDsym29 (e : BitVec 13) (s : State) : Host.Outcome State Fault Refusal := distanceSymbol s 29 e.toNat

/-- Fixed distance pattern `11110` (rule R261). -/
def execDist30 (s : State) : Host.Outcome State Fault Refusal := unassignedDistance s

/-- Fixed distance pattern `11111` (rule R262). -/
def execDist31 (s : State) : Host.Outcome State Fault Refusal := unassignedDistance s

end Sys2Proof.Machine
end

