-- ==== Sys2Proof/Machine/Dynamic.lean ====
section
/-! DEFINITION. The dynamic block's header elements (47_dynamic_block.md). -/

namespace Sys2Proof.Machine

/-- Build `lltab`, then `dtab`, over the given code lengths and go on with the symbol-emission loop; a negative
result raises `OverSubscribed`, zero and positive ones are accepted (rules R104, R173 to R175). -/
def buildTables (s : State) (ll d : List Nat) : Host.Outcome State Fault Refusal :=
  let b := construct s.blk.lltab s.blk.builder ll
  if overSubscribed b.result then .next (raiseFault .overSubscribed s)
  else
    let b' := construct s.blk.dtab b.regs d
    if overSubscribed b'.result then .next (raiseFault .overSubscribed s)
    else
      .next { s with
        blk.lltab := b.table
        blk.dtab := b'.table
        blk.builder := b'.regs
        sub := .symbol }

/-- `nlen + ndist`, the number of code lengths the block sends (rule R166). -/
def State.lensWanted (s : State) : Nat := s.blk.nlen.toNat + s.blk.ndist.toNat

/-- The decoded lengths from slot `i` on, `n` of them, as numbers. -/
def State.lensSlice (s : State) (i n : Nat) : List Nat := ((s.blk.lengths.toList.drop i).take n).map (·.toNat)

/-- `lengths` with `n` slots from `i` on set to `v`. -/
def setLengths (lengths : Vector (BitVec 4) 316) (i n : Nat) (v : BitVec 4) : Vector (BitVec 4) 316 :=
  overwrite (lengths.toList.take i ++ List.replicate n v) lengths

/-- `n` entries of `lengths` take the value `v` and `index` advances (rules R167, R172); when all `nlen +
ndist` are filled, the two final tables are built (rules R166, R173, R174). -/
def appendLengths (n : Nat) (v : BitVec 4) (s : State) : Host.Outcome State Fault Refusal :=
  let i := s.blk.index.toNat
  if 316 < i + n then .fault .storeBounds
  else
    let t : State := { s with
      blk.lengths := setLengths s.blk.lengths i n v
      blk.index := BitVec.ofNat 9 (i + n) }
    if i + n < s.lensWanted then .next t
    else buildTables t (t.lensSlice 0 t.blk.nlen.toNat) (t.lensSlice t.blk.nlen.toNat t.blk.ndist.toNat)

/-- A repeat of `rep` times the length `rlen`: past the last wanted length it raises `RepeatOverrun` before
any entry is written (rule R172). -/
def repeatLength (rep : Nat) (rlen : BitVec 4) (s : State) : Host.Outcome State Fault Refusal :=
  let t : State := { s with blk.rep := BitVec.ofNat 8 rep, blk.rlen := rlen }
  if s.lensWanted < s.blk.index.toNat + rep then .next (raiseFault .repeatOverrun t)
  else appendLengths rep rlen t

/-- `DYN_HEADER` (rules R161, R162). -/
def execDynHeader (hlit hdist : BitVec 5) (hclen : BitVec 4) (s : State) : Host.Outcome State Fault Refusal :=
  let t : State := { s with
    blk.nlen := BitVec.ofNat 9 (nlenOf hlit.toNat)
    blk.ndist := BitVec.ofNat 6 (ndistOf hdist.toNat)
    blk.ncode := BitVec.ofNat 5 (ncodeOf hclen.toNat) }
  if Config.maxLCodes < nlenOf hlit.toNat ∨ Config.maxDCodes < ndistOf hdist.toNat then
    .next (raiseFault .badCodeCount t)
  else .next { t with sub := .codeLens }

/-- `CLLENS` (rules R163 to R165): the lengths are placed, `cltab` is built, and the length loop begins at
`index` 0. -/
def execCllens (ls : List (BitVec 3)) (s : State) : Host.Outcome State Fault Refusal :=
  let cllen := placeCodeLens ls
  let b := construct s.blk.cltab s.blk.builder (cllen.toList.map (·.toNat))
  if overSubscribed b.result then .next (raiseFault .overSubscribed s)
  else
    .next { s with
      blk.cllen := cllen
      blk.cltab := b.table
      blk.builder := b.regs
      blk.index := 0
      sub := .codeSyms }

/-- `CL 0` to `CL 15` (rule R167). -/
def execCl0to15 (v : BitVec 4) (s : State) : Host.Outcome State Fault Refusal :=
  appendLengths 1 v { s with blk.sym := BitVec.ofNat 9 v.toNat }

/-- `CL 16` (rules R168, R169): with no previous length it raises `RepeatWithoutPrevious`. -/
def execCl16 (r : BitVec 2) (s : State) : Host.Outcome State Fault Refusal :=
  let t : State := { s with blk.sym := 16 }
  if s.blk.index = 0 then .next (raiseFault .repeatWithoutPrevious t)
  else
    match s.blk.lengths.toList[s.blk.index.toNat - 1]? with
    | none => .fault .storeBounds
    | some prev => repeatLength (repShort r.toNat) prev t

/-- `CL 17` (rule R170). -/
def execCl17 (r : BitVec 3) (s : State) : Host.Outcome State Fault Refusal :=
  repeatLength (repShort r.toNat) 0 { s with blk.sym := 17 }

/-- `CL 18` (rule R171). -/
def execCl18 (r : BitVec 7) (s : State) : Host.Outcome State Fault Refusal :=
  repeatLength (repLong r.toNat) 0 { s with blk.sym := 18 }

end Sys2Proof.Machine
end

