-- ==== Sys2Proof/Machine/Header.lean ====
section
/-! DEFINITION. The block header (44_stream_driver.md) and the fixed-table set-up that follows a fixed one
(46_fixed_block.md). -/

namespace Sys2Proof.Machine

/-- The header's two latches (rules R22, R131). -/
def latchHeader (s : State) (bfinal : BitVec 1) (btype : BitVec 2) : State :=
  { s with bfinal := bfinal, btype := btype }

/-- `BLOCK STORED` (rule R132). -/
def execBlockStored (bfinal : BitVec 1) (s : State) : Host.Outcome State Fault Refusal :=
  .next { latchHeader s bfinal 0 with phase := .stored, sub := .entry }

/-- `BLOCK FIXED` (rule R137) with the fixed-table set-up, which consumes no stream bit (rule R150): the two
tables take the contents rules R151 and R152 state, held as constants as rule R153 allows. -/
def execBlockFixed (bfinal : BitVec 1) (s : State) : Host.Outcome State Fault Refusal :=
  .next { latchHeader s bfinal 1 with
    phase := .fixed
    sub := .symbol
    blk.lltab := fixedLltab
    blk.dtab := fixedDtab }

/-- `BLOCK DYNAMIC` (rule R138). -/
def execBlockDynamic (bfinal : BitVec 1) (s : State) : Host.Outcome State Fault Refusal :=
  .next { latchHeader s bfinal 2 with phase := .dynamic, sub := .entry }

/-- Reserved block type (rule R133). -/
def execBlockReserved (bfinal : BitVec 1) (s : State) : Host.Outcome State Fault Refusal :=
  .next (raiseFault .invalidBlockType (latchHeader s bfinal 3))

end Sys2Proof.Machine
end

