-- ==== Sys2Proof/Machine/Literal.lean ====
section
/-! DEFINITION. The literals and the end of block (48_symbol_emission.md rules R191, R192). -/

namespace Sys2Proof.Machine

/-- A literal byte goes to the output (rule R191); a literal/length symbol comes next again. -/
def literal (b : Byte) (s : State) : Host.Outcome State Fault Refusal :=
  .next (output { s with blk.sym := BitVec.ofNat 9 b.toNat } b)

/-- `LIT` 0 to 143 (rule R191). -/
def execLit0to143 (b : Byte) (s : State) : Host.Outcome State Fault Refusal := literal b s

/-- `LIT` 144 to 255 (rule R191). -/
def execLit144to255 (b : Byte) (s : State) : Host.Outcome State Fault Refusal := literal b s

/-- `EOB` (rule R192). -/
def execEob (s : State) : Host.Outcome State Fault Refusal := .next (endBlock s)

end Sys2Proof.Machine
end

