-- ==== Sys2Proof/Machine/LengthSym.lean ====
section
/-! DEFINITION. The length symbols 257 to 285 (rules R200 to R228) and the reserved symbols 286, 287 (rules
R229, R230). Each is one definition over the shared `lengthSymbol` of rule R193. -/

namespace Sys2Proof.Machine

/-- A length symbol: `sym` takes the symbol, `length` its base plus its extra value; the distance symbol
comes next (rule R193). -/
def lengthSymbol (s : State) (sym e : Nat) : Host.Outcome State Fault Refusal :=
  .next { s with
    blk.sym := BitVec.ofNat 9 sym
    blk.length := BitVec.ofNat 9 (lengthOf sym e)
    sub := .distance }

/-- A literal/length symbol with no meaning: `InvalidLengthSymbol`, before any further bit is read. -/
def reservedSymbol (s : State) : Host.Outcome State Fault Refusal := .next (raiseFault .invalidLengthSymbol s)

/-- `LSYM 257` (rule R200). -/
def execLsym257 (s : State) : Host.Outcome State Fault Refusal := lengthSymbol s 257 0

/-- `LSYM 258` (rule R201). -/
def execLsym258 (s : State) : Host.Outcome State Fault Refusal := lengthSymbol s 258 0

/-- `LSYM 259` (rule R202). -/
def execLsym259 (s : State) : Host.Outcome State Fault Refusal := lengthSymbol s 259 0

/-- `LSYM 260` (rule R203). -/
def execLsym260 (s : State) : Host.Outcome State Fault Refusal := lengthSymbol s 260 0

/-- `LSYM 261` (rule R204). -/
def execLsym261 (s : State) : Host.Outcome State Fault Refusal := lengthSymbol s 261 0

/-- `LSYM 262` (rule R205). -/
def execLsym262 (s : State) : Host.Outcome State Fault Refusal := lengthSymbol s 262 0

/-- `LSYM 263` (rule R206). -/
def execLsym263 (s : State) : Host.Outcome State Fault Refusal := lengthSymbol s 263 0

/-- `LSYM 264` (rule R207). -/
def execLsym264 (s : State) : Host.Outcome State Fault Refusal := lengthSymbol s 264 0

/-- `LSYM 265` (rule R208). -/
def execLsym265 (e : BitVec 1) (s : State) : Host.Outcome State Fault Refusal := lengthSymbol s 265 e.toNat

/-- `LSYM 266` (rule R209). -/
def execLsym266 (e : BitVec 1) (s : State) : Host.Outcome State Fault Refusal := lengthSymbol s 266 e.toNat

/-- `LSYM 267` (rule R210). -/
def execLsym267 (e : BitVec 1) (s : State) : Host.Outcome State Fault Refusal := lengthSymbol s 267 e.toNat

/-- `LSYM 268` (rule R211). -/
def execLsym268 (e : BitVec 1) (s : State) : Host.Outcome State Fault Refusal := lengthSymbol s 268 e.toNat

/-- `LSYM 269` (rule R212). -/
def execLsym269 (e : BitVec 2) (s : State) : Host.Outcome State Fault Refusal := lengthSymbol s 269 e.toNat

/-- `LSYM 270` (rule R213). -/
def execLsym270 (e : BitVec 2) (s : State) : Host.Outcome State Fault Refusal := lengthSymbol s 270 e.toNat

/-- `LSYM 271` (rule R214). -/
def execLsym271 (e : BitVec 2) (s : State) : Host.Outcome State Fault Refusal := lengthSymbol s 271 e.toNat

/-- `LSYM 272` (rule R215). -/
def execLsym272 (e : BitVec 2) (s : State) : Host.Outcome State Fault Refusal := lengthSymbol s 272 e.toNat

/-- `LSYM 273` (rule R216). -/
def execLsym273 (e : BitVec 3) (s : State) : Host.Outcome State Fault Refusal := lengthSymbol s 273 e.toNat

/-- `LSYM 274` (rule R217). -/
def execLsym274 (e : BitVec 3) (s : State) : Host.Outcome State Fault Refusal := lengthSymbol s 274 e.toNat

/-- `LSYM 275` (rule R218). -/
def execLsym275 (e : BitVec 3) (s : State) : Host.Outcome State Fault Refusal := lengthSymbol s 275 e.toNat

/-- `LSYM 276` (rule R219). -/
def execLsym276 (e : BitVec 3) (s : State) : Host.Outcome State Fault Refusal := lengthSymbol s 276 e.toNat

/-- `LSYM 277` (rule R220). -/
def execLsym277 (e : BitVec 4) (s : State) : Host.Outcome State Fault Refusal := lengthSymbol s 277 e.toNat

/-- `LSYM 278` (rule R221). -/
def execLsym278 (e : BitVec 4) (s : State) : Host.Outcome State Fault Refusal := lengthSymbol s 278 e.toNat

/-- `LSYM 279` (rule R222). -/
def execLsym279 (e : BitVec 4) (s : State) : Host.Outcome State Fault Refusal := lengthSymbol s 279 e.toNat

/-- `LSYM 280` (rule R223). -/
def execLsym280 (e : BitVec 4) (s : State) : Host.Outcome State Fault Refusal := lengthSymbol s 280 e.toNat

/-- `LSYM 281` (rule R224). -/
def execLsym281 (e : BitVec 5) (s : State) : Host.Outcome State Fault Refusal := lengthSymbol s 281 e.toNat

/-- `LSYM 282` (rule R225). -/
def execLsym282 (e : BitVec 5) (s : State) : Host.Outcome State Fault Refusal := lengthSymbol s 282 e.toNat

/-- `LSYM 283` (rule R226). -/
def execLsym283 (e : BitVec 5) (s : State) : Host.Outcome State Fault Refusal := lengthSymbol s 283 e.toNat

/-- `LSYM 284` (rule R227). -/
def execLsym284 (e : BitVec 5) (s : State) : Host.Outcome State Fault Refusal := lengthSymbol s 284 e.toNat

/-- `LSYM 285` (rule R228). -/
def execLsym285 (s : State) : Host.Outcome State Fault Refusal := lengthSymbol s 285 0

/-- Literal/length symbol 286 (rule R229). -/
def execLl286 (s : State) : Host.Outcome State Fault Refusal := reservedSymbol s

/-- Literal/length symbol 287 (rule R230). -/
def execLl287 (s : State) : Host.Outcome State Fault Refusal := reservedSymbol s

end Sys2Proof.Machine
end

