-- ==== Sys2Proof/Machine/Stored.lean ====
section
/-! DEFINITION. The stored body (45_stored_block.md). -/

namespace Sys2Proof.Machine

/-- The data copy (rule R142): `n` bytes from `nextbyte` to `output`, then the end of the block (rule R144).
`scnt` counts the bytes still to copy. -/
def storedLoop : (n : Nat) → State → Host.Outcome State Fault Refusal
  | 0, s => .next (endBlock s)
  | n + 1, s =>
    if s.cur.bitcnt ≠ 0 then .refused .nextbyteUnaligned
    else
      match nextbyte s.input s.cur with
      | .error _ => .next (raiseFault .truncated s)
      | .ok (b, c) => storedLoop n (output { s with cur := c, blk.scnt := s.blk.scnt - 1 } b)

/-- The stored body once LEN and NLEN are read (rules R140 to R144): the complement check if it is enabled
(rule R143), then the data. -/
def storedBody (p : Params) (len nlen : BitVec 16) (s : State) : Host.Outcome State Fault Refusal :=
  let s1 : State := { s with blk.slen := len, blk.snlen := nlen }
  if p.checkNlen = true ∧ len ^^^ nlen ≠ 0xFFFF then .next (raiseFault .storedLengthMismatch s1)
  else storedLoop len.toNat { s1 with blk.scnt := len }

/-- `STORED_BODY` (rule R140), with the block's own `CHECK_NLEN` (rule R4). -/
def execStoredBody (len nlen : BitVec 16) (s : State) : Host.Outcome State Fault Refusal :=
  storedBody s.params len nlen s

end Sys2Proof.Machine
end

