-- ==== Sys2Proof/Machine/Dispatch.lean ====
section
/-! DEFINITION. exec: one arm per constructor of Instr, in the table's order. -/

namespace Sys2Proof.Machine

/-- What a decoded stream element does, from the state in which its bits have been consumed. -/
def exec (i : Instr) (s : State) : Host.Outcome State Fault Refusal :=
  match i with
  | .blockStored bfinal => Sys2Proof.Machine.execBlockStored bfinal s
  | .blockFixed bfinal => Sys2Proof.Machine.execBlockFixed bfinal s
  | .blockDynamic bfinal => Sys2Proof.Machine.execBlockDynamic bfinal s
  | .blockReserved bfinal => Sys2Proof.Machine.execBlockReserved bfinal s
  | .storedBody len nlen => Sys2Proof.Machine.execStoredBody len nlen s
  | .dynHeader hlit hdist hclen => Sys2Proof.Machine.execDynHeader hlit hdist hclen s
  | .cllens ls => Sys2Proof.Machine.execCllens ls s
  | .cl0to15 v => Sys2Proof.Machine.execCl0to15 v s
  | .cl16 r => Sys2Proof.Machine.execCl16 r s
  | .cl17 r => Sys2Proof.Machine.execCl17 r s
  | .cl18 r => Sys2Proof.Machine.execCl18 r s
  | .lit0to143 b => Sys2Proof.Machine.execLit0to143 b s
  | .lit144to255 b => Sys2Proof.Machine.execLit144to255 b s
  | .eob => Sys2Proof.Machine.execEob s
  | .lsym257 => Sys2Proof.Machine.execLsym257 s
  | .lsym258 => Sys2Proof.Machine.execLsym258 s
  | .lsym259 => Sys2Proof.Machine.execLsym259 s
  | .lsym260 => Sys2Proof.Machine.execLsym260 s
  | .lsym261 => Sys2Proof.Machine.execLsym261 s
  | .lsym262 => Sys2Proof.Machine.execLsym262 s
  | .lsym263 => Sys2Proof.Machine.execLsym263 s
  | .lsym264 => Sys2Proof.Machine.execLsym264 s
  | .lsym265 e => Sys2Proof.Machine.execLsym265 e s
  | .lsym266 e => Sys2Proof.Machine.execLsym266 e s
  | .lsym267 e => Sys2Proof.Machine.execLsym267 e s
  | .lsym268 e => Sys2Proof.Machine.execLsym268 e s
  | .lsym269 e => Sys2Proof.Machine.execLsym269 e s
  | .lsym270 e => Sys2Proof.Machine.execLsym270 e s
  | .lsym271 e => Sys2Proof.Machine.execLsym271 e s
  | .lsym272 e => Sys2Proof.Machine.execLsym272 e s
  | .lsym273 e => Sys2Proof.Machine.execLsym273 e s
  | .lsym274 e => Sys2Proof.Machine.execLsym274 e s
  | .lsym275 e => Sys2Proof.Machine.execLsym275 e s
  | .lsym276 e => Sys2Proof.Machine.execLsym276 e s
  | .lsym277 e => Sys2Proof.Machine.execLsym277 e s
  | .lsym278 e => Sys2Proof.Machine.execLsym278 e s
  | .lsym279 e => Sys2Proof.Machine.execLsym279 e s
  | .lsym280 e => Sys2Proof.Machine.execLsym280 e s
  | .lsym281 e => Sys2Proof.Machine.execLsym281 e s
  | .lsym282 e => Sys2Proof.Machine.execLsym282 e s
  | .lsym283 e => Sys2Proof.Machine.execLsym283 e s
  | .lsym284 e => Sys2Proof.Machine.execLsym284 e s
  | .lsym285 => Sys2Proof.Machine.execLsym285 s
  | .ll286 => Sys2Proof.Machine.execLl286 s
  | .ll287 => Sys2Proof.Machine.execLl287 s
  | .dsym0 => Sys2Proof.Machine.execDsym0 s
  | .dsym1 => Sys2Proof.Machine.execDsym1 s
  | .dsym2 => Sys2Proof.Machine.execDsym2 s
  | .dsym3 => Sys2Proof.Machine.execDsym3 s
  | .dsym4 e => Sys2Proof.Machine.execDsym4 e s
  | .dsym5 e => Sys2Proof.Machine.execDsym5 e s
  | .dsym6 e => Sys2Proof.Machine.execDsym6 e s
  | .dsym7 e => Sys2Proof.Machine.execDsym7 e s
  | .dsym8 e => Sys2Proof.Machine.execDsym8 e s
  | .dsym9 e => Sys2Proof.Machine.execDsym9 e s
  | .dsym10 e => Sys2Proof.Machine.execDsym10 e s
  | .dsym11 e => Sys2Proof.Machine.execDsym11 e s
  | .dsym12 e => Sys2Proof.Machine.execDsym12 e s
  | .dsym13 e => Sys2Proof.Machine.execDsym13 e s
  | .dsym14 e => Sys2Proof.Machine.execDsym14 e s
  | .dsym15 e => Sys2Proof.Machine.execDsym15 e s
  | .dsym16 e => Sys2Proof.Machine.execDsym16 e s
  | .dsym17 e => Sys2Proof.Machine.execDsym17 e s
  | .dsym18 e => Sys2Proof.Machine.execDsym18 e s
  | .dsym19 e => Sys2Proof.Machine.execDsym19 e s
  | .dsym20 e => Sys2Proof.Machine.execDsym20 e s
  | .dsym21 e => Sys2Proof.Machine.execDsym21 e s
  | .dsym22 e => Sys2Proof.Machine.execDsym22 e s
  | .dsym23 e => Sys2Proof.Machine.execDsym23 e s
  | .dsym24 e => Sys2Proof.Machine.execDsym24 e s
  | .dsym25 e => Sys2Proof.Machine.execDsym25 e s
  | .dsym26 e => Sys2Proof.Machine.execDsym26 e s
  | .dsym27 e => Sys2Proof.Machine.execDsym27 e s
  | .dsym28 e => Sys2Proof.Machine.execDsym28 e s
  | .dsym29 e => Sys2Proof.Machine.execDsym29 e s
  | .dist30 => Sys2Proof.Machine.execDist30 s
  | .dist31 => Sys2Proof.Machine.execDist31 s

end Sys2Proof.Machine
end

