-- ==== Sys2Proof/Machine/Fetch.lean ====
section
/-! DEFINITION. The fetch: which element the sequencer decodes next, the state once its bits are consumed, and
what happens when none can be decoded. -/

namespace Sys2Proof.Machine

/-- The decoder's context in a busy phase (rules R27, R130). -/
def State.context (s : State) : Option Context :=
  match s.phase with
  | .idle => none
  | .done => none
  | .fault => none
  | .header => some .header
  | .stored => some .storedBody
  | .fixed =>
    match s.sub with
    | .distance => some (.distance s.blk.dtab true)
    | .entry => some (.symbol s.blk.lltab)
    | .codeLens => some (.symbol s.blk.lltab)
    | .codeSyms => some (.symbol s.blk.lltab)
    | .symbol => some (.symbol s.blk.lltab)
  | .dynamic =>
    match s.sub with
    | .entry => some .counts
    | .codeLens => some (.codeLens s.blk.ncode.toNat)
    | .codeSyms => some (.codeSyms s.blk.cltab (s.blk.index == 0))
    | .symbol => some (.symbol s.blk.lltab)
    | .distance => some (.distance s.blk.dtab false)

/-- The state once an element's bits are consumed: the Bit Cursor past them, the decoder's registers as its
loop left them. -/
def State.consume (s : State) (f : Fetched) : State :=
  { s with cur := f.cur, blk.decoder := f.regs.getD s.blk.decoder }

/-- No element could be decoded: the fault the spec names is taken, or the model stops. -/
def rejected (r : Reject) (s : State) : Host.Outcome State Fault Refusal :=
  match r with
  | .truncated => .next (raiseFault .truncated s)
  | .undecodable => .next (raiseFault .undecodable s)
  | .invalidLength => .next (raiseFault .invalidLengthSymbol s)
  | .storeBounds => .fault .storeBounds
  | .noSuchSymbol => .fault .noSuchSymbol

/-- The phase and the place a slot of a fixed block stands for. -/
def Slot.phase : Slot → Phase
  | .header => .header
  | .storedBody => .stored
  | .counts => .dynamic
  | .symbol => .fixed
  | .distance => .fixed

/-- See `Slot.phase`. -/
def Slot.sub : Slot → Sub
  | .header => .entry
  | .storedBody => .entry
  | .counts => .entry
  | .symbol => .symbol
  | .distance => .distance

/-- The state in which the next step runs a table word: a run over its bytes, in the word's slot, with the
fixed tables built (log 11, log 12). -/
def placeWord (s : State) (slot : Slot) (bs : List Bool) : State :=
  { s with
    host := { s.host with start := false, reset := false }
    input := wordBytes bs
    cur := { incnt := 0, bitbuf := 0, bitcnt := 0 }
    phase := slot.phase
    sub := slot.sub
    blk.lltab := fixedLltab
    blk.dtab := fixedDtab }

end Sys2Proof.Machine
end

