-- ==== Sys2Proof/Machine/Step.lean ====
section
/-! DEFINITION. One step: the reset input, else an accepted `START`, else one stream element (rules R6, R130). -/

namespace Sys2Proof.Machine

/-- One stream element in a busy phase; in IDLE, DONE and FAULT the block does nothing (rule R287). -/
def stepElement (s : State) : Host.Outcome State Fault Refusal :=
  match s.context with
  | none => .next s
  | some ctx =>
    match decodeElement ctx s.input s.cur with
    | .error r => rejected r s
    | .ok f => exec f.instr (s.consume f)

/-- One step of the block. The reset input comes first (rule R300); `START` begins a run in IDLE, DONE and
FAULT and is ignored in a busy phase (rules R302, R304). -/
def step (s : State) : Host.Outcome State Fault Refusal :=
  if s.host.reset then .next (hardwareReset s)
  else if s.host.start then
    if s.busyFlag then stepElement { s with host.start := false }
    else .next (startRun s)
  else stepElement s

/-- `s` with the instruction of an opcode-table word placed so that the next step runs it (log 11, log 12). -/
def State.withFetchWord (s : State) (nbits w : Nat) : State :=
  match tableWord nbits w with
  | none => s
  | some (slot, bs) => placeWord s slot bs

end Sys2Proof.Machine
end

