-- ==== Sys2Proof/Safety.lean ====
section
/-! DEFINITION. The terms claims are stated in: the stream by positions, the result of a run, and the invariant of
a run, from which no step of the model stops. -/

namespace Sys2Proof.Machine

/-- Stream bit `k`: bit `k mod 8` of `IN[k div 8]` (rule R44); false beyond the input. -/
def streamBit (inp : List Byte) (k : Nat) : Bool := (inp.getD (k / 8) 0).getLsbD (k % 8)

/-- The `n` stream bits from position `p` on, in stream order. -/
def streamBits (inp : List Byte) (p n : Nat) : List Bool := (List.range n).map fun i => streamBit inp (p + i)

/-- The field of `n` bits at position `p`: the sum of stream bit `p + i` times `2^i` (rule R45). -/
def fieldAt (inp : List Byte) (p n : Nat) : Nat := bitsValue (streamBits inp p n)

/-- What a run has come to, and all that may be used of it (rule R273): the output once it is DONE, the fault
code once it has faulted, nothing before. -/
inductive RunResult where
  | pending
  | done (out : List Byte)
  | fault (code : BitVec 4)
deriving DecidableEq, Repr

/-- The result the host may read (rules R136, R273). -/
def State.result (s : State) : RunResult :=
  match s.phase with
  | .done => .done s.out
  | .fault => .fault s.faultCode
  | .idle => .pending
  | .header => .pending
  | .stored => .pending
  | .fixed => .pending
  | .dynamic => .pending

/-- The residual-buffer invariant (rules R11 to R14): the residual bits are the `bitcnt` most significant bits
of the last byte fetched. -/
def CursorInv (inp : List Byte) (c : Cursor) : Prop :=
  c.incnt ≤ inp.length ∧ (c.bitcnt = 0 → c.bitbuf = 0) ∧
    (c.bitcnt ≠ 0 → 1 ≤ c.incnt ∧ c.bitbuf.toNat = (inp.getD (c.incnt - 1) 0).toNat >>> (8 - c.bitcnt.toNat))

/-- The output invariant: `outcnt` counts `OUT` (rule R20), `next` is `outcnt` modulo 32768 (rule R17), and the
window holds the last `min(outcnt, 32768)` bytes of `OUT` (rule R122). -/
def OutputInv (s : State) : Prop :=
  s.out.length = s.outcnt ∧ s.next.toNat = s.outcnt % Config.wsize ∧
    ∀ k, 1 ≤ k → k ≤ s.outcnt → k ≤ Config.wsize → memLookup s.window (s.copyAddr k) = s.out[s.outcnt - k]?

/-- A table `construct` built with a result that is not negative, over lengths within the store and at most
15 (rules R104, R107). -/
def Usable {w cap : Nat} (t : Table w cap) : Prop :=
  ∃ (old : Table w cap) (b : BuilderRegs) (lens : List Nat), lens.length ≤ cap ∧ (∀ l ∈ lens, l ≤ 15) ∧
    0 ≤ (construct old b lens).result ∧ t = (construct old b lens).table

/-- The counts of a dynamic header that passed its check (rules R79, R162). -/
def CountsInv (b : BlockRegs) : Prop :=
  257 ≤ b.nlen.toNat ∧ b.nlen.toNat ≤ 286 ∧ 1 ≤ b.ndist.toNat ∧ b.ndist.toNat ≤ 30

/-- Both tables of the symbol-emission loop are built: in a fixed block they are the fixed ones (rule R153). -/
def TablesInv (s : State) : Prop :=
  Usable s.blk.lltab ∧ Usable s.blk.dtab ∧
    (s.phase = .fixed → s.blk.lltab = fixedLltab ∧ s.blk.dtab = fixedDtab)

/-- What holds at the sequencer's place inside a block (rule R27). -/
def PlaceInv (s : State) : Prop :=
  match s.phase, s.sub with
  | .idle, _ => True
  | .done, _ => True
  | .fault, _ => True
  | .header, _ => True
  | .stored, _ => True
  | .dynamic, .entry => True
  | .dynamic, .codeLens => CountsInv s.blk ∧ 4 ≤ s.blk.ncode.toNat ∧ s.blk.ncode.toNat ≤ 19
  | .dynamic, .codeSyms => CountsInv s.blk ∧ s.blk.index.toNat < s.lensWanted ∧ Usable s.blk.cltab
  | .dynamic, .symbol => TablesInv s
  | .dynamic, .distance => TablesInv s ∧ 3 ≤ s.blk.length.toNat ∧ s.blk.length.toNat ≤ 258
  | .fixed, .symbol => TablesInv s
  | .fixed, .distance => TablesInv s ∧ 3 ≤ s.blk.length.toNat ∧ s.blk.length.toNat ≤ 258
  | .fixed, .entry => False
  | .fixed, .codeLens => False
  | .fixed, .codeSyms => False

/-- The run invariant. The cursor and the output are meaningful in a run and after DONE, not before the first
run and not after a fault (rules R37, R273); `fault_code` is 0 unless the phase is FAULT, and there it is one
of 1 to 10 (rule R24). -/
def RunInv (s : State) : Prop :=
  memWf s.window = true ∧
    (s.phase ≠ .fault → s.faultCode = 0) ∧
    (s.phase = .fault → 1 ≤ s.faultCode.toNat ∧ s.faultCode.toNat ≤ 10) ∧
    (s.phase ≠ .idle → s.phase ≠ .fault → CursorInv s.input s.cur ∧ OutputInv s) ∧
    PlaceInv s

end Sys2Proof.Machine
end

