-- ==== Sys2Proof/Certificates/Slice0/Obligations.lean ====
section
/-! DEFINITION. The statements about the model, one def per obligation, and the few terms they are written in. Each
docstring names the rule of the spec the statement formalises; a clause that rests on a choice of the model says
so and names the log entry. -/

namespace Sys2Proof.Claims

open Sys2Proof.Machine

/-- `count` after the two tally loops of rule R101. -/
def tally (lens : List Nat) : List Nat :=
  lens.foldl (fun count l => count.set l (count.getD l 0 + 1)) (List.replicate 16 0)

/-- `offs` after the prefix-sum loop of rule R101 (index 0 is not used). -/
def startOffs (count : List Nat) : List Nat :=
  (List.range' 1 14).foldl (fun offs l => offs.set (l + 1) (offs.getD l 0 + count.getD l 0)) (List.replicate 16 0)

/-- `offs` and `symbol` after the placement loop of rule R101, from the `symbol` the store held. -/
def placed (lens symbol : List Nat) : List Nat × List Nat :=
  lens.zipIdx.foldl
    (fun p x => if x.1 ≠ 0 then (p.1.set x.1 (p.1.getD x.1 0 + 1), p.2.set (p.1.getD x.1 0) x.2) else p)
    (startOffs (tally lens), symbol)

/-- The code space the lengths use, in codewords of 15 bits (rule R103). -/
def spaceUsed (lens : List Nat) : Nat := ((List.range' 1 15).map fun l => lenCount lens l * 2 ^ (15 - l)).sum

/-- What every caller of `construct` meets (rule R107), for a store of `cap` entries of `w` bits. -/
def Lengths (w cap : Nat) (lens : List Nat) : Prop :=
  lens.length ≤ cap ∧ cap < 2 ^ w ∧ w ≤ 9 ∧ ∀ l ∈ lens, l ≤ 15

/-- The stream bits from `p` on are the codeword of symbol `s`, of `l` bits, all of them in the input. -/
def CodewordAt (lens : List Nat) (inp : List Byte) (p s l : Nat) : Prop :=
  ∃ v, codewordOf lens s = some (l, v) ∧ p + l ≤ 8 * inp.length ∧ streamBits inp p l = msbBits l v

/-- The cursor at a position of the input that satisfies the residual-buffer invariant. -/
def CursorAt (inp : List Byte) (c : Cursor) (p : Nat) : Prop := CursorInv inp c ∧ c.pos = p

/-- A length symbol's row: its fixed codeword and extra bits, its code in any block, and its effect. -/
def LengthRow (i : Instr) (sym : Nat) (code : List Bool) (nx e base : Nat) : Prop :=
  encode fixedCodes i = some (code ++ lsbBits nx e) ∧
    (∀ cs, encode cs i = (codewordBits cs.ll sym).map (· ++ lsbBits nx e)) ∧
    ∀ s, exec i s = .next { s with
      blk.sym := BitVec.ofNat 9 sym
      blk.length := BitVec.ofNat 9 (base + e)
      sub := .distance }

/-- A distance symbol's row: its fixed codeword and extra bits, its code in any block, its effect when the
distance is within the bytes produced or `CHECK_DIST` is 0, and its fault when it is not and `CHECK_DIST` is 1. -/
def DistanceRow (i : Instr) (d : Nat) (code : List Bool) (nx e base : Nat) : Prop :=
  encode fixedCodes i = some (code ++ lsbBits nx e) ∧
    (∀ cs, encode cs i = (codewordBits cs.d d).map (· ++ lsbBits nx e)) ∧
    (∀ s, (s.params.checkDist = true → base + e ≤ s.outcnt) →
      exec i s = .next (copyLoop (base + e) s.blk.length.toNat { s with
        blk.dsym := BitVec.ofNat 5 d
        blk.dist := BitVec.ofNat 16 (base + e)
        sub := .symbol })) ∧
    ∀ s, s.params.checkDist = true → s.outcnt < base + e → exec i s = .next (raiseFault .distanceTooFar s)

/-- The length symbols 257 to 285. -/
def isLengthSym : Instr → Bool
  | .lsym257 => true
  | .lsym258 => true
  | .lsym259 => true
  | .lsym260 => true
  | .lsym261 => true
  | .lsym262 => true
  | .lsym263 => true
  | .lsym264 => true
  | .lsym265 _ => true
  | .lsym266 _ => true
  | .lsym267 _ => true
  | .lsym268 _ => true
  | .lsym269 _ => true
  | .lsym270 _ => true
  | .lsym271 _ => true
  | .lsym272 _ => true
  | .lsym273 _ => true
  | .lsym274 _ => true
  | .lsym275 _ => true
  | .lsym276 _ => true
  | .lsym277 _ => true
  | .lsym278 _ => true
  | .lsym279 _ => true
  | .lsym280 _ => true
  | .lsym281 _ => true
  | .lsym282 _ => true
  | .lsym283 _ => true
  | .lsym284 _ => true
  | .lsym285 => true
  | _ => false

/-- The distance symbols 0 to 29. -/
def isDistanceSym : Instr → Bool
  | .dsym0 => true
  | .dsym1 => true
  | .dsym2 => true
  | .dsym3 => true
  | .dsym4 _ => true
  | .dsym5 _ => true
  | .dsym6 _ => true
  | .dsym7 _ => true
  | .dsym8 _ => true
  | .dsym9 _ => true
  | .dsym10 _ => true
  | .dsym11 _ => true
  | .dsym12 _ => true
  | .dsym13 _ => true
  | .dsym14 _ => true
  | .dsym15 _ => true
  | .dsym16 _ => true
  | .dsym17 _ => true
  | .dsym18 _ => true
  | .dsym19 _ => true
  | .dsym20 _ => true
  | .dsym21 _ => true
  | .dsym22 _ => true
  | .dsym23 _ => true
  | .dsym24 _ => true
  | .dsym25 _ => true
  | .dsym26 _ => true
  | .dsym27 _ => true
  | .dsym28 _ => true
  | .dsym29 _ => true
  | _ => false

/-- The cells of the window that `n` outputs from `s` on store to: `next`, `next + 1`, ... modulo 32768. -/
def Stored (s : State) (n a : Nat) : Prop := ∃ j, j < n ∧ a = (s.next + BitVec.ofNat 15 j).toNat

/-- The transitions of rule R134's table, for a step without reset and without an accepted `START`; an element
inside a Huffman block leaves the phase. -/
def Transition (s t : State) : Prop :=
  match s.phase with
  | .idle => t = s
  | .done => t = s
  | .fault => t = s
  | .header => t.phase = .stored ∨ t.phase = .fixed ∨ t.phase = .dynamic ∨ t.phase = .fault
  | .stored => (s.bfinal = 0 ∧ t.phase = .header) ∨ (s.bfinal = 1 ∧ t.phase = .done) ∨ t.phase = .fault
  | .fixed =>
    t.phase = .fixed ∨ (s.bfinal = 0 ∧ t.phase = .header) ∨ (s.bfinal = 1 ∧ t.phase = .done) ∨ t.phase = .fault
  | .dynamic =>
    t.phase = .dynamic ∨ (s.bfinal = 0 ∧ t.phase = .header) ∨ (s.bfinal = 1 ∧ t.phase = .done) ∨ t.phase = .fault

/-- The context an instruction is decoded in, in a block with the codes `cs` whose tables were built over the
stores `b`; `first` for a code-length symbol: it is the block's first one. -/
def contextOf (cs : Codes) (b : BlockRegs) (first : Bool) : Instr → Context
  | .blockStored _ => .header
  | .blockFixed _ => .header
  | .blockDynamic _ => .header
  | .blockReserved _ => .header
  | .storedBody _ _ => .storedBody
  | .dynHeader _ _ _ => .counts
  | .cllens ls => .codeLens ls.length
  | .cl0to15 _ => .codeSyms (construct b.cltab b.builder cs.cl).table first
  | .cl16 _ => .codeSyms (construct b.cltab b.builder cs.cl).table first
  | .cl17 _ => .codeSyms (construct b.cltab b.builder cs.cl).table first
  | .cl18 _ => .codeSyms (construct b.cltab b.builder cs.cl).table first
  | i => if isDistanceSym i then .distance (construct b.dtab b.builder cs.d).table false
         else .symbol (construct b.lltab b.builder cs.ll).table

/-- The codes of a block: each accepted by the builder over its store. -/
def LegalCodes (cs : Codes) (b : BlockRegs) : Prop :=
  Lengths 5 19 cs.cl ∧ 0 ≤ (construct b.cltab b.builder cs.cl).result ∧
    Lengths 9 288 cs.ll ∧ 0 ≤ (construct b.lltab b.builder cs.ll).result ∧
    Lengths 5 30 cs.d ∧ 0 ≤ (construct b.dtab b.builder cs.d).result

/-- The sequencer's places, each with what the element there is decoded as (rules R27, R130): `phase`, sub-phase and
the context the spec's rules ask for. -/
def ContextAt (s : State) (phase : Phase) (sub : Sub) (ctx : Option Context) : Prop :=
  s.phase = phase → s.sub = sub → s.context = ctx

/-- The extra bits after a code-length symbol's codeword (rules R167 to R171; a first symbol 16 faults before them). -/
def codeExtra (first : Bool) (s : Nat) : Nat :=
  if s = 16 then (if first then 0 else 2) else if s = 17 then 3 else if s = 18 then 7 else 0

/-- The extra bits after a literal/length symbol's codeword (rules R200 to R228). -/
def lengthExtra (s : Nat) : Nat :=
  if s < 265 then 0 else if s < 269 then 1 else if s < 273 then 2 else if s < 277 then 3 else if s < 281 then 4
  else if s < 285 then 5 else 0

/-- The extra bits after a distance symbol's codeword (rules R231 to R260). -/
def distanceExtra (d : Nat) : Nat := if d < 4 then 0 else d / 2 - 1

/-- Why a symbol with extra bits cannot be read at `p`: no codeword stands there, or one does and its extra bits are
not all in the input. -/
def RejectedAt (lens : List Nat) (extra : Nat → Nat) (inp : List Byte) (p : Nat) (r : Reject) : Prop :=
  ((∀ s l, ¬ CodewordAt lens inp p s l) ∧ r = if 8 * inp.length < p + 15 then .truncated else .undecodable) ∨
    ∃ s l, CodewordAt lens inp p s l ∧ 8 * inp.length < p + l + extra s ∧ r = .truncated

/-- The elements of a fixed block and of the block headers, with the context of each. -/
def fixedContext : Instr → Option Context
  | .blockStored _ => some .header
  | .blockFixed _ => some .header
  | .blockDynamic _ => some .header
  | .blockReserved _ => some .header
  | .storedBody _ _ => none
  | .dynHeader _ _ _ => none
  | .cllens _ => none
  | .cl0to15 _ => none
  | .cl16 _ => none
  | .cl17 _ => none
  | .cl18 _ => none
  | .dist30 => some (.distance fixedDtab true)
  | .dist31 => some (.distance fixedDtab true)
  | i => if isDistanceSym i then some (.distance fixedDtab true) else some (.symbol fixedLltab)

end Sys2Proof.Claims

open Sys2Proof Sys2Proof.Machine Sys2Proof.Claims

/-! ### The Bit Cursor -/

/-- Rule R45: `bits(n)` at position `P` returns the sum of stream bit `P + i` times `2^i` and moves `P` by `n`; a
16-bit field at a byte boundary has its low byte first. -/
def Obligations.BitsReturnsTheFieldAtThePosition : Prop :=
  (∀ (inp : List Byte) (n : Fin 17) (c : Cursor), CursorInv inp c → c.pos + n.val ≤ 8 * inp.length →
    ∃ c', bits inp n c = .ok (fieldAt inp c.pos n.val, c') ∧ CursorAt inp c' (c.pos + n.val)) ∧
  ∀ (inp : List Byte) (p : Nat), p % 8 = 0 → p + 16 ≤ 8 * inp.length →
    fieldAt inp p 16 = (inp.getD (p / 8) 0).toNat + 256 * (inp.getD (p / 8 + 1) 0).toNat

/-- Rule R91: `bits(n)` is `Truncated` if and only if `P + n > 8 * IN_LEN`, and has no other fault; `nextbyte` is so
exactly when `incnt = IN_LEN`. The stream-terms form is the spec's own derivation. -/
def Obligations.TruncatedExactlyPastTheInput : Prop :=
  ∀ (inp : List Byte) (c : Cursor), CursorInv inp c →
    (∀ n : Fin 17, (bits inp n c = .error .truncated ↔ 8 * inp.length < c.pos + n.val) ∧
      ∀ r, bits inp n c = .error r → r = .truncated) ∧
    (nextbyte inp c = .error .truncated ↔ c.incnt = inp.length)

/-- Rule R94: `bits(0)` returns 0, changes nothing and never faults, whatever the cursor and the input (the spec's
derivation from rule R90). -/
def Obligations.ZeroWidthFieldReadsNothing : Prop :=
  ∀ (inp : List Byte) (c : Cursor), bits inp 0 c = .ok (0, c)

/-- Rule R92: `align` empties the residual buffer, fetches nothing, and moves `P` to the next multiple of 8 at or
after it. -/
def Obligations.AlignMovesToTheNextByteBoundary : Prop :=
  ∀ (inp : List Byte) (c : Cursor), CursorInv inp c →
    (align c).bitbuf = 0 ∧ (align c).bitcnt = 0 ∧ (align c).incnt = c.incnt ∧
      CursorAt inp (align c) (8 * c.incnt) ∧ 8 * c.incnt = 8 * ((c.pos + 7) / 8)

/-- Rule R93: with an empty residual buffer `nextbyte` returns `IN[incnt]`, moves `incnt` by one and `P` by 8,
leaves the residual buffer alone, and is `bits(8)`. -/
def Obligations.NextbyteIsAnAlignedByte : Prop :=
  ∀ (inp : List Byte) (c : Cursor), CursorInv inp c → c.bitcnt = 0 →
    (c.incnt < inp.length →
      nextbyte inp c = .ok (inp.getD c.incnt 0, { c with incnt := c.incnt + 1 }) ∧
        CursorAt inp { c with incnt := c.incnt + 1 } (c.pos + 8)) ∧
    bits inp 8 c = (nextbyte inp c).map fun p => (p.1.toNat, p.2)

/-! ### The table builder -/

/-- Rule R101: the model's `construct`, written by rules R102 and R105, leaves what the loops of rule R101 leave: the
tally, the result, the offsets and the placed symbols; `symbol` is untouched in the empty and the
over-subscribed case. -/
def Obligations.ConstructIsTheLoopsOfTheRule : Prop :=
  ∀ (w cap : Nat) (t : Table w cap) (b : BuilderRegs) (lens : List Nat), Lengths w cap lens →
    let r := construct t b lens
    r.table.count.toList.map (·.toNat) = tally lens ∧
      ((tally lens).getD 0 0 = lens.length → r.result = 0 ∧ r.table.symbol = t.symbol) ∧
      ((tally lens).getD 0 0 ≠ lens.length →
        r.result = residual lens ∧ r.regs.left.toInt = residual lens ∧
          (residual lens < 0 → r.table.symbol = t.symbol) ∧
          (0 ≤ residual lens →
            r.table.symbol.toList.map (·.toNat) = (placed lens (t.symbol.toList.map (·.toNat))).2 ∧
              r.regs.offs.toList.map (·.toNat) = (placed lens (t.symbol.toList.map (·.toNat))).1.drop 1))

/-- Rule R106: over lengths that are all 0 the result is 0, every count from 1 to 15 is 0, `symbol` is untouched, and
a `decode` on the table ends in `Undecodable` or `Truncated`: in the latter when fewer than 15 bits are left (rule
R113, the spec's decision D20). -/
def Obligations.EmptyCodeIsAcceptedAndDecodesNothing : Prop :=
  ∀ (w cap : Nat) (t : Table w cap) (b : BuilderRegs) (n : Nat), n ≤ cap → cap < 2 ^ w →
    let r := construct t b (List.replicate n 0)
    r.result = 0 ∧ r.table.symbol = t.symbol ∧ (∀ l, 1 ≤ l → l ≤ 15 → r.table.countAt l = 0) ∧
      ∀ (inp : List Byte) (c : Cursor), CursorInv inp c →
        decodeSym r.table inp c = .error (if 8 * inp.length < c.pos + 15 then .truncated else .undecodable)

/-- Rule R103: the walk's value is `2^15` less the code space used when that is not negative; it is negative exactly
when the space used exceeds `2^15`, and never below `-n`. -/
def Obligations.ResidualIsTheUnusedCodeSpace : Prop :=
  ∀ lens : List Nat,
    (residual lens < 0 ↔ 32768 < spaceUsed lens) ∧
      (0 ≤ residual lens → residual lens = 32768 - (spaceUsed lens : Int)) ∧ -(lens.length : Int) ≤ residual lens

/-- Rules R151, R152: over any store `construct` makes of `FIXLL` the complete table the model holds as a constant, with
result 0, and of `FIXD` the incomplete one, with result 2048. -/
def Obligations.FixedTablesAreWhatConstructBuilds : Prop :=
  (∀ (t : Table 9 288) (b : BuilderRegs),
    (construct t b fixll).result = 0 ∧ (construct t b fixll).table = fixedLltab) ∧
  ∀ (t : Table 5 30) (b : BuilderRegs),
    (construct t b fixd).result = 2048 ∧ (construct t b fixd).table = fixedDtab

/-! ### The symbol decoder -/

/-- Rule R114: `decode` returns `s` and consumes `l` bits if and only if the next `l` stream bits are the codeword of
`s`, for every table the builder accepts (the spec's derivation from rules R111 and R112). -/
def Obligations.DecodeReadsExactlyTheCodewords : Prop :=
  ∀ (w cap : Nat) (t : Table w cap) (b : BuilderRegs) (lens : List Nat) (inp : List Byte) (c : Cursor),
    Lengths w cap lens → 0 ≤ (construct t b lens).result → CursorInv inp c →
      ∀ (s : Nat) (c' : Cursor),
        (∃ regs, decodeSym (construct t b lens).table inp c = .ok { sym := s, cur := c', regs := regs }) ↔
          ∃ l, CodewordAt lens inp c.pos s l ∧ CursorAt inp c' (c.pos + l)

/-- Rules R112, R113: `decode` fails only when the stream starts with no codeword: with `Undecodable` if 15 bits are
there, else with `Truncated` (the spec's decision D20); it never reads outside `symbol`. -/
def Obligations.DecodeFailsOnlyWithoutACodeword : Prop :=
  ∀ (w cap : Nat) (t : Table w cap) (b : BuilderRegs) (lens : List Nat) (inp : List Byte) (c : Cursor),
    Lengths w cap lens → 0 ≤ (construct t b lens).result → CursorInv inp c →
      ∀ r, decodeSym (construct t b lens).table inp c = .error r ↔
        (∀ s l, ¬ CodewordAt lens inp c.pos s l) ∧
          r = if 8 * inp.length < c.pos + 15 then .truncated else .undecodable

/-- Rules R70, R71: the codewords of the fixed code (the spec's derivation from rule R69). -/
def Obligations.FixedCodewordsAreTheBands : Prop :=
  (∀ s, codewordOf fixll s =
    if s < 144 then some (8, 48 + s) else if s < 256 then some (9, 400 + (s - 144))
    else if s < 280 then some (7, s - 256) else if s < 288 then some (8, 192 + (s - 280)) else none) ∧
  ∀ d, codewordOf fixd d = if d < 30 then some (5, d) else none

/-! ### The window and the output -/

/-- Rule R121: `output` appends to `OUT`, writes the cell `next`, moves `next` by one modulo 32768 and counts the byte;
every other cell and register is as before. -/
def Obligations.OutputIsOneAction : Prop :=
  ∀ (s : State) (b : Byte),
    (output s b).out = s.out ++ [b] ∧ (output s b).next.toNat = (s.next.toNat + 1) % 32768 ∧
      (output s b).outcnt = s.outcnt + 1 ∧
      (∀ a, memLookup (output s b).window a = if a = s.next.toNat then some b else memLookup s.window a) ∧
      output s b = { s with
        out := (output s b).out, next := (output s b).next, outcnt := (output s b).outcnt,
        window := (output s b).window }

/-- Rule R125, the spec's derivation: a copy within the bytes produced appends `n` bytes, each equal to the one `dist`
before it, those this copy produced included, and keeps the output invariant (rules R17, R122). -/
def Obligations.CopyRepeatsTheOutput : Prop :=
  ∀ (p : Params) (s : State) (n dist : Nat), OutputInv s → 1 ≤ dist → dist ≤ 32768 → dist ≤ s.outcnt →
    ∃ t, copy p n dist s = .next t ∧ t.outcnt = s.outcnt + n ∧ OutputInv t ∧
      t.out.take s.outcnt = s.out ∧
      ∀ j, s.outcnt ≤ j → j < s.outcnt + n → t.out[j]? = t.out[j - dist]?

/-- Rule R124, for either value of `CHECK_DIST`: with the check a distance beyond the bytes produced faults before any
byte is copied, and without it there is no test. That this hardware has the check is the spec's decision D5. -/
def Obligations.DistanceIsCheckedBeforeCopying : Prop :=
  ∀ (p : Params) (n dist : Nat) (s : State),
    (p.checkDist = true → s.outcnt < dist → copy p n dist s = .next (raiseFault .distanceTooFar s)) ∧
      (p.checkDist = true → dist ≤ s.outcnt → copy p n dist s = .next (copyLoop dist n s)) ∧
      (p.checkDist = false → copy p n dist s = .next (copyLoop dist n s))

/-- Rule R18, the spec's derivation: with the distance check no cell is read that the run has not written: the byte read
is the one produced `dist` before. -/
def Obligations.NoUnwrittenCellIsRead : Prop :=
  ∀ (s : State) (dist : Nat), OutputInv s → 1 ≤ dist → dist ≤ 32768 → dist ≤ s.outcnt →
    memLookup s.window (s.copyAddr dist) = some (s.winRead (s.copyAddr dist)) ∧
      s.out[s.outcnt - dist]? = some (s.winRead (s.copyAddr dist))

/-! ### The stream driver -/

/-- Rules R131 to R133, R137, R138: each header latches BFINAL and BTYPE and enters its phase, in every state; a fixed
one has its tables set up with the contents of rules R151 and R152 (the spec's derivation; that they are constants and
the builder's registers stay as they were is log 8); the reserved one faults. -/
def Obligations.HeadersEnterTheirPhase : Prop :=
  ∀ (f : BitVec 1) (s : State),
    exec (.blockStored f) s = .next { s with bfinal := f, btype := 0, phase := .stored, sub := .entry } ∧
      exec (.blockFixed f) s = .next { s with
        bfinal := f, btype := 1, phase := .fixed, sub := .symbol, blk.lltab := fixedLltab, blk.dtab := fixedDtab } ∧
      exec (.blockDynamic f) s = .next { s with bfinal := f, btype := 2, phase := .dynamic, sub := .entry } ∧
      exec (.blockReserved f) s = .next (raiseFault .invalidBlockType s)

/-- Rules R61, R62, R131: the header is BFINAL, then two bits of BTYPE, low bit first, and is `Truncated` when the three
bits are not all there. -/
def Obligations.HeaderBitsSelectTheBlock : Prop :=
  ∀ (inp : List Byte) (c : Cursor), CursorInv inp c →
    (c.pos + 3 ≤ 8 * inp.length →
      ∃ c', decodeElement .header inp c =
          .ok { instr := headerInstr (fieldAt inp c.pos 1) (fieldAt inp (c.pos + 1) 2), cur := c', regs := none } ∧
        CursorAt inp c' (c.pos + 3)) ∧
    (8 * inp.length < c.pos + 3 → decodeElement .header inp c = .error .truncated)

/-- Rules R135, R192: symbol 256 ends the block: DONE after the final one, else the next header; the Bit Cursor, the
window, `next`, `outcnt` and `OUT` carry over (also to DONE: the model's choice, log 5); `bfinal` and `btype` do unless
the run has ended (rule R38). -/
def Obligations.EndOfBlockCarriesTheRunOver : Prop :=
  ∀ s : State, ∃ t, exec .eob s = .next t ∧
    (s.bfinal = 1 → t.phase = .done) ∧
    (s.bfinal = 0 → t.phase = .header ∧ t.bfinal = s.bfinal ∧ t.btype = s.btype) ∧ t.sub = .entry ∧
    t = { s with
      phase := t.phase, sub := t.sub, bfinal := t.bfinal, btype := t.btype, blk := t.blk, draws := t.draws }

/-- Rule R134: a step changes `phase` only as the table of transitions says; from a busy phase it goes to DONE only
after a final block and to HEADER only after one that is not final. IDLE and FAULT are the spec's decision D3. -/
def Obligations.PhasesMoveAsTheTableSays : Prop :=
  ∀ s t : State, step s = .next t →
    (s.host.reset = true → t.phase = .idle) ∧
      (s.host.reset = false → s.host.start = true → s.busyFlag = false → t.phase = .header) ∧
      (s.host.reset = false → s.host.start = false ∨ s.busyFlag = true → Transition s t)

/-- Rules R304, R287, R276: `START` in a busy phase is ignored; without `START` and reset the block does nothing in IDLE,
DONE and FAULT. The first is the spec's decision D30. -/
def Obligations.StartIsIgnoredWhileBusyAndNeededOtherwise : Prop :=
  ∀ s : State, s.host.reset = false →
    (s.busyFlag = true → step { s with host.start := true } = step { s with host.start := false }) ∧
      (s.busyFlag = false → s.host.start = false → step s = .next s)

/-- Rule R302: an accepted `START` sets the Decoder State, latches the input (its bytes and not its length alone: log
6) and enters HEADER. No cell of the window counts as written (log 1), and `bfinal`, `btype` and the block's registers
may hold anything (rules R37, R38, log 2); nothing else changes. -/
def Obligations.StartBeginsAFreshRun : Prop :=
  ∀ s : State, s.host.reset = false → s.host.start = true → s.busyFlag = false →
    ∃ t, step s = .next t ∧ (∀ a, memLookup t.window a = none) ∧
      t = { s with
        cur := { incnt := 0, bitbuf := 0, bitcnt := 0 }, next := 0, outcnt := 0, out := [], faultCode := 0
        phase := .header, input := s.host.data, host.start := false
        window := t.window, bfinal := t.bfinal, btype := t.btype, blk := t.blk
        sub := t.sub, winDraw := t.winDraw, draws := t.draws }

/-- Rules R37, R300: the reset input leads from any state to IDLE with `fault_code` 0, `outcnt` 0 and `OUT` empty, and
those are the values State.reset has (the spec's decision D15). -/
def Obligations.ResetLeadsToIdle : Prop :=
  (∀ s : State, s.host.reset = true →
    ∃ t, step s = .next t ∧ t.phase = .idle ∧ t.faultCode = 0 ∧ t.outcnt = 0 ∧ t.out = []) ∧
  State.reset.phase = .idle ∧ State.reset.faultCode = 0 ∧ State.reset.outcnt = 0 ∧ State.reset.out = [] ∧
    State.reset.busyFlag = false ∧ State.reset.doneFlag = false ∧ State.reset.faultFlag = false

/-- Rules R270, R272, R273: a fault sets `fault_code` to the kind's code and `phase` to FAULT, and the code is all the
host may use. The numbers are the spec's decision D4. -/
def Obligations.FaultEntrySetsCodeAndPhase : Prop :=
  (∀ (f : FaultCode) (s : State), (raiseFault f s).phase = .fault ∧ (raiseFault f s).faultCode = f.code ∧
    (raiseFault f s).result = .fault f.code) ∧
  FaultCode.truncated.code = 1 ∧ FaultCode.overSubscribed.code = 2 ∧ FaultCode.undecodable.code = 3 ∧
    FaultCode.invalidBlockType.code = 4 ∧ FaultCode.badCodeCount.code = 5 ∧
    FaultCode.repeatWithoutPrevious.code = 6 ∧ FaultCode.repeatOverrun.code = 7 ∧
    FaultCode.invalidLengthSymbol.code = 8 ∧ FaultCode.distanceTooFar.code = 9 ∧
    FaultCode.storedLengthMismatch.code = 10

/-- Rules R26, R28: the encoding of `phase` on the status interface (the spec's decision D3), and the three flags. -/
def Obligations.StatusShowsThePhase : Prop :=
  ∀ s : State,
    (s.statusPhase = 0 ↔ s.phase = .idle) ∧ (s.statusPhase = 1 ↔ s.phase = .header) ∧
      (s.statusPhase = 2 ↔ s.phase = .stored) ∧ (s.statusPhase = 3 ↔ s.phase = .fixed) ∧
      (s.statusPhase = 4 ↔ s.phase = .dynamic) ∧ (s.statusPhase = 5 ↔ s.phase = .done) ∧
      (s.statusPhase = 6 ↔ s.phase = .fault) ∧ s.statusPhase ≠ 7 ∧
      (s.busyFlag = true ↔ s.phase = .header ∨ s.phase = .stored ∨ s.phase = .fixed ∨ s.phase = .dynamic) ∧
      (s.doneFlag = true ↔ s.phase = .done) ∧ (s.faultFlag = true ↔ s.phase = .fault)

/-! ### The stored block -/

/-- Rules R142, R144: with the Bit Cursor aligned, LEN bytes left and, where `CHECK_NLEN` is 1, NLEN the complement, the
stored body passes exactly those bytes to `output` and ends the block, the cursor aligned after them (in DONE too: log
5); the output invariant is kept. -/
def Obligations.StoredBodyCopiesItsBytes : Prop :=
  ∀ (len nlen : BitVec 16) (s : State), (s.params.checkNlen = true → len ^^^ nlen = 0xFFFF) → s.cur.bitcnt = 0 →
    s.cur.incnt + len.toNat ≤ s.input.length →
    ∃ t, exec (.storedBody len nlen) s = .next t ∧
      t.out = s.out ++ (s.input.drop s.cur.incnt).take len.toNat ∧ t.outcnt = s.outcnt + len.toNat ∧
      t.cur = { s.cur with incnt := s.cur.incnt + len.toNat } ∧ t.sub = .entry ∧ t.faultCode = s.faultCode ∧
      (s.bfinal = 1 → t.phase = .done) ∧ (s.bfinal = 0 → t.phase = .header) ∧ (OutputInv s → OutputInv t)

/-- Rule R142: a stored body whose data run past the input ends in `Truncated`, unless its complement check faults. -/
def Obligations.StoredBodyPastTheInputIsTruncated : Prop :=
  ∀ (len nlen : BitVec 16) (s : State), (s.params.checkNlen = true → len ^^^ nlen = 0xFFFF) → s.cur.bitcnt = 0 →
    s.cur.incnt ≤ s.input.length → s.input.length < s.cur.incnt + len.toNat →
      exec (.storedBody len nlen) s = .next (raiseFault .truncated s)

/-- Rule R143: with `CHECK_NLEN` = 1 an NLEN that is not LEN's complement faults before any data byte; with 0, the value
this hardware takes (the spec's decision D6), NLEN makes no difference; the element takes the block's own parameter. -/
def Obligations.ComplementIsCheckedOnlyIfEnabled : Prop :=
  (∀ (p : Params) (len nlen : BitVec 16) (s : State), p.checkNlen = true → len ^^^ nlen ≠ 0xFFFF →
    storedBody p len nlen s = .next (raiseFault .storedLengthMismatch s)) ∧
  (∀ (p : Params) (len nlen : BitVec 16) (s : State), p.checkNlen = true → len ^^^ nlen = 0xFFFF →
    storedBody p len nlen s = storedBody { p with checkNlen := false } len nlen s) ∧
  (∀ (len nlen : BitVec 16) (s : State), exec (.storedBody len nlen) s = storedBody s.params len nlen s) ∧
  (∀ (len nlen : BitVec 16) (s : State), s.params.checkNlen = true → len ^^^ nlen ≠ 0xFFFF →
    exec (.storedBody len nlen) s = .next (raiseFault .storedLengthMismatch s)) ∧
  ∀ (len nlen nlen' : BitVec 16) (s : State), s.params.checkNlen = false →
    exec (.storedBody len nlen) s = exec (.storedBody len nlen') s

/-- Rules R141, R145: the pad up to the byte boundary is discarded, then LEN and NLEN are taken low byte first; fewer
than four bytes are `Truncated`. The byte order is the spec's decision D14. -/
def Obligations.StoredLengthsAreLittleEndian : Prop :=
  ∀ (inp : List Byte) (c : Cursor), CursorInv inp c →
    (c.incnt + 4 ≤ inp.length →
      decodeElement .storedBody inp c = .ok
        { instr := .storedBody
            (BitVec.ofNat 16 ((inp.getD c.incnt 0).toNat + 256 * (inp.getD (c.incnt + 1) 0).toNat))
            (BitVec.ofNat 16 ((inp.getD (c.incnt + 2) 0).toNat + 256 * (inp.getD (c.incnt + 3) 0).toNat))
          cur := { incnt := c.incnt + 4, bitbuf := 0, bitcnt := 0 }
          regs := none }) ∧
    (inp.length < c.incnt + 4 → decodeElement .storedBody inp c = .error .truncated)

/-! ### The dynamic block -/

/-- Rules R161, R162: the counts are the fields plus 257, 1 and 4; above 286 or 30 they raise `BadCodeCount` (the
spec's decision D7). -/
def Obligations.DynamicHeaderSetsTheCounts : Prop :=
  ∀ (l d : BitVec 5) (n : BitVec 4) (s : State),
    (l.toNat ≤ 29 → d.toNat ≤ 29 →
      ∃ t, exec (.dynHeader l d n) s = .next t ∧ t.blk.nlen.toNat = l.toNat + 257 ∧
        t.blk.ndist.toNat = d.toNat + 1 ∧ t.blk.ncode.toNat = n.toNat + 4 ∧ t.sub = .codeLens ∧ CountsInv t.blk ∧
        t = { s with
          blk.nlen := t.blk.nlen, blk.ndist := t.blk.ndist, blk.ncode := t.blk.ncode, sub := t.sub }) ∧
    (30 ≤ l.toNat ∨ 30 ≤ d.toNat → exec (.dynHeader l d n) s = .next (raiseFault .badCodeCount s))

/-- Rules R163, R164: the `i`-th length sent goes to slot `ORDER[i]`, and a slot not sent is 0 (the spec's decision D24).
`ORDER` is the list of rule R78, from general knowledge (log 7), written out here. -/
def Obligations.CodeLengthsGoToTheirSlots : Prop :=
  ∀ (ls : List (BitVec 3)) (i : Nat), ls.length ≤ 19 → i < 19 →
    (placeCodeLens ls).toList[[16, 17, 18, 0, 8, 7, 9, 6, 10, 5, 11, 4, 12, 3, 13, 2, 14, 1, 15].getD i 0]? =
      some (if i < ls.length then ls.getD i 0 else 0)

/-- Rule R165: CLLENS builds `cltab` over the 19 lengths; a negative result raises `OverSubscribed`, any other starts the
length loop at `index` 0. -/
def Obligations.CodeLengthTableIsBuilt : Prop :=
  ∀ (ls : List (BitVec 3)) (s : State),
    let b := construct s.blk.cltab s.blk.builder ((placeCodeLens ls).toList.map (·.toNat))
    (0 ≤ b.result → exec (.cllens ls) s = .next { s with
      blk.cllen := placeCodeLens ls, blk.cltab := b.table, blk.builder := b.regs, blk.index := 0,
      sub := .codeSyms }) ∧
    (b.result < 0 → exec (.cllens ls) s = .next (raiseFault .overSubscribed s))

/-- Rule R167: while more lengths are wanted, code-length symbol `v` writes `v` at `index` and advances it. -/
def Obligations.CodeLengthIsAppended : Prop :=
  ∀ (v : BitVec 4) (s : State), CountsInv s.blk → s.blk.index.toNat + 1 < s.lensWanted →
    ∃ t, exec (.cl0to15 v) s = .next t ∧ t.blk.index.toNat = s.blk.index.toNat + 1 ∧
      (∀ i, i < 316 → t.blk.lengths.toList[i]? =
        if i = s.blk.index.toNat then some v else s.blk.lengths.toList[i]?) ∧
      t = { s with blk.sym := BitVec.ofNat 9 v.toNat, blk.lengths := t.blk.lengths, blk.index := t.blk.index }

/-- The effect of a repeat of `rep` times `v` from `s` that does not fill the last length wanted. -/
def Sys2Proof.Claims.Repeated (i : Instr) (s : State) (sym rep : Nat) (v : BitVec 4) : Prop :=
  ∃ t, exec i s = .next t ∧ t.blk.index.toNat = s.blk.index.toNat + rep ∧
    (∀ k, k < 316 → t.blk.lengths.toList[k]? =
      if s.blk.index.toNat ≤ k ∧ k < s.blk.index.toNat + rep then some v else s.blk.lengths.toList[k]?) ∧
    t = { s with
      blk.sym := BitVec.ofNat 9 sym, blk.rep := BitVec.ofNat 8 rep, blk.rlen := v,
      blk.lengths := t.blk.lengths, blk.index := t.blk.index }

/-- Rules R168 to R171: symbol 16 repeats the previous length `3 + r` times, symbols 17 and 18 repeat length 0 `3 + r`
and `11 + r` times, while more lengths are wanted. -/
def Obligations.RepeatsAppendTheirLength : Prop :=
  ∀ s : State, CountsInv s.blk →
    (∀ r : BitVec 2, s.blk.index.toNat + (3 + r.toNat) < s.lensWanted → s.blk.index ≠ 0 →
      ∃ v, s.blk.lengths.toList[s.blk.index.toNat - 1]? = some v ∧ Repeated (.cl16 r) s 16 (3 + r.toNat) v) ∧
    (∀ r : BitVec 3, s.blk.index.toNat + (3 + r.toNat) < s.lensWanted →
      Repeated (.cl17 r) s 17 (3 + r.toNat) 0) ∧
    (∀ r : BitVec 7, s.blk.index.toNat + (11 + r.toNat) < s.lensWanted →
      Repeated (.cl18 r) s 18 (11 + r.toNat) 0)

/-- Rules R169, R172: symbol 16 with no previous length raises `RepeatWithoutPrevious`; a repeat that runs past the last
length wanted raises `RepeatOverrun` (the spec's decisions D8 and D9). -/
def Obligations.IllegalRepeatsFault : Prop :=
  ∀ s : State,
    (∀ r : BitVec 2, s.blk.index = 0 → exec (.cl16 r) s = .next (raiseFault .repeatWithoutPrevious s)) ∧
      (∀ r : BitVec 2, s.blk.index ≠ 0 → s.blk.index.toNat ≤ 316 →
        s.lensWanted < s.blk.index.toNat + (3 + r.toNat) → exec (.cl16 r) s = .next (raiseFault .repeatOverrun s)) ∧
      (∀ r : BitVec 3, s.lensWanted < s.blk.index.toNat + (3 + r.toNat) →
        exec (.cl17 r) s = .next (raiseFault .repeatOverrun s)) ∧
      (∀ r : BitVec 7, s.lensWanted < s.blk.index.toNat + (11 + r.toNat) →
        exec (.cl18 r) s = .next (raiseFault .repeatOverrun s))

/-- The effect of an element that fills the last `rep` places wanted with `v`. -/
def Sys2Proof.Claims.FillsTheLast (i : Instr) (s : State) (rep : Nat) (v : BitVec 4) : Prop :=
  let all := (s.blk.lengths.toList.take s.blk.index.toNat).map (·.toNat) ++ List.replicate rep v.toNat
  let ll := construct s.blk.lltab s.blk.builder (all.take s.blk.nlen.toNat)
  let d := construct s.blk.dtab ll.regs (all.drop s.blk.nlen.toNat)
  (0 ≤ ll.result → 0 ≤ d.result →
    ∃ t, exec i s = .next t ∧ t.blk.lltab = ll.table ∧ t.blk.dtab = d.table ∧ t.sub = .symbol ∧
      t.blk.index.toNat = s.lensWanted ∧ t.phase = s.phase ∧ t.cur = s.cur ∧ t.out = s.out ∧ t.window = s.window ∧
      t.outcnt = s.outcnt) ∧
  (ll.result < 0 ∨ d.result < 0 → exec i s = .next (raiseFault .overSubscribed s))

/-- Rules R166, R172 to R174, R176: the length, or the repeat, that fills the last places wanted has `lltab` built over
the first `nlen` lengths, then `dtab` over the next `ndist`; if either is over-subscribed the run faults, else the
symbols come next. -/
def Obligations.LastLengthBuildsTheTables : Prop :=
  ∀ s : State, CountsInv s.blk →
    (∀ v : BitVec 4, s.blk.index.toNat + 1 = s.lensWanted → FillsTheLast (.cl0to15 v) s 1 v) ∧
    (∀ r : BitVec 2, s.blk.index.toNat + (3 + r.toNat) = s.lensWanted → s.blk.index ≠ 0 →
      ∃ v, s.blk.lengths.toList[s.blk.index.toNat - 1]? = some v ∧ FillsTheLast (.cl16 r) s (3 + r.toNat) v) ∧
    (∀ r : BitVec 3, s.blk.index.toNat + (3 + r.toNat) = s.lensWanted → FillsTheLast (.cl17 r) s (3 + r.toNat) 0) ∧
    (∀ r : BitVec 7, s.blk.index.toNat + (11 + r.toNat) = s.lensWanted → FillsTheLast (.cl18 r) s (11 + r.toNat) 0)

/-! ### The symbol-emission loop -/

/-- Rule R191: either literal row passes its byte to `output`, in every state, and changes nothing else but `sym`. -/
def Obligations.LiteralsAreOutput : Prop :=
  ∀ (b : Byte) (s : State),
    exec (.lit0to143 b) s = .next (output { s with blk.sym := BitVec.ofNat 9 b.toNat } b) ∧
      exec (.lit144to255 b) s = .next (output { s with blk.sym := BitVec.ofNat 9 b.toNat } b)

/-- Rules R200 to R211 with R193: length symbols 257 to 268, codeword, extra bits, length, and the distance symbol next.
Bases and extra bits are from general knowledge (log 7), the two steps of a match are log 9. -/
def Obligations.LengthSymbols257To268 : Prop :=
    LengthRow .lsym257 257 [false, false, false, false, false, false, true] 0 0 3 ∧
    LengthRow .lsym258 258 [false, false, false, false, false, true, false] 0 0 4 ∧
    LengthRow .lsym259 259 [false, false, false, false, false, true, true] 0 0 5 ∧
    LengthRow .lsym260 260 [false, false, false, false, true, false, false] 0 0 6 ∧
    LengthRow .lsym261 261 [false, false, false, false, true, false, true] 0 0 7 ∧
    LengthRow .lsym262 262 [false, false, false, false, true, true, false] 0 0 8 ∧
    LengthRow .lsym263 263 [false, false, false, false, true, true, true] 0 0 9 ∧
    LengthRow .lsym264 264 [false, false, false, true, false, false, false] 0 0 10 ∧
    (∀ e : BitVec 1, LengthRow (.lsym265 e) 265 [false, false, false, true, false, false, true] 1 e.toNat 11) ∧
    (∀ e : BitVec 1, LengthRow (.lsym266 e) 266 [false, false, false, true, false, true, false] 1 e.toNat 13) ∧
    (∀ e : BitVec 1, LengthRow (.lsym267 e) 267 [false, false, false, true, false, true, true] 1 e.toNat 15) ∧
    (∀ e : BitVec 1, LengthRow (.lsym268 e) 268 [false, false, false, true, true, false, false] 1 e.toNat 17)

/-- Rules R212 to R223 with R193: length symbols 269 to 280 (log 7, log 9). -/
def Obligations.LengthSymbols269To280 : Prop :=
    (∀ e : BitVec 2, LengthRow (.lsym269 e) 269 [false, false, false, true, true, false, true] 2 e.toNat 19) ∧
    (∀ e : BitVec 2, LengthRow (.lsym270 e) 270 [false, false, false, true, true, true, false] 2 e.toNat 23) ∧
    (∀ e : BitVec 2, LengthRow (.lsym271 e) 271 [false, false, false, true, true, true, true] 2 e.toNat 27) ∧
    (∀ e : BitVec 2, LengthRow (.lsym272 e) 272 [false, false, true, false, false, false, false] 2 e.toNat 31) ∧
    (∀ e : BitVec 3, LengthRow (.lsym273 e) 273 [false, false, true, false, false, false, true] 3 e.toNat 35) ∧
    (∀ e : BitVec 3, LengthRow (.lsym274 e) 274 [false, false, true, false, false, true, false] 3 e.toNat 43) ∧
    (∀ e : BitVec 3, LengthRow (.lsym275 e) 275 [false, false, true, false, false, true, true] 3 e.toNat 51) ∧
    (∀ e : BitVec 3, LengthRow (.lsym276 e) 276 [false, false, true, false, true, false, false] 3 e.toNat 59) ∧
    (∀ e : BitVec 4, LengthRow (.lsym277 e) 277 [false, false, true, false, true, false, true] 4 e.toNat 67) ∧
    (∀ e : BitVec 4, LengthRow (.lsym278 e) 278 [false, false, true, false, true, true, false] 4 e.toNat 83) ∧
    (∀ e : BitVec 4, LengthRow (.lsym279 e) 279 [false, false, true, false, true, true, true] 4 e.toNat 99) ∧
    (∀ e : BitVec 4, LengthRow (.lsym280 e) 280 [true, true, false, false, false, false, false, false] 4 e.toNat 115)

/-- Rules R224 to R228 with R193: length symbols 281 to 285 (log 7, log 9). -/
def Obligations.LengthSymbols281To285 : Prop :=
    (∀ e : BitVec 5, LengthRow (.lsym281 e) 281 [true, true, false, false, false, false, false, true] 5 e.toNat 131) ∧
    (∀ e : BitVec 5, LengthRow (.lsym282 e) 282 [true, true, false, false, false, false, true, false] 5 e.toNat 163) ∧
    (∀ e : BitVec 5, LengthRow (.lsym283 e) 283 [true, true, false, false, false, false, true, true] 5 e.toNat 195) ∧
    (∀ e : BitVec 5, LengthRow (.lsym284 e) 284 [true, true, false, false, false, true, false, false] 5 e.toNat 227) ∧
    LengthRow .lsym285 285 [true, true, false, false, false, true, false, true] 0 0 258

/-- Rules R231 to R242 with R194, R195: distance symbols 0 to 11, codeword, extra bits, distance, and the copy or the
fault `DistanceTooFar`. Bases and extra bits are from general knowledge (log 7). -/
def Obligations.DistanceSymbols0To11 : Prop :=
    DistanceRow .dsym0 0 [false, false, false, false, false] 0 0 1 ∧
    DistanceRow .dsym1 1 [false, false, false, false, true] 0 0 2 ∧
    DistanceRow .dsym2 2 [false, false, false, true, false] 0 0 3 ∧
    DistanceRow .dsym3 3 [false, false, false, true, true] 0 0 4 ∧
    (∀ e : BitVec 1, DistanceRow (.dsym4 e) 4 [false, false, true, false, false] 1 e.toNat 5) ∧
    (∀ e : BitVec 1, DistanceRow (.dsym5 e) 5 [false, false, true, false, true] 1 e.toNat 7) ∧
    (∀ e : BitVec 2, DistanceRow (.dsym6 e) 6 [false, false, true, true, false] 2 e.toNat 9) ∧
    (∀ e : BitVec 2, DistanceRow (.dsym7 e) 7 [false, false, true, true, true] 2 e.toNat 13) ∧
    (∀ e : BitVec 3, DistanceRow (.dsym8 e) 8 [false, true, false, false, false] 3 e.toNat 17) ∧
    (∀ e : BitVec 3, DistanceRow (.dsym9 e) 9 [false, true, false, false, true] 3 e.toNat 25) ∧
    (∀ e : BitVec 4, DistanceRow (.dsym10 e) 10 [false, true, false, true, false] 4 e.toNat 33) ∧
    (∀ e : BitVec 4, DistanceRow (.dsym11 e) 11 [false, true, false, true, true] 4 e.toNat 49)

/-- Rules R243 to R254 with R194, R195: distance symbols 12 to 23 (log 7). -/
def Obligations.DistanceSymbols12To23 : Prop :=
    (∀ e : BitVec 5, DistanceRow (.dsym12 e) 12 [false, true, true, false, false] 5 e.toNat 65) ∧
    (∀ e : BitVec 5, DistanceRow (.dsym13 e) 13 [false, true, true, false, true] 5 e.toNat 97) ∧
    (∀ e : BitVec 6, DistanceRow (.dsym14 e) 14 [false, true, true, true, false] 6 e.toNat 129) ∧
    (∀ e : BitVec 6, DistanceRow (.dsym15 e) 15 [false, true, true, true, true] 6 e.toNat 193) ∧
    (∀ e : BitVec 7, DistanceRow (.dsym16 e) 16 [true, false, false, false, false] 7 e.toNat 257) ∧
    (∀ e : BitVec 7, DistanceRow (.dsym17 e) 17 [true, false, false, false, true] 7 e.toNat 385) ∧
    (∀ e : BitVec 8, DistanceRow (.dsym18 e) 18 [true, false, false, true, false] 8 e.toNat 513) ∧
    (∀ e : BitVec 8, DistanceRow (.dsym19 e) 19 [true, false, false, true, true] 8 e.toNat 769) ∧
    (∀ e : BitVec 9, DistanceRow (.dsym20 e) 20 [true, false, true, false, false] 9 e.toNat 1025) ∧
    (∀ e : BitVec 9, DistanceRow (.dsym21 e) 21 [true, false, true, false, true] 9 e.toNat 1537) ∧
    (∀ e : BitVec 10, DistanceRow (.dsym22 e) 22 [true, false, true, true, false] 10 e.toNat 2049) ∧
    (∀ e : BitVec 10, DistanceRow (.dsym23 e) 23 [true, false, true, true, true] 10 e.toNat 3073)

/-- Rules R255 to R260 with R194, R195: distance symbols 24 to 29 (log 7). -/
def Obligations.DistanceSymbols24To29 : Prop :=
    (∀ e : BitVec 11, DistanceRow (.dsym24 e) 24 [true, true, false, false, false] 11 e.toNat 4097) ∧
    (∀ e : BitVec 11, DistanceRow (.dsym25 e) 25 [true, true, false, false, true] 11 e.toNat 6145) ∧
    (∀ e : BitVec 12, DistanceRow (.dsym26 e) 26 [true, true, false, true, false] 12 e.toNat 8193) ∧
    (∀ e : BitVec 12, DistanceRow (.dsym27 e) 27 [true, true, false, true, true] 12 e.toNat 12289) ∧
    (∀ e : BitVec 13, DistanceRow (.dsym28 e) 28 [true, true, true, false, false] 13 e.toNat 16385) ∧
    (∀ e : BitVec 13, DistanceRow (.dsym29 e) 29 [true, true, true, false, true] 13 e.toNat 24577)

/-- Rules R229, R230, R261, R262: the reserved literal/length symbols fault at once; an unassigned fixed distance pattern
is recognised from its five bits and ends in `Undecodable`, or in `Truncated` without ten bits more (the spec's
decisions D10 and D29; that the pattern is an element of its own is log 22). -/
def Obligations.ReservedCodesFault : Prop :=
  (∀ s, exec .ll286 s = .next (raiseFault .invalidLengthSymbol s) ∧
    exec .ll287 s = .next (raiseFault .invalidLengthSymbol s)) ∧
  (∀ s, CursorInv s.input s.cur →
    exec .dist30 s = .next (raiseFault (if 8 * s.inLen < s.cur.pos + 10 then .truncated else .undecodable) s) ∧
      exec .dist31 s = .next (raiseFault (if 8 * s.inLen < s.cur.pos + 10 then .truncated else .undecodable) s)) ∧
  ∀ (t : Table 5 30) (inp : List Byte) (c : Cursor), CursorInv inp c → c.pos + 5 ≤ 8 * inp.length →
    (streamBits inp c.pos 5 = [true, true, true, true, false] →
      ∃ c', decodeElement (.distance t true) inp c = .ok { instr := .dist30, cur := c', regs := none } ∧
        CursorAt inp c' (c.pos + 5)) ∧
    (streamBits inp c.pos 5 = [true, true, true, true, true] →
      ∃ c', decodeElement (.distance t true) inp c = .ok { instr := .dist31, cur := c', regs := none } ∧
        CursorAt inp c' (c.pos + 5))

/-! ### Frames -/

/-- The headers, HLIT/HDIST/HCLEN, the code-length elements and the length symbols store nothing and read nothing further:
unless they fault, every cell of the window, `OUT`, `next`, `outcnt`, the Bit Cursor, the input, the host port,
`fault_code` and the drawn values are as before, and only the registers named change. -/
def Obligations.FrameOfTheElementsThatStoreNothing : Prop :=
  ∀ (i : Instr) (s t : State), exec i s = .next t → t.phase ≠ .fault →
    ((∃ f, i = .blockStored f ∨ i = .blockDynamic f) →
      t = { s with bfinal := t.bfinal, btype := t.btype, phase := t.phase, sub := t.sub }) ∧
    ((∃ f, i = .blockFixed f) →
      t = { s with
        bfinal := t.bfinal, btype := t.btype, phase := t.phase, sub := t.sub, blk.lltab := t.blk.lltab,
        blk.dtab := t.blk.dtab }) ∧
    ((∃ l d n, i = .dynHeader l d n) →
      t = { s with blk.nlen := t.blk.nlen, blk.ndist := t.blk.ndist, blk.ncode := t.blk.ncode, sub := t.sub }) ∧
    ((∃ ls, i = .cllens ls) →
      t = { s with
        blk.cllen := t.blk.cllen, blk.cltab := t.blk.cltab, blk.builder := t.blk.builder, blk.index := t.blk.index,
        sub := t.sub }) ∧
    ((∃ v, i = .cl0to15 v) →
      t = { s with
        blk.sym := t.blk.sym, blk.lengths := t.blk.lengths, blk.index := t.blk.index, blk.lltab := t.blk.lltab,
        blk.dtab := t.blk.dtab, blk.builder := t.blk.builder, sub := t.sub }) ∧
    (((∃ r, i = .cl16 r) ∨ (∃ r, i = .cl17 r) ∨ ∃ r, i = .cl18 r) →
      t = { s with
        blk.sym := t.blk.sym, blk.rep := t.blk.rep, blk.rlen := t.blk.rlen, blk.lengths := t.blk.lengths,
        blk.index := t.blk.index, blk.lltab := t.blk.lltab, blk.dtab := t.blk.dtab, blk.builder := t.blk.builder,
        sub := t.sub }) ∧
    (isLengthSym i = true → t = { s with blk.sym := t.blk.sym, blk.length := t.blk.length, sub := t.sub })

/-- The literals, the distance symbols and the stored body, unless they fault, change only the output registers and their
own working registers, and every cell of the window outside the cells they store to, which start at `next`. -/
def Obligations.FrameOfTheElementsThatStore : Prop :=
  ∀ (i : Instr) (s t : State), exec i s = .next t → t.phase ≠ .fault →
    (∀ b, i = .lit0to143 b ∨ i = .lit144to255 b →
      (t = { s with
        out := t.out, window := t.window, next := t.next, outcnt := t.outcnt, blk.sym := t.blk.sym }) ∧
      ∀ a, ¬ Stored s 1 a → memLookup t.window a = memLookup s.window a) ∧
    (isDistanceSym i = true →
      (t = { s with
        out := t.out, window := t.window, next := t.next, outcnt := t.outcnt, blk.dsym := t.blk.dsym,
        blk.dist := t.blk.dist, sub := t.sub }) ∧
      ∀ a, ¬ Stored s s.blk.length.toNat a → memLookup t.window a = memLookup s.window a) ∧
    ∀ len nlen, i = .storedBody len nlen →
      (t = { s with
        cur.incnt := t.cur.incnt, out := t.out, window := t.window, next := t.next, outcnt := t.outcnt,
        bfinal := t.bfinal, btype := t.btype, phase := t.phase, sub := t.sub, blk := t.blk, draws := t.draws }) ∧
      (t.phase = .header → t.bfinal = s.bfinal ∧ t.btype = s.btype) ∧
      ∀ a, ¬ Stored s len.toNat a → memLookup t.window a = memLookup s.window a

/-! ### Encoding -/

/-- Rules R60 to R69, R114: for any codes the builder accepts, a well-formed instruction's bits, wherever they stand in
the input, decode to that instruction, every operand at every value, and the cursor is left after them, as the block's
first code-length symbol too. A first symbol 16 is decoded from its codeword alone, as field 0, and the cursor is left
after the codeword (rules R169, R275 (d), log 10). -/
def Obligations.DecodingUndoesEncoding : Prop :=
  (∀ (cs : Codes) (b : BlockRegs) (first : Bool) (i : Instr) (bs : List Bool) (inp : List Byte) (c : Cursor),
    LegalCodes cs b → i.wellFormed = true → i ≠ .dist30 → i ≠ .dist31 → (first = true → ∀ r, i ≠ .cl16 r) →
      encode cs i = some bs → CursorInv inp c → ((∃ l n, i = .storedBody l n) → c.bitcnt = 0) →
        c.pos + bs.length ≤ 8 * inp.length → streamBits inp c.pos bs.length = bs →
          ∃ f, decodeElement (contextOf cs b first i) inp c = .ok f ∧ f.instr = i ∧
            CursorAt inp f.cur (c.pos + bs.length)) ∧
  ∀ (cs : Codes) (b : BlockRegs) (bs : List Bool) (inp : List Byte) (c : Cursor),
    LegalCodes cs b → codewordBits cs.cl 16 = some bs → CursorInv inp c →
      c.pos + bs.length ≤ 8 * inp.length → streamBits inp c.pos bs.length = bs →
        ∃ f, decodeElement (.codeSyms (construct b.cltab b.builder cs.cl).table true) inp c = .ok f ∧
          f.instr = .cl16 0 ∧ CursorAt inp f.cur (c.pos + bs.length)

/-- Rules R61, R70, R71, R76: the same for the headers and for every element of a fixed block, the two unassigned
patterns among them, with the fixed tables. -/
def Obligations.DecodingUndoesEncodingInAFixedBlock : Prop :=
  ∀ (i : Instr) (ctx : Context) (bs : List Bool) (inp : List Byte) (c : Cursor),
    fixedContext i = some ctx → i.wellFormed = true → encode fixedCodes i = some bs → CursorInv inp c →
      c.pos + bs.length ≤ 8 * inp.length → streamBits inp c.pos bs.length = bs →
        ∃ f, decodeElement ctx inp c = .ok f ∧ f.instr = i ∧ CursorAt inp f.cur (c.pos + bs.length)

/-- The decoder gives well-formed instructions only: in every context, over any bytes, for a CLLENS of 4 to 19 lengths. -/
def Obligations.DecodedInstructionsAreWellFormed : Prop :=
  ∀ (ctx : Context) (inp : List Byte) (c : Cursor) (f : Fetched),
    (∀ n, ctx = .codeLens n → 4 ≤ n ∧ n ≤ 19) → decodeElement ctx inp c = .ok f → f.instr.wellFormed = true

/-- Words written out from the spec's encodings decode to what they stand for (rules R61, R64, R70, R71, R74, R75). That a
word's place in the stream is taken from its size, and that zero bits follow it, is the model's choice (log 11). -/
def Obligations.SampleWordsDecode : Prop :=
  decodeTableWord 3 0 = some (.blockStored 0) ∧ decodeTableWord 3 3 = some (.blockFixed 1) ∧
    decodeTableWord 3 5 = some (.blockDynamic 1) ∧ decodeTableWord 3 7 = some (.blockReserved 1) ∧
    decodeTableWord 7 0 = some .eob ∧ decodeTableWord 7 1 = some .lsym257 ∧
    decodeTableWord 8 0x91 = some (.lit0to143 0x61) ∧ decodeTableWord 9 511 = some (.lit144to255 255) ∧
    decodeTableWord 8 198 = some .ll286 ∧ decodeTableWord 5 4 = some (.dsym4 0) ∧
    decodeTableWord 5 30 = some .dist30 ∧ decodeTableWord 14 0x3BBD = some (.dynHeader 29 29 14)

/-! ### The whole machine -/

/-- Rules R6, R130: where the stream bits at the position decode to an element in the context of the phase, a step without
reset is that element's exec, from the state whose Bit Cursor and decoder registers have moved past its bits and
whose `START` pulse has been dropped. Where none can be decoded, the step takes the fault of the reject (rules R91,
R113, R230, R272). -/
def Obligations.StepRunsTheDecodedElement : Prop :=
  ∀ (s : State) (ctx : Context), s.host.reset = false → s.context = some ctx →
    (∀ f : Fetched, decodeElement ctx s.input s.cur = .ok f →
      step s = exec f.instr { s with
        host.start := false, cur := f.cur, blk.decoder := f.regs.getD s.blk.decoder }) ∧
    (decodeElement ctx s.input s.cur = .error .truncated →
      step s = .next (raiseFault .truncated { s with host.start := false })) ∧
    (decodeElement ctx s.input s.cur = .error .undecodable →
      step s = .next (raiseFault .undecodable { s with host.start := false })) ∧
    (decodeElement ctx s.input s.cur = .error .invalidLength →
      step s = .next (raiseFault .invalidLengthSymbol { s with host.start := false }))

/-- The run invariant, the model's collection of the spec's invariants, holds after reset, and the parameters are those
this hardware takes (rule R4, log 19). -/
def Obligations.RunInvariantHoldsAtReset : Prop :=
  RunInv State.reset ∧ State.reset.params = { checkDist := true, checkNlen := false }

/-- Rules R14, R17, R20, R24, R30, R122: every step keeps the run invariant: the residual-buffer invariant, the output
invariant, the canonical window memory, the fault code's range, and built tables wherever they are used. Whatever the
parameters are, they stay as they are (rules R4, R39). -/
def Obligations.StepKeepsTheRunInvariant : Prop :=
  ∀ s t : State, step s = .next t → (RunInv s → RunInv t) ∧ t.params = s.params

/-- Rules R6, R112, R193: from a state of the run invariant the model never stops: every step answers a next state. -/
def Obligations.NoStepOfARunStops : Prop :=
  ∀ s : State, RunInv s → ∃ t, step s = .next t

/-- Rules R25, R278: in a busy phase of a run every step ends the run or moves the stream position forward, within the
input (the spec's derivation of termination). -/
def Obligations.EveryElementConsumesBits : Prop :=
  ∀ s t : State, RunInv s → s.busyFlag = true → s.host.reset = false → step s = .next t →
    t.phase = .fault ∨ (s.cur.pos < t.cur.pos ∧ t.cur.pos ≤ 8 * s.inLen)

/-- Rules R41, R136: bytes after those a step needs make no difference: unless it faults, a step from a state of the run
invariant, without reset and without an accepted `START`, does the same whatever follows the input. -/
def Obligations.NothingBeyondIsRead : Prop :=
  ∀ (s t : State) (more : List Byte), RunInv s → s.host.reset = false → s.host.start = false ∨ s.busyFlag = true →
    step s = .next t → t.phase ≠ .fault →
      step { s with input := s.input ++ more } = .next { t with input := t.input ++ more }

/-- Every step, from every state, keeps the window memory in its canonical form. -/
def Obligations.StepKeepsTheWindowCanonical : Prop :=
  ∀ s t : State, memWf s.window = true → step s = .next t → memWf t.window = true

/-- Rule R147: for every byte sequence `D` of at most 65535 bytes, a final stored block holding `D` ends in DONE with
`OUT = D`: the run is `START`, the header and the stored body. -/
def Obligations.StoredBlockIdentity : Prop :=
  ∀ (s : State) (d : List Byte), s.busyFlag = false → d.length < 65536 →
    ∃ t, Sys2Proof.core.run 3 ({ s with host := {
        data := [0x01, BitVec.ofNat 8 (d.length % 256), BitVec.ofNat 8 (d.length / 256),
          BitVec.ofNat 8 ((65535 - d.length) % 256), BitVec.ofNat 8 ((65535 - d.length) / 256)] ++ d
        start := true
        reset := false } } : State) = .next t ∧ State.result t = .done d

/-- Rules R27, R130: what the sequencer decodes at each of its places. In DYNAMIC the counts, then `ncode` code-length
code lengths, then code-length symbols (the first one exactly while `index` is 0, rule R169), then the symbols and
distances of the block's tables; in FIXED the same two with the unassigned patterns of the fixed code; outside a run
nothing. The five places are the model's (log 18). -/
def Obligations.ContextFollowsThePlace : Prop :=
  ∀ s : State,
    (∀ sub, ContextAt s .idle sub none ∧ ContextAt s .done sub none ∧ ContextAt s .fault sub none) ∧
    (∀ sub, ContextAt s .header sub (some .header) ∧ ContextAt s .stored sub (some .storedBody)) ∧
    ContextAt s .dynamic .entry (some .counts) ∧
    ContextAt s .dynamic .codeLens (some (.codeLens s.blk.ncode.toNat)) ∧
    (s.blk.index = 0 → ContextAt s .dynamic .codeSyms (some (.codeSyms s.blk.cltab true))) ∧
    (s.blk.index ≠ 0 → ContextAt s .dynamic .codeSyms (some (.codeSyms s.blk.cltab false))) ∧
    ContextAt s .dynamic .symbol (some (.symbol s.blk.lltab)) ∧
    ContextAt s .dynamic .distance (some (.distance s.blk.dtab false)) ∧
    ContextAt s .fixed .symbol (some (.symbol s.blk.lltab)) ∧
    ContextAt s .fixed .distance (some (.distance s.blk.dtab true)) ∧
    (s.context = none ↔ s.busyFlag = false)

/-- Rules R91, R113, R161, R163, R169 to R171, R193, R194: the three counts, the code-length code lengths, and every
symbol with its extra bits are rejected exactly when their bits are not all in the input, as `Truncated`, or when no
codeword stands there (then as `Undecodable` if 15 bits are left: the spec's decision D20). In a fixed block five bits
always stand for a distance symbol or an unassigned pattern (log 22). A first symbol 16 has no extra bits read (log
10). -/
def Obligations.ElementsAreRejectedOnlyForTheirBits : Prop :=
  ∀ (inp : List Byte) (c : Cursor) (r : Reject), CursorInv inp c →
    (decodeElement .counts inp c = .error r ↔ 8 * inp.length < c.pos + 14 ∧ r = .truncated) ∧
    (∀ n, decodeElement (.codeLens n) inp c = .error r ↔ 8 * inp.length < c.pos + 3 * n ∧ r = .truncated) ∧
    (∀ (t : Table 5 19) (b : BuilderRegs) (lens : List Nat) (first : Bool), Lengths 5 19 lens →
      0 ≤ (construct t b lens).result →
        (decodeElement (.codeSyms (construct t b lens).table first) inp c = .error r ↔
          RejectedAt lens (codeExtra first) inp c.pos r)) ∧
    (∀ (t : Table 9 288) (b : BuilderRegs) (lens : List Nat), Lengths 9 288 lens → 0 ≤ (construct t b lens).result →
      (decodeElement (.symbol (construct t b lens).table) inp c = .error r ↔
        RejectedAt lens lengthExtra inp c.pos r)) ∧
    (∀ (t : Table 5 30) (b : BuilderRegs) (lens : List Nat), Lengths 5 30 lens → 0 ≤ (construct t b lens).result →
      (decodeElement (.distance (construct t b lens).table false) inp c = .error r ↔
        RejectedAt lens distanceExtra inp c.pos r)) ∧
    (decodeElement (.distance fixedDtab true) inp c = .error r ↔
      r = .truncated ∧ (8 * inp.length < c.pos + 5 ∨
        ∃ d, d < 30 ∧ streamBits inp c.pos 5 = msbBits 5 d ∧ 8 * inp.length < c.pos + 5 + distanceExtra d))
end

