-- ==== Sys2Proof/Laws/State.lean ====
section
/-! SUPPORT. What each named update of State leaves in each field: one equation per field, true by rfl. -/

namespace Sys2Proof.Machine

@[simp] theorem output_params (s : State) (b : Byte) : (output s b).params = s.params := rfl
@[simp] theorem output_host (s : State) (b : Byte) : (output s b).host = s.host := rfl
@[simp] theorem output_input (s : State) (b : Byte) : (output s b).input = s.input := rfl
@[simp] theorem output_cur (s : State) (b : Byte) : (output s b).cur = s.cur := rfl
@[simp] theorem output_window (s : State) (b : Byte) : (output s b).window = memWrite s.window s.next.toNat b := rfl
@[simp] theorem output_winDraw (s : State) (b : Byte) : (output s b).winDraw = s.winDraw := rfl
@[simp] theorem output_next (s : State) (b : Byte) : (output s b).next = s.next + 1 := rfl
@[simp] theorem output_outcnt (s : State) (b : Byte) : (output s b).outcnt = s.outcnt + 1 := rfl
@[simp] theorem output_out (s : State) (b : Byte) : (output s b).out = s.out ++ [b] := rfl
@[simp] theorem output_bfinal (s : State) (b : Byte) : (output s b).bfinal = s.bfinal := rfl
@[simp] theorem output_btype (s : State) (b : Byte) : (output s b).btype = s.btype := rfl
@[simp] theorem output_phase (s : State) (b : Byte) : (output s b).phase = s.phase := rfl
@[simp] theorem output_sub (s : State) (b : Byte) : (output s b).sub = s.sub := rfl
@[simp] theorem output_faultCode (s : State) (b : Byte) : (output s b).faultCode = s.faultCode := rfl
@[simp] theorem output_blk (s : State) (b : Byte) : (output s b).blk = s.blk := rfl
@[simp] theorem output_draws (s : State) (b : Byte) : (output s b).draws = s.draws := rfl

@[simp] theorem unspecified_params (s : State) : (unspecified s).params = s.params := rfl
@[simp] theorem unspecified_host (s : State) : (unspecified s).host = s.host := rfl
@[simp] theorem unspecified_input (s : State) : (unspecified s).input = s.input := rfl
@[simp] theorem unspecified_cur (s : State) : (unspecified s).cur = (Config.free s.draws).cur := rfl
@[simp] theorem unspecified_window (s : State) : (unspecified s).window = [] := rfl
@[simp] theorem unspecified_winDraw (s : State) : (unspecified s).winDraw = s.draws := rfl
@[simp] theorem unspecified_next (s : State) : (unspecified s).next = (Config.free s.draws).next := rfl
@[simp] theorem unspecified_outcnt (s : State) : (unspecified s).outcnt = (Config.free s.draws).outcnt := rfl
@[simp] theorem unspecified_out (s : State) : (unspecified s).out = (Config.free s.draws).out := rfl
@[simp] theorem unspecified_bfinal (s : State) : (unspecified s).bfinal = (Config.free s.draws).bfinal := rfl
@[simp] theorem unspecified_btype (s : State) : (unspecified s).btype = (Config.free s.draws).btype := rfl
@[simp] theorem unspecified_phase (s : State) : (unspecified s).phase = s.phase := rfl
@[simp] theorem unspecified_sub (s : State) : (unspecified s).sub = s.sub := rfl
@[simp] theorem unspecified_faultCode (s : State) : (unspecified s).faultCode = s.faultCode := rfl
@[simp] theorem unspecified_blk (s : State) : (unspecified s).blk = (Config.free s.draws).blk := rfl
@[simp] theorem unspecified_draws (s : State) : (unspecified s).draws = s.draws + 1 := rfl

@[simp] theorem raiseFault_params (f : FaultCode) (s : State) : (raiseFault f s).params = s.params := rfl
@[simp] theorem raiseFault_host (f : FaultCode) (s : State) : (raiseFault f s).host = s.host := rfl
@[simp] theorem raiseFault_input (f : FaultCode) (s : State) : (raiseFault f s).input = s.input := rfl
@[simp] theorem raiseFault_cur (f : FaultCode) (s : State) : (raiseFault f s).cur = (Config.free s.draws).cur := rfl
@[simp] theorem raiseFault_window (f : FaultCode) (s : State) : (raiseFault f s).window = [] := rfl
@[simp] theorem raiseFault_winDraw (f : FaultCode) (s : State) : (raiseFault f s).winDraw = s.draws := rfl
@[simp] theorem raiseFault_next (f : FaultCode) (s : State) : (raiseFault f s).next = (Config.free s.draws).next := rfl
@[simp] theorem raiseFault_outcnt (f : FaultCode) (s : State) : (raiseFault f s).outcnt = (Config.free s.draws).outcnt := rfl
@[simp] theorem raiseFault_out (f : FaultCode) (s : State) : (raiseFault f s).out = (Config.free s.draws).out := rfl
@[simp] theorem raiseFault_bfinal (f : FaultCode) (s : State) : (raiseFault f s).bfinal = (Config.free s.draws).bfinal := rfl
@[simp] theorem raiseFault_btype (f : FaultCode) (s : State) : (raiseFault f s).btype = (Config.free s.draws).btype := rfl
@[simp] theorem raiseFault_phase (f : FaultCode) (s : State) : (raiseFault f s).phase = .fault := rfl
@[simp] theorem raiseFault_sub (f : FaultCode) (s : State) : (raiseFault f s).sub = .entry := rfl
@[simp] theorem raiseFault_faultCode (f : FaultCode) (s : State) : (raiseFault f s).faultCode = f.code := rfl
@[simp] theorem raiseFault_blk (f : FaultCode) (s : State) : (raiseFault f s).blk = (Config.free s.draws).blk := rfl
@[simp] theorem raiseFault_draws (f : FaultCode) (s : State) : (raiseFault f s).draws = s.draws + 1 := rfl

@[simp] theorem startRun_params (s : State) : (startRun s).params = s.params := rfl
@[simp] theorem startRun_host (s : State) : (startRun s).host = { s.host with start := false } := rfl
@[simp] theorem startRun_input (s : State) : (startRun s).input = s.host.data := rfl
@[simp] theorem startRun_cur (s : State) : (startRun s).cur = { incnt := 0, bitbuf := 0, bitcnt := 0 } := rfl
@[simp] theorem startRun_window (s : State) : (startRun s).window = [] := rfl
@[simp] theorem startRun_winDraw (s : State) : (startRun s).winDraw = s.draws := rfl
@[simp] theorem startRun_next (s : State) : (startRun s).next = 0 := rfl
@[simp] theorem startRun_outcnt (s : State) : (startRun s).outcnt = 0 := rfl
@[simp] theorem startRun_out (s : State) : (startRun s).out = [] := rfl
@[simp] theorem startRun_bfinal (s : State) : (startRun s).bfinal = (Config.free s.draws).bfinal := rfl
@[simp] theorem startRun_btype (s : State) : (startRun s).btype = (Config.free s.draws).btype := rfl
@[simp] theorem startRun_phase (s : State) : (startRun s).phase = .header := rfl
@[simp] theorem startRun_sub (s : State) : (startRun s).sub = .entry := rfl
@[simp] theorem startRun_faultCode (s : State) : (startRun s).faultCode = 0 := rfl
@[simp] theorem startRun_blk (s : State) : (startRun s).blk = (Config.free s.draws).blk := rfl
@[simp] theorem startRun_draws (s : State) : (startRun s).draws = s.draws + 1 := rfl

@[simp] theorem hardwareReset_params (s : State) : (hardwareReset s).params = s.params := rfl
@[simp] theorem hardwareReset_host (s : State) : (hardwareReset s).host = { s.host with reset := false } := rfl
@[simp] theorem hardwareReset_input (s : State) : (hardwareReset s).input = s.input := rfl
@[simp] theorem hardwareReset_cur (s : State) : (hardwareReset s).cur = (Config.free s.draws).cur := rfl
@[simp] theorem hardwareReset_window (s : State) : (hardwareReset s).window = [] := rfl
@[simp] theorem hardwareReset_winDraw (s : State) : (hardwareReset s).winDraw = s.draws := rfl
@[simp] theorem hardwareReset_next (s : State) : (hardwareReset s).next = (Config.free s.draws).next := rfl
@[simp] theorem hardwareReset_outcnt (s : State) : (hardwareReset s).outcnt = 0 := rfl
@[simp] theorem hardwareReset_out (s : State) : (hardwareReset s).out = [] := rfl
@[simp] theorem hardwareReset_bfinal (s : State) : (hardwareReset s).bfinal = (Config.free s.draws).bfinal := rfl
@[simp] theorem hardwareReset_btype (s : State) : (hardwareReset s).btype = (Config.free s.draws).btype := rfl
@[simp] theorem hardwareReset_phase (s : State) : (hardwareReset s).phase = .idle := rfl
@[simp] theorem hardwareReset_sub (s : State) : (hardwareReset s).sub = .entry := rfl
@[simp] theorem hardwareReset_faultCode (s : State) : (hardwareReset s).faultCode = 0 := rfl
@[simp] theorem hardwareReset_blk (s : State) : (hardwareReset s).blk = (Config.free s.draws).blk := rfl
@[simp] theorem hardwareReset_draws (s : State) : (hardwareReset s).draws = s.draws + 1 := rfl

@[simp] theorem endBlock_params (s : State) : (endBlock s).params = s.params := rfl
@[simp] theorem endBlock_host (s : State) : (endBlock s).host = s.host := rfl
@[simp] theorem endBlock_input (s : State) : (endBlock s).input = s.input := rfl
@[simp] theorem endBlock_cur (s : State) : (endBlock s).cur = s.cur := rfl
@[simp] theorem endBlock_window (s : State) : (endBlock s).window = s.window := rfl
@[simp] theorem endBlock_winDraw (s : State) : (endBlock s).winDraw = s.winDraw := rfl
@[simp] theorem endBlock_next (s : State) : (endBlock s).next = s.next := rfl
@[simp] theorem endBlock_outcnt (s : State) : (endBlock s).outcnt = s.outcnt := rfl
@[simp] theorem endBlock_out (s : State) : (endBlock s).out = s.out := rfl
@[simp] theorem endBlock_bfinal (s : State) : (endBlock s).bfinal = (if s.bfinal = 1 then (Config.free s.draws).bfinal else s.bfinal) := rfl
@[simp] theorem endBlock_btype (s : State) : (endBlock s).btype = (if s.bfinal = 1 then (Config.free s.draws).btype else s.btype) := rfl
@[simp] theorem endBlock_phase (s : State) : (endBlock s).phase = (if s.bfinal = 1 then .done else .header) := rfl
@[simp] theorem endBlock_sub (s : State) : (endBlock s).sub = .entry := rfl
@[simp] theorem endBlock_faultCode (s : State) : (endBlock s).faultCode = s.faultCode := rfl
@[simp] theorem endBlock_blk (s : State) : (endBlock s).blk = (Config.free s.draws).blk := rfl
@[simp] theorem endBlock_draws (s : State) : (endBlock s).draws = s.draws + 1 := rfl

@[simp] theorem latchHeader_params (s : State) (f : BitVec 1) (t : BitVec 2) : (latchHeader s f t).params = s.params := rfl
@[simp] theorem latchHeader_host (s : State) (f : BitVec 1) (t : BitVec 2) : (latchHeader s f t).host = s.host := rfl
@[simp] theorem latchHeader_input (s : State) (f : BitVec 1) (t : BitVec 2) : (latchHeader s f t).input = s.input := rfl
@[simp] theorem latchHeader_cur (s : State) (f : BitVec 1) (t : BitVec 2) : (latchHeader s f t).cur = s.cur := rfl
@[simp] theorem latchHeader_window (s : State) (f : BitVec 1) (t : BitVec 2) : (latchHeader s f t).window = s.window := rfl
@[simp] theorem latchHeader_winDraw (s : State) (f : BitVec 1) (t : BitVec 2) : (latchHeader s f t).winDraw = s.winDraw := rfl
@[simp] theorem latchHeader_next (s : State) (f : BitVec 1) (t : BitVec 2) : (latchHeader s f t).next = s.next := rfl
@[simp] theorem latchHeader_outcnt (s : State) (f : BitVec 1) (t : BitVec 2) : (latchHeader s f t).outcnt = s.outcnt := rfl
@[simp] theorem latchHeader_out (s : State) (f : BitVec 1) (t : BitVec 2) : (latchHeader s f t).out = s.out := rfl
@[simp] theorem latchHeader_bfinal (s : State) (f : BitVec 1) (t : BitVec 2) : (latchHeader s f t).bfinal = f := rfl
@[simp] theorem latchHeader_btype (s : State) (f : BitVec 1) (t : BitVec 2) : (latchHeader s f t).btype = t := rfl
@[simp] theorem latchHeader_phase (s : State) (f : BitVec 1) (t : BitVec 2) : (latchHeader s f t).phase = s.phase := rfl
@[simp] theorem latchHeader_sub (s : State) (f : BitVec 1) (t : BitVec 2) : (latchHeader s f t).sub = s.sub := rfl
@[simp] theorem latchHeader_faultCode (s : State) (f : BitVec 1) (t : BitVec 2) : (latchHeader s f t).faultCode = s.faultCode := rfl
@[simp] theorem latchHeader_blk (s : State) (f : BitVec 1) (t : BitVec 2) : (latchHeader s f t).blk = s.blk := rfl
@[simp] theorem latchHeader_draws (s : State) (f : BitVec 1) (t : BitVec 2) : (latchHeader s f t).draws = s.draws := rfl

@[simp] theorem consume_params (s : State) (f : Fetched) : (s.consume f).params = s.params := rfl
@[simp] theorem consume_host (s : State) (f : Fetched) : (s.consume f).host = s.host := rfl
@[simp] theorem consume_input (s : State) (f : Fetched) : (s.consume f).input = s.input := rfl
@[simp] theorem consume_cur (s : State) (f : Fetched) : (s.consume f).cur = f.cur := rfl
@[simp] theorem consume_window (s : State) (f : Fetched) : (s.consume f).window = s.window := rfl
@[simp] theorem consume_winDraw (s : State) (f : Fetched) : (s.consume f).winDraw = s.winDraw := rfl
@[simp] theorem consume_next (s : State) (f : Fetched) : (s.consume f).next = s.next := rfl
@[simp] theorem consume_outcnt (s : State) (f : Fetched) : (s.consume f).outcnt = s.outcnt := rfl
@[simp] theorem consume_out (s : State) (f : Fetched) : (s.consume f).out = s.out := rfl
@[simp] theorem consume_bfinal (s : State) (f : Fetched) : (s.consume f).bfinal = s.bfinal := rfl
@[simp] theorem consume_btype (s : State) (f : Fetched) : (s.consume f).btype = s.btype := rfl
@[simp] theorem consume_phase (s : State) (f : Fetched) : (s.consume f).phase = s.phase := rfl
@[simp] theorem consume_sub (s : State) (f : Fetched) : (s.consume f).sub = s.sub := rfl
@[simp] theorem consume_faultCode (s : State) (f : Fetched) : (s.consume f).faultCode = s.faultCode := rfl
@[simp] theorem consume_blk (s : State) (f : Fetched) : (s.consume f).blk = { s.blk with decoder := f.regs.getD s.blk.decoder } := rfl
@[simp] theorem consume_draws (s : State) (f : Fetched) : (s.consume f).draws = s.draws := rfl

end Sys2Proof.Machine
end

