-- ==== Sys2Proof/Laws/Builder.lean ====
section
/-! SUPPORT. The table builder: what the table stores hold after an accepted `construct`, and the code space (rules R69,
R103, R105). -/

namespace Sys2Proof.Machine

/-! ### The symbol order -/

theorem symbolsOfLen_append (lens : List Nat) (a l : Nat) :
    symbolsOfLen (lens ++ [a]) l = symbolsOfLen lens l ++ if a = l then [lens.length] else [] := by
  by_cases h : a = l <;> simp [symbolsOfLen, List.zipIdx_append, h]

@[simp] theorem lenCount_append (lens lens' : List Nat) (l : Nat) :
    lenCount (lens ++ lens') l = lenCount lens l + lenCount lens' l := by simp [lenCount]

@[simp] theorem lenCount_nil (l : Nat) : lenCount [] l = 0 := rfl

theorem lenCount_singleton (a l : Nat) : lenCount [a] l = if a = l then 1 else 0 := by
  by_cases h : a = l <;> simp [lenCount, h]

theorem lenCount_le (lens : List Nat) (l : Nat) : lenCount lens l ≤ lens.length := List.countP_le_length

@[simp] theorem symbolsOfLen_length (lens : List Nat) (l : Nat) : (symbolsOfLen lens l).length = lenCount lens l := by
  induction lens using List.reverseRecOn with
  | nil => rfl
  | append_singleton lens a ih =>
    rw [symbolsOfLen_append, lenCount_append, lenCount_singleton, List.length_append, ih]
    split <;> simp

/-- A symbol stands in the list of its length at the number of smaller symbols of that length. -/
theorem symbolsOfLen_at {lens : List Nat} {s l : Nat} (h : lens[s]? = some l) :
    (symbolsOfLen lens l)[lenCount (lens.take s) l]? = some s ∧ lenCount (lens.take s) l < lenCount lens l := by
  have hs := (List.getElem?_eq_some_iff.mp h).1
  have key : (symbolsOfLen lens l)[lenCount (lens.take s) l]? = some s := by
    induction lens using List.reverseRecOn with
    | nil => simp at h
    | append_singleton lens a ih =>
      rw [symbolsOfLen_append]
      by_cases hlt : s < lens.length
      · rw [List.getElem?_append_left hlt] at h
        have := ih h hlt
        rw [List.take_append_of_le_length (by omega)]
        rwa [List.getElem?_append_left (List.getElem?_eq_some_iff.mp this).1]
      · have he : s = lens.length := by simp at hs; omega
        subst he
        simp at h
        subst h
        simp
  exact ⟨key, by simpa using (List.getElem?_eq_some_iff.mp key).1⟩

/-- Every place in the list of a length holds a symbol of that length. -/
theorem symbolsOfLen_of_lt {lens : List Nat} {j l : Nat} (h : j < lenCount lens l) :
    ∃ s, (symbolsOfLen lens l)[j]? = some s ∧ lens[s]? = some l ∧ lenCount (lens.take s) l = j := by
  induction lens using List.reverseRecOn with
  | nil => simp at h
  | append_singleton lens a ih =>
    rw [symbolsOfLen_append]
    by_cases hlt : j < lenCount lens l
    · obtain ⟨s, h1, h2, h3⟩ := ih hlt
      have hs := (List.getElem?_eq_some_iff.mp h2).1
      refine ⟨s, ?_, ?_, ?_⟩
      · rwa [List.getElem?_append_left (by simpa)]
      · rwa [List.getElem?_append_left hs]
      · rwa [List.take_append_of_le_length (by omega)]
    · rw [lenCount_append, lenCount_singleton] at h
      split at h
      · rename_i ha
        have : j = lenCount lens l := by omega
        subst this ha
        exact ⟨lens.length, by simp, by simp, by simp⟩
      · omega

/-- How many symbols have a length from 1 to `l`. -/
def cumulative (lens : List Nat) (l : Nat) : Nat := ((List.range' 1 l).map (lenCount lens)).sum

theorem cumulative_succ (lens : List Nat) (l : Nat) :
    cumulative lens (l + 1) = cumulative lens l + lenCount lens (l + 1) := by
  simp [cumulative, List.range'_concat, Nat.add_comm]

theorem cumulative_le (lens : List Nat) (l : Nat) : cumulative lens l ≤ lens.length := by
  have hone : ∀ (a l : Nat), ((List.range' 1 l).map fun k => if a = k then 1 else 0).sum ≤ 1 := by
    intro a l
    have hle : ∀ l, l < a → ((List.range' 1 l).map fun k => if a = k then 1 else 0).sum = 0 := by
      intro l hl
      induction l with
      | zero => rfl
      | succ l ih =>
        have := ih (by omega)
        simp only [List.range'_concat, List.map_append, List.sum_append, this]
        simp; omega
    induction l with
    | zero => simp
    | succ l ih =>
      simp only [List.range'_concat, List.map_append, List.sum_append]
      by_cases hl : a = 1 + l
      · rw [hle l (by omega)]; simp; split <;> omega
      · simp [hl] at ih ⊢; exact ih
  induction lens with
  | nil =>
    have : lenCount [] = fun _ => 0 := rfl
    simp [cumulative, this]
  | cons a lens ih =>
    have : (lenCount (a :: lens)) = fun k => lenCount lens k + if a = k then 1 else 0 := by
      funext k; simp [lenCount, List.countP_cons]
    have h2 : ∀ f g : Nat → Nat, ((List.range' 1 l).map fun k => f k + g k).sum =
        ((List.range' 1 l).map f).sum + ((List.range' 1 l).map g).sum := fun f g => List.sum_map_add
    rw [cumulative, this, h2]
    have := hone a l
    simp only [cumulative] at ih
    simp only [List.length_cons]
    omega

theorem flatMap_range'_length (lens : List Nat) (n : Nat) :
    ((List.range' 1 n).flatMap (symbolsOfLen lens)).length = cumulative lens n := by
  simp [List.length_flatMap, cumulative]

theorem sortedSymbols_length_le (lens : List Nat) : (sortedSymbols lens).length ≤ lens.length := by
  rw [sortedSymbols, flatMap_range'_length]
  exact cumulative_le lens 15

/-- The symbols of a length stand in one run behind those of the smaller lengths. -/
theorem sortedSymbols_at {lens : List Nat} {l j : Nat} (h1 : 1 ≤ l) (h2 : l ≤ 15) (hj : j < lenCount lens l) :
    (sortedSymbols lens)[cumulative lens (l - 1) + j]? = (symbolsOfLen lens l)[j]? := by
  have hr : List.range' 1 15 = List.range' 1 (l - 1) ++ l :: List.range' (l + 1) (15 - l) := by
    have := List.range'_append_1 (s := 1) (m := l - 1) (n := 15 - (l - 1))
    rw [show l - 1 + (15 - (l - 1)) = 15 by omega] at this
    rw [← this, show 15 - (l - 1) = (15 - l) + 1 by omega, List.range'_succ, show 1 + (l - 1) = l by omega]
  rw [sortedSymbols, hr, List.flatMap_append, List.getElem?_append_right (by rw [flatMap_range'_length]; omega),
    flatMap_range'_length, Nat.add_sub_cancel_left, List.flatMap_cons, List.getElem?_append_left (by simpa)]

/-! ### The code space -/

/-- The codewords of length `l` end below this value: the first one plus their number. -/
def nextCode (lens : List Nat) (l : Nat) : Nat := firstCode lens l + if l = 0 then 0 else lenCount lens l

theorem firstCode_succ (lens : List Nat) (l : Nat) : firstCode lens (l + 1) = 2 * nextCode lens l := by
  simp [firstCode, nextCode, Nat.shiftLeft_eq, Nat.mul_comm]

theorem nextCode_succ (lens : List Nat) (l : Nat) :
    nextCode lens (l + 1) = 2 * nextCode lens l + lenCount lens (l + 1) := by
  simp [nextCode, firstCode_succ]

/-- The walk's value: the unused codewords of the last length, or a negative value no further down than one count. -/
theorem residualFrom_cases (lens : List Nat) (fuel m : Nat) (hm : nextCode lens m ≤ 2 ^ m) :
    let r := residualFrom lens fuel (m + 1) ((2 : Int) ^ m - nextCode lens m)
    ((∀ l, m ≤ l → l ≤ m + fuel → nextCode lens l ≤ 2 ^ l) ∧
        r = (2 : Int) ^ (m + fuel) - nextCode lens (m + fuel)) ∨
      (r < 0 ∧ -(lens.length : Int) ≤ r ∧ ∃ l, m < l ∧ l ≤ m + fuel ∧ 2 ^ l < nextCode lens l) := by
  induction fuel generalizing m with
  | zero =>
    left
    refine ⟨fun l h1 h2 => ?_, rfl⟩
    have : l = m := by omega
    rwa [this]
  | succ fuel ih =>
    have hv : ((2 : Int) ^ m - nextCode lens m) * 2 - lenCount lens (m + 1) =
        (2 : Int) ^ (m + 1) - nextCode lens (m + 1) := by
      rw [nextCode_succ, pow_succ]; push_cast; ring
    simp only [residualFrom, hv]
    by_cases hneg : nextCode lens (m + 1) ≤ 2 ^ (m + 1)
    · have h0 : ¬ ((2 : Int) ^ (m + 1) - nextCode lens (m + 1) < 0) := by
        have : (nextCode lens (m + 1) : Int) ≤ 2 ^ (m + 1) := by exact_mod_cast hneg
        omega
      rw [if_neg h0]
      rcases ih (m + 1) hneg with ⟨h1, h2⟩ | ⟨h1, h2, l, h3, h4, h5⟩
      · left
        refine ⟨fun l hl hl' => ?_, by rw [h2, show m + 1 + fuel = m + (fuel + 1) by omega]⟩
        rcases Nat.eq_or_lt_of_le hl with rfl | hl
        · exact hm
        · exact h1 l (by omega) (by omega)
      · exact .inr ⟨h1, h2, l, by omega, by omega, h5⟩
    · have hlt : (2 : Int) ^ (m + 1) < nextCode lens (m + 1) := by
        have : 2 ^ (m + 1) < nextCode lens (m + 1) := by omega
        exact_mod_cast this
      rw [if_pos (by omega)]
      right
      refine ⟨by omega, ?_, m + 1, by omega, by omega, by omega⟩
      have h1 := nextCode_succ lens m
      have h2 := lenCount_le lens (m + 1)
      have h3 : (2 : Int) ^ (m + 1) = 2 * 2 ^ m := by rw [pow_succ]; ring
      have h4 : (nextCode lens m : Int) ≤ 2 ^ m := by exact_mod_cast hm
      omega

/-- The residual, by its sign (rule R103). -/
theorem residual_cases (lens : List Nat) :
    ((∀ l, l ≤ 15 → nextCode lens l ≤ 2 ^ l) ∧ residual lens = 32768 - (nextCode lens 15 : Int)) ∨
      (residual lens < 0 ∧ -(lens.length : Int) ≤ residual lens ∧ ∃ l, l ≤ 15 ∧ 2 ^ l < nextCode lens l) := by
  have h0 : nextCode lens 0 = 0 := by simp [nextCode, firstCode]
  have := residualFrom_cases lens 15 0 (by simp [h0])
  simp only [h0, Nat.zero_add] at this
  rcases this with ⟨h1, h2⟩ | ⟨h1, h2, l, -, h4, h5⟩
  · exact .inl ⟨fun l hl => h1 l (Nat.zero_le _) hl, by simpa [residual] using h2⟩
  · exact .inr ⟨by simpa [residual] using h1, by simpa [residual] using h2, l, h4, h5⟩

/-- Codewords of a longer length lie beyond the shorter ones they extend. -/
theorem nextCode_mul_le (lens : List Nat) (l k : Nat) : nextCode lens l * 2 ^ (k + 1) ≤ firstCode lens (l + k + 1) := by
  induction k with
  | zero => simp [firstCode_succ, Nat.mul_comm]
  | succ k ih =>
    rw [firstCode_succ lens (l + (k + 1))]
    have : firstCode lens (l + k + 1) ≤ nextCode lens (l + (k + 1)) := Nat.le_add_right _ _
    calc nextCode lens l * 2 ^ (k + 1 + 1) = 2 * (nextCode lens l * 2 ^ (k + 1)) := by rw [Nat.pow_succ 2 (k + 1)]; ring
      _ ≤ _ := by omega

/-! ### The stores -/

theorem overwrite_getElem? {α : Type} {cap : Nat} (new : List α) (old : Vector α cap) (i : Nat) (h : i < cap) :
    (overwrite new old).toList[i]? = if i < new.length then new[i]? else old.toList[i]? := by
  have ho : old.toList.length = cap := by simp
  simp only [overwrite, Vector.toList, List.getElem?_take_of_lt h]
  split
  · rw [List.getElem?_append_left ‹_›]
  · rw [List.getElem?_append_right (by omega), List.getElem?_drop]
    congr 1; omega

theorem countStore_getD {w : Nat} {lens : List Nat} {l : Nat} (hl : l < 16) (hw : lens.length < 2 ^ w) :
    ((countStore w lens).toList.getD l 0).toNat = lenCount lens l := by
  have := lenCount_le lens l
  simp only [countStore, Vector.toList, List.getD_eq_getElem?_getD, List.getElem?_map,
    List.getElem?_range hl, Option.map_some, Option.getD_some, BitVec.toNat_ofNat]
  exact Nat.mod_eq_of_lt (by omega)

/-- What a table holds that was built over `lens` with a result that is not negative. -/
structure Holds {w cap : Nat} (t : Table w cap) (lens : List Nat) : Prop where
  count : ∀ l, l < 16 → t.countAt l = lenCount lens l
  space : ∀ l, l ≤ 15 → nextCode lens l ≤ 2 ^ l
  symbol : ∀ l j, 1 ≤ l → l ≤ 15 → j < lenCount lens l →
    t.symbolAt (cumulative lens (l - 1) + j) = (symbolsOfLen lens l)[j]?

theorem lenCount_zero_of_empty {lens : List Nat} (h : lenCount lens 0 = lens.length) {l : Nat} (hl : l ≠ 0) :
    lenCount lens l = 0 := by
  have hz : ∀ x ∈ lens, x = 0 := by
    have := List.countP_eq_length.mp h
    simpa using this
  simp only [lenCount, List.countP_eq_zero]
  intro x hx
  simp [hz x hx, hl.symm]

/-- Every accepted `construct` leaves such a table. -/
theorem construct_holds {w cap : Nat} (t : Table w cap) (b : BuilderRegs) {lens : List Nat} (hn : lens.length ≤ cap)
    (hw : cap < 2 ^ w) (hr : 0 ≤ (construct t b lens).result) : Holds (construct t b lens).table lens := by
  have hcount : ∀ l, l < 16 → ((countStore w lens).toList.getD l 0).toNat = lenCount lens l :=
    fun l hl => countStore_getD hl (by omega)
  by_cases he : lenCount lens 0 = lens.length
  · have h0 : ∀ l, l ≠ 0 → lenCount lens l = 0 := fun l hl => lenCount_zero_of_empty he hl
    simp only [construct, if_pos he]
    refine ⟨hcount, fun l _ => ?_, fun l j h1 _ hj => ?_⟩
    · have hz : ∀ l, nextCode lens l = 0 := by
        intro l
        induction l with
        | zero => simp [nextCode, firstCode]
        | succ l ih => rw [nextCode_succ, ih, h0 _ (by omega)]
      simp [hz]
    · rw [h0 l (by omega)] at hj; omega
  · simp only [construct, if_neg he] at hr ⊢
    by_cases hneg : residual lens < 0
    · simp only [if_pos hneg] at hr; omega
    · simp only [if_neg hneg]
      refine ⟨hcount, ?_, fun l j h1 h2 hj => ?_⟩
      · rcases residual_cases lens with h | h
        · exact h.1
        · exact absurd h.1 hneg
      · have hs := sortedSymbols_at h1 h2 hj
        have hle := sortedSymbols_length_le lens
        obtain ⟨s, hs1, hs2, -⟩ := symbolsOfLen_of_lt hj
        have hlt := (List.getElem?_eq_some_iff.mp hs2).1
        rw [hs1] at hs
        have hi := (List.getElem?_eq_some_iff.mp hs).1
        simp only [Table.symbolAt]
        rw [overwrite_getElem? _ _ _ (by omega), if_pos (by simpa), List.getElem?_map, hs, hs1]
        simp only [Option.map_some, BitVec.toNat_ofNat, Option.some.injEq]
        exact Nat.mod_eq_of_lt (by omega)

theorem Usable.holds {w cap : Nat} {t : Table w cap} (h : Usable t) (hw : cap < 2 ^ w) :
    ∃ lens : List Nat, lens.length ≤ cap ∧ (∀ l ∈ lens, l ≤ 15) ∧ Holds t lens := by
  obtain ⟨old, b, lens, h1, h2, h3, rfl⟩ := h
  exact ⟨lens, h1, h2, construct_holds old b h1 hw h3⟩

/-! ### Codewords -/

theorem codewordOf_eq_some {lens : List Nat} {s l v : Nat} :
    codewordOf lens s = some (l, v) ↔
      1 ≤ l ∧ lens[s]? = some l ∧ v = firstCode lens l + lenCount (lens.take s) l := by
  unfold codewordOf
  split
  · simp_all
  · rename_i h; rw [h]; simp; intro h1 h2; omega
  · rename_i k h
    rw [h]
    simp only [Option.some.injEq, Prod.mk.injEq]
    constructor
    · rintro ⟨rfl, rfl⟩; exact ⟨by omega, rfl, rfl⟩
    · rintro ⟨-, rfl, rfl⟩; exact ⟨rfl, rfl⟩

/-- A codeword's value lies in its length's range. -/
theorem codewordOf_bounds {lens : List Nat} {s l v : Nat} (h : codewordOf lens s = some (l, v)) :
    firstCode lens l ≤ v ∧ v < nextCode lens l := by
  obtain ⟨h1, h2, rfl⟩ := codewordOf_eq_some.mp h
  have := (symbolsOfLen_at h2).2
  simp only [nextCode, if_neg (show l ≠ 0 by omega)]
  omega

/-- No two symbols share a codeword. -/
theorem codewordOf_inj {lens : List Nat} {s s' l v : Nat} (h : codewordOf lens s = some (l, v))
    (h' : codewordOf lens s' = some (l, v)) : s = s' := by
  obtain ⟨-, h2, h3⟩ := codewordOf_eq_some.mp h
  obtain ⟨-, h2', h3'⟩ := codewordOf_eq_some.mp h'
  have e : lenCount (lens.take s) l = lenCount (lens.take s') l := by omega
  have := (symbolsOfLen_at h2).1
  rw [e, (symbolsOfLen_at h2').1] at this
  exact (Option.some.inj this).symm

end Sys2Proof.Machine
end

