-- ==== Sys2Proof/Laws/Cursor.lean ====
section
/-! SUPPORT. The Bit Cursor in terms of the stream bits not yet consumed: a field takes the first of them and
leaves the rest (rules R90, R91). -/

namespace Sys2Proof.Machine

@[simp] theorem lsbBits_length (n v : Nat) : (lsbBits n v).length = n := by simp [lsbBits]

@[simp] theorem msbBits_length (n v : Nat) : (msbBits n v).length = n := by simp [msbBits]

@[simp] theorem byteBits_length (b : Byte) : (byteBits b).length = 8 := by simp [byteBits]

theorem lsbBits_succ (n v : Nat) : lsbBits (n + 1) v = v.testBit 0 :: lsbBits n (v >>> 1) := by
  simp [lsbBits, List.range_succ_eq_map, Function.comp_def, Nat.testBit_shiftRight, Nat.add_comm]

theorem lsbBits_take {n m : Nat} (h : n ≤ m) (v : Nat) : (lsbBits m v).take n = lsbBits n v := by
  simp [lsbBits, ← List.map_take, List.take_range, Nat.min_eq_left h]

theorem lsbBits_drop (n m v : Nat) : (lsbBits m v).drop n = lsbBits (m - n) (v >>> n) := by
  apply List.ext_getElem
  · simp
  · intro i h1 h2
    simp [lsbBits, Nat.testBit_shiftRight]

theorem bitsValue_lsbBits (n v : Nat) : bitsValue (lsbBits n v) = v % 2 ^ n := by
  induction n generalizing v with
  | zero => simp [lsbBits, bitsValue, Nat.mod_one]
  | succ n ih =>
    rw [lsbBits_succ, bitsValue, ih, Nat.testBit_zero, Nat.shiftRight_one, Nat.pow_succ, Nat.mul_comm (2 ^ n) 2,
      Nat.mod_mul]
    rcases Nat.mod_two_eq_zero_or_one v with h | h <;> simp [h]

/-- Bits put above `m` held ones come after them in stream order. -/
theorem lsbBits_append {m v : Nat} (hv : v < 2 ^ m) (n w : Nat) :
    lsbBits (m + n) (v ||| (w <<< m)) = lsbBits m v ++ lsbBits n w := by
  apply List.ext_getElem
  · simp
  · intro i h1 h2
    by_cases hi : i < m
    · rw [List.getElem_append_left (by simpa)]
      simp [lsbBits, Nat.testBit_or, Nat.testBit_shiftLeft, hi]
    · rw [List.getElem_append_right (by simpa using hi)]
      have : v.testBit i = false := Nat.testBit_lt_two_pow (lt_of_lt_of_le hv (Nat.pow_le_pow_right (by omega) (by omega)))
      have hm : m ≤ i := by omega
      simp [lsbBits, Nat.testBit_or, Nat.testBit_shiftLeft, this, hm]

/-- The bits above the valid ones are zero (rule R12). -/
def Cursor.Clean (c : Cursor) : Prop := c.bitbuf.toNat < 2 ^ c.bitcnt.toNat

/-- The bits held in a fetch loop, then those of the bytes not yet fetched. -/
def heldBits (inp : List Byte) (val i cnt : Nat) : List Bool := lsbBits cnt val ++ (inp.drop i).flatMap byteBits

theorem upcoming_eq (inp : List Byte) (c : Cursor) :
    upcoming inp c = heldBits inp c.bitbuf.toNat c.incnt c.bitcnt.toNat := rfl

theorem heldBits_length (inp : List Byte) (val i cnt : Nat) :
    (heldBits inp val i cnt).length = cnt + 8 * (inp.length - i) := by
  have : ∀ l : List Byte, (l.flatMap byteBits).length = 8 * l.length := by
    intro l
    induction l with
    | nil => rfl
    | cons b l ih => simp only [List.flatMap_cons, List.length_append, byteBits_length, ih, List.length_cons]; omega
  simp [heldBits, this]

/-- Fetching a byte changes nothing of the stream ahead. -/
theorem heldBits_fetch {inp : List Byte} {val i cnt : Nat} {b : Byte} (hv : val < 2 ^ cnt) (hb : inp[i]? = some b) :
    heldBits inp (val ||| (b.toNat <<< cnt)) (i + 1) (cnt + 8) = heldBits inp val i cnt := by
  obtain ⟨hi, rfl⟩ := List.getElem?_eq_some_iff.mp hb
  rw [heldBits, heldBits, lsbBits_append hv, List.drop_eq_getElem_cons hi, List.flatMap_cons, List.append_assoc]
  rfl

theorem held_lt {val cnt : Nat} {b : Byte} (hv : val < 2 ^ cnt) : val ||| (b.toNat <<< cnt) < 2 ^ (cnt + 8) := by
  apply Nat.or_lt_two_pow
  · exact lt_of_lt_of_le hv (Nat.pow_le_pow_right (by omega) (by omega))
  · rw [Nat.shiftLeft_eq, Nat.pow_add, Nat.mul_comm]
    exact Nat.mul_lt_mul_of_pos_left b.isLt (Nat.two_pow_pos _)

/-- The fetch loop: enough bits are gathered, none lost, and at most 7 more than asked for, unless the input
ends. -/
theorem refill_spec (inp : List Byte) (n fuel val i cnt : Nat) (hv : val < 2 ^ cnt) (hf : n ≤ cnt + 8 * fuel)
    (hc : cnt ≤ n + 7) :
    (n ≤ (heldBits inp val i cnt).length →
      ∃ val' i' cnt', refill inp n fuel val i cnt = .ok (val', i', cnt') ∧ val' < 2 ^ cnt' ∧ n ≤ cnt' ∧
        cnt' ≤ n + 7 ∧ heldBits inp val' i' cnt' = heldBits inp val i cnt) ∧
    ((heldBits inp val i cnt).length < n → refill inp n fuel val i cnt = .error .truncated) := by
  induction fuel generalizing val i cnt with
  | zero =>
    refine ⟨fun _ => ⟨val, i, cnt, rfl, hv, by omega, hc, rfl⟩, fun h => ?_⟩
    rw [heldBits_length] at h
    omega
  | succ fuel ih =>
    simp only [refill]
    by_cases hlt : cnt < n
    · simp only [hlt, if_true]
      cases hb : inp[i]? with
      | none =>
        have : inp.length ≤ i := by simpa using hb
        rw [heldBits_length]
        exact ⟨fun h => by omega, fun _ => rfl⟩
      | some b =>
        rw [← heldBits_fetch hv hb]
        exact ih _ _ _ (held_lt hv) (by omega) (by omega)
    · simp only [hlt, if_false]
      refine ⟨fun _ => ⟨val, i, cnt, rfl, hv, by omega, hc, rfl⟩, fun h => ?_⟩
      rw [heldBits_length] at h
      omega

/-- `bits(n)` gives the value of the next `n` stream bits and leaves the others ahead. -/
theorem bits_ok {inp : List Byte} {n : Fin 17} {c : Cursor} (hc : c.Clean) (hn : n.val ≤ (upcoming inp c).length) :
    ∃ c', bits inp n c = .ok (bitsValue ((upcoming inp c).take n.val), c') ∧ c'.Clean ∧
      upcoming inp c' = (upcoming inp c).drop n.val := by
  have hf : n.val ≤ c.bitcnt.toNat + 8 * 2 := by have := n.isLt; omega
  have hcn : c.bitcnt.toNat ≤ n.val + 7 := by have := c.bitcnt.isLt; omega
  obtain ⟨val, i, cnt, hr, hv, hle, hle', hh⟩ := (refill_spec inp n.val 2 _ c.incnt _ hc hf hcn).1 hn
  have hsh : val >>> n.val < 2 ^ (cnt - n.val) := by
    rw [Nat.shiftRight_eq_div_pow]
    apply Nat.div_lt_of_lt_mul
    rwa [← Nat.pow_add, Nat.add_sub_cancel' hle]
  have h7 : val >>> n.val < 2 ^ 7 := lt_of_lt_of_le hsh (Nat.pow_le_pow_right (by omega) (by omega))
  have h3 : (cnt - n.val) % 8 = cnt - n.val := Nat.mod_eq_of_lt (by omega)
  refine ⟨{ incnt := i, bitbuf := BitVec.ofNat 7 (val >>> n.val), bitcnt := BitVec.ofNat 3 (cnt - n.val) }, ?_, ?_, ?_⟩
  · rw [bits, hr]
    rw [upcoming_eq, ← hh, heldBits, List.take_append_of_le_length (by simpa using hle), lsbBits_take hle,
      bitsValue_lsbBits]
  · simpa only [Cursor.Clean, BitVec.toNat_ofNat, Nat.mod_eq_of_lt h7, show (cnt - n.val) % 2 ^ 3 = cnt - n.val from h3]
      using hsh
  · rw [upcoming_eq, upcoming_eq, ← hh]
    simp only [heldBits, BitVec.toNat_ofNat, Nat.mod_eq_of_lt h7]
    rw [show (cnt - n.val) % 2 ^ 3 = cnt - n.val from h3, List.drop_append_of_le_length (by simpa using hle),
      lsbBits_drop]

/-- `bits(n)` with fewer than `n` stream bits ahead is `Truncated`. -/
theorem bits_error {inp : List Byte} {n : Fin 17} {c : Cursor} (hc : c.Clean) (hn : (upcoming inp c).length < n.val) :
    bits inp n c = .error .truncated := by
  have hf : n.val ≤ c.bitcnt.toNat + 8 * 2 := by have := n.isLt; omega
  have hcn : c.bitcnt.toNat ≤ n.val + 7 := by have := c.bitcnt.isLt; omega
  rw [bits, (refill_spec inp n.val 2 _ c.incnt _ hc hf hcn).2 hn]

end Sys2Proof.Machine
end

