-- ==== Sys2Proof/Laws/Stream.lean ====
section
/-! SUPPORT. The Bit Cursor by stream positions: what the residual-buffer invariant says of the bits ahead, and that
`bits`, `align` and `nextbyte` keep it (rules R14, R25). -/

namespace Sys2Proof.Machine

/-- The whole input in stream order. -/
def allBits (inp : List Byte) : List Bool := inp.flatMap byteBits

@[simp] theorem allBits_length (inp : List Byte) : (allBits inp).length = 8 * inp.length := by
  have := heldBits_length inp 0 0 0
  simpa [heldBits, lsbBits, allBits] using this

theorem allBits_drop (inp : List Byte) (i : Nat) : allBits (inp.drop i) = (allBits inp).drop (8 * i) := by
  induction i generalizing inp with
  | zero => rfl
  | succ i ih =>
    cases inp with
    | nil => simp [allBits]
    | cons b l =>
      rw [List.drop_succ_cons, ih, allBits, allBits, List.flatMap_cons, List.drop_append]
      simp [Nat.mul_succ, show 8 * i + 8 - 8 = 8 * i by omega, show (byteBits b).drop (8 * i + 8) = [] by simp]

theorem allBits_getElem? (inp : List Byte) {k : Nat} (h : k < 8 * inp.length) :
    (allBits inp)[k]? = some (streamBit inp k) := by
  have hlt : k / 8 < inp.length := by omega
  have hd : allBits (inp.drop (k / 8)) = byteBits inp[k / 8] ++ allBits (inp.drop (k / 8 + 1)) := by
    rw [List.drop_eq_getElem_cons hlt]; rfl
  have hk : (allBits inp)[k]? = (allBits (inp.drop (k / 8)))[k % 8]? := by
    rw [allBits_drop, List.getElem?_drop]; congr 1; omega
  rw [hk, hd, List.getElem?_append_left (by simp; omega)]
  simp [byteBits, lsbBits, streamBit, hlt, Nat.mod_lt, BitVec.getLsbD]

theorem streamBits_eq (inp : List Byte) {p n : Nat} (h : p + n ≤ 8 * inp.length) :
    streamBits inp p n = ((allBits inp).drop p).take n := by
  apply List.ext_getElem?
  intro i
  by_cases hi : i < n
  · rw [List.getElem?_take_of_lt hi, List.getElem?_drop, allBits_getElem? inp (by omega)]
    simp [streamBits, hi]
  · rw [List.getElem?_eq_none (by simp [streamBits]; omega), List.getElem?_eq_none (by simp; omega)]

@[simp] theorem streamBits_length (inp : List Byte) (p n : Nat) : (streamBits inp p n).length = n := by
  simp [streamBits]

theorem streamBits_append (inp : List Byte) (p n m : Nat) :
    streamBits inp p (n + m) = streamBits inp p n ++ streamBits inp (p + n) m := by
  simp [streamBits, List.range_add, Nat.add_assoc, Function.comp_def]

/-- The residual-buffer invariant keeps the bits above the valid ones zero. -/
theorem CursorInv.clean {inp : List Byte} {c : Cursor} (h : CursorInv inp c) : c.Clean := by
  obtain ⟨-, h0, h1⟩ := h
  by_cases hc : c.bitcnt = 0
  · simp [Cursor.Clean, h0 hc, hc]
  · rw [Cursor.Clean, (h1 hc).2, Nat.shiftRight_eq_div_pow]
    apply Nat.div_lt_of_lt_mul
    rw [← Nat.pow_add, show 8 - c.bitcnt.toNat + c.bitcnt.toNat = 8 by have := c.bitcnt.isLt; omega]
    exact (inp.getD (c.incnt - 1) 0).isLt

theorem CursorInv.pos_le {inp : List Byte} {c : Cursor} (h : CursorInv inp c) : c.pos ≤ 8 * inp.length := by
  have := h.1
  simp only [Cursor.pos]; omega

/-- The position and the residual count make up the fetched bytes. -/
theorem CursorInv.pos_add {inp : List Byte} {c : Cursor} (h : CursorInv inp c) :
    c.pos + c.bitcnt.toNat = 8 * c.incnt := by
  have := c.bitcnt.isLt
  by_cases hc : c.bitcnt = 0
  · simp [Cursor.pos, hc]
  · have := (h.2.2 hc).1
    simp only [Cursor.pos]; omega

/-- The bits ahead are the stream from the position on. -/
theorem CursorInv.upcoming {inp : List Byte} {c : Cursor} (h : CursorInv inp c) :
    upcoming inp c = (allBits inp).drop c.pos := by
  by_cases hc : c.bitcnt = 0
  · rw [upcoming_eq, heldBits, hc, Cursor.pos, hc]
    simpa [lsbBits, allBits] using allBits_drop inp c.incnt
  · obtain ⟨hi, hb⟩ := h.2.2 hc
    have hlt := c.bitcnt.isLt
    have hle := h.1
    have h8 : lsbBits c.bitcnt.toNat c.bitbuf.toNat = (byteBits (inp.getD (c.incnt - 1) 0)).drop (8 - c.bitcnt.toNat) := by
      rw [byteBits, lsbBits_drop, hb, show 8 - (8 - c.bitcnt.toNat) = c.bitcnt.toNat by omega]
    have hd : allBits (inp.drop (c.incnt - 1)) = byteBits (inp.getD (c.incnt - 1) 0) ++ allBits (inp.drop c.incnt) := by
      rw [List.drop_eq_getElem_cons (show c.incnt - 1 < inp.length by omega), Nat.sub_add_cancel hi]
      simp [allBits, show c.incnt - 1 < inp.length by omega]
    rw [upcoming_eq, heldBits, h8, ← allBits, show c.pos = 8 * (c.incnt - 1) + (8 - c.bitcnt.toNat) by
      simp only [Cursor.pos]; omega, ← List.drop_drop, ← allBits_drop, hd,
      List.drop_append_of_le_length (by simp)]

theorem CursorInv.upcoming_length {inp : List Byte} {c : Cursor} (h : CursorInv inp c) :
    (Machine.upcoming inp c).length = 8 * inp.length - c.pos := by
  rw [h.upcoming]; simp

theorem lsbBits_inj {n v w : Nat} (hv : v < 2 ^ n) (hw : w < 2 ^ n) (h : lsbBits n v = lsbBits n w) : v = w := by
  have := congrArg bitsValue h
  rwa [bitsValue_lsbBits, bitsValue_lsbBits, Nat.mod_eq_of_lt hv, Nat.mod_eq_of_lt hw] at this

/-- A cursor within the input with nothing above its valid bits, and with a suffix of the stream ahead, meets the
residual-buffer invariant at that suffix's position. -/
theorem cursorInv_of_upcoming {inp : List Byte} {c : Cursor} {p : Nat} (hc : c.Clean) (hi : c.incnt ≤ inp.length)
    (hp : p ≤ 8 * inp.length) (hu : upcoming inp c = (allBits inp).drop p) : CursorInv inp c ∧ c.pos = p := by
  have hl : c.bitcnt.toNat + 8 * (inp.length - c.incnt) = 8 * inp.length - p := by
    have := congrArg List.length hu
    rwa [upcoming_eq, heldBits_length, List.length_drop, allBits_length] at this
  have hlt := c.bitcnt.isLt
  have hpos : c.pos = p := by simp only [Cursor.pos]; omega
  refine ⟨⟨hi, fun h0 => ?_, fun h1 => ?_⟩, hpos⟩
  · have : c.bitbuf.toNat < 2 ^ 0 := by simpa [Cursor.Clean, h0] using hc
    exact BitVec.eq_of_toNat_eq (by simpa using this)
  · have h1' : c.bitcnt.toNat ≠ 0 := fun h => h1 (BitVec.eq_of_toNat_eq (by simpa using h))
    have hinc : 1 ≤ c.incnt := by omega
    refine ⟨hinc, ?_⟩
    have hd : allBits (inp.drop (c.incnt - 1)) = byteBits (inp.getD (c.incnt - 1) 0) ++ allBits (inp.drop c.incnt) := by
      rw [List.drop_eq_getElem_cons (show c.incnt - 1 < inp.length by omega), Nat.sub_add_cancel hinc]
      simp [allBits, show c.incnt - 1 < inp.length by omega]
    have hs : (allBits inp).drop p = (byteBits (inp.getD (c.incnt - 1) 0)).drop (8 - c.bitcnt.toNat) ++
        allBits (inp.drop c.incnt) := by
      rw [show p = 8 * (c.incnt - 1) + (8 - c.bitcnt.toNat) by omega, ← List.drop_drop, ← allBits_drop, hd,
        List.drop_append_of_le_length (by simp)]
    rw [upcoming_eq, heldBits, hs, byteBits, lsbBits_drop, show 8 - (8 - c.bitcnt.toNat) = c.bitcnt.toNat by omega] at hu
    refine lsbBits_inj hc ?_ (List.append_inj hu (by simp)).1
    rw [Nat.shiftRight_eq_div_pow]
    apply Nat.div_lt_of_lt_mul
    rw [← Nat.pow_add, show 8 - c.bitcnt.toNat + c.bitcnt.toNat = 8 by omega]
    exact (inp.getD (c.incnt - 1) 0).isLt

/-- Two cursors of the residual-buffer invariant at one position are equal. -/
theorem CursorInv.eq_of_pos {inp : List Byte} {c d : Cursor} (hc : CursorInv inp c) (hd : CursorInv inp d)
    (h : c.pos = d.pos) : c = d := by
  have h1 := hc.pos_add
  have h2 := hd.pos_add
  have hb := c.bitcnt.isLt
  have hb' := d.bitcnt.isLt
  have hi : c.incnt = d.incnt := by omega
  have hn : c.bitcnt = d.bitcnt := BitVec.eq_of_toNat_eq (by omega)
  have hu : Machine.upcoming inp c = Machine.upcoming inp d := by rw [hc.upcoming, hd.upcoming, h]
  have hv : c.bitbuf.toNat = d.bitbuf.toNat := by
    rw [upcoming_eq, upcoming_eq, heldBits, heldBits, hn] at hu
    exact lsbBits_inj (hn ▸ hc.clean) hd.clean (List.append_inj hu (by simp)).1
  obtain ⟨a, b, n⟩ := c
  obtain ⟨a', b', n'⟩ := d
  simp only at hi hn hv
  subst hi hn
  simp [BitVec.eq_of_toNat_eq hv]

/-- The fetch loop stays within the input. -/
theorem refill_le {inp : List Byte} {n fuel val i cnt val' i' cnt' : Nat} (hi : i ≤ inp.length)
    (h : refill inp n fuel val i cnt = .ok (val', i', cnt')) : i' ≤ inp.length := by
  induction fuel generalizing val i cnt with
  | zero => simp only [refill, Except.ok.injEq, Prod.mk.injEq] at h; omega
  | succ fuel ih =>
    simp only [refill] at h
    split at h
    · split at h
      · cases h
      · rename_i b hb
        exact ih (by have := (List.getElem?_eq_some_iff.mp hb).1; omega) h
    · simp only [Except.ok.injEq, Prod.mk.injEq] at h; omega

/-- What `bits` answers from a cursor of the residual-buffer invariant, whichever way it goes. -/
theorem bits_cases {inp : List Byte} {c : Cursor} (h : CursorInv inp c) (n : Fin 17) :
    (8 * inp.length < c.pos + n.val ∧ bits inp n c = .error .truncated) ∨
    (c.pos + n.val ≤ 8 * inp.length ∧ ∃ c', bits inp n c = .ok (fieldAt inp c.pos n.val, c') ∧ CursorInv inp c' ∧
      c'.pos = c.pos + n.val) := by
  have hlen := h.upcoming_length
  have hle := h.pos_le
  rcases Nat.lt_or_ge (8 * inp.length) (c.pos + n.val) with hlt | hge
  · exact .inl ⟨hlt, bits_error h.clean (by omega)⟩
  · obtain ⟨c', hb, hc, hu⟩ := bits_ok (n := n) h.clean (by rw [hlen]; omega)
    have hi : c'.incnt ≤ inp.length := by
      rw [bits] at hb
      split at hb
      · cases hb
      · rename_i val i cnt hr
        simp only [Except.ok.injEq, Prod.mk.injEq] at hb
        rw [← hb.2]
        exact refill_le h.1 hr
    have hu' : Machine.upcoming inp c' = (allBits inp).drop (c.pos + n.val) := by rw [hu, h.upcoming, List.drop_drop]
    refine .inr ⟨hge, c', ?_, cursorInv_of_upcoming hc hi hge hu'⟩
    rw [hb, h.upcoming, fieldAt, streamBits_eq inp hge]

/-- `bits` keeps the residual-buffer invariant and moves the position by the field's width. -/
theorem CursorInv.bits {inp : List Byte} {c c' : Cursor} {n : Fin 17} {v : Nat} (h : CursorInv inp c)
    (hb : Machine.bits inp n c = .ok (v, c')) : CursorInv inp c' ∧ c'.pos = c.pos + n.val ∧ v = fieldAt inp c.pos n.val := by
  rcases bits_cases h n with ⟨-, he⟩ | ⟨-, d, he, hd, hp⟩
  · rw [he] at hb; cases hb
  · rw [he] at hb
    simp only [Except.ok.injEq, Prod.mk.injEq] at hb
    rw [← hb.2, ← hb.1]
    exact ⟨hd, hp, rfl⟩

theorem CursorInv.align {inp : List Byte} {c : Cursor} (h : CursorInv inp c) :
    CursorInv inp (Machine.align c) ∧ (Machine.align c).pos = 8 * c.incnt := by
  refine ⟨⟨h.1, fun _ => rfl, fun hn => absurd rfl hn⟩, ?_⟩
  simp [Cursor.pos, Machine.align]

end Sys2Proof.Machine
end

