-- ==== Sys2Proof/Laws/Decoder.lean ====
section
/-! SUPPORT. The symbol decoder against the codewords: what the loop of `decode` answers, in terms of the value of the
first bits ahead (rules R111 to R114). -/

namespace Sys2Proof.Machine

/-- The value of the `l` stream bits from `p` on as a codeword: the first is the most significant (rule R46). -/
def codeAt (inp : List Byte) (p : Nat) : Nat → Nat
  | 0 => 0
  | l + 1 => 2 * codeAt inp p l + (streamBit inp (p + l)).toNat

theorem codeAt_lt (inp : List Byte) (p l : Nat) : codeAt inp p l < 2 ^ l := by
  induction l with
  | zero => simp [codeAt]
  | succ l ih =>
    have : (streamBit inp (p + l)).toNat ≤ 1 := Bool.toNat_le _
    rw [codeAt, Nat.pow_succ]; omega

theorem msbBits_succ (n v : Nat) : msbBits (n + 1) v = msbBits n (v / 2) ++ [v.testBit 0] := by
  rw [msbBits, lsbBits, List.range_succ_eq_map]
  simp [msbBits, lsbBits, Function.comp_def, Nat.testBit_succ]

/-- A codeword's bits stand at a position exactly when the value read there is the codeword's. -/
theorem streamBits_eq_msbBits {inp : List Byte} {p l v : Nat} (hv : v < 2 ^ l) :
    streamBits inp p l = msbBits l v ↔ codeAt inp p l = v := by
  induction l generalizing v with
  | zero =>
    have : v = 0 := by simpa using hv
    simp [streamBits, msbBits, lsbBits, codeAt, this]
  | succ l ih =>
    have h1 : streamBits inp p (l + 1) = streamBits inp p l ++ [streamBit inp (p + l)] := by
      rw [streamBits_append]; simp [streamBits]
    have hv2 : v / 2 < 2 ^ l := by rw [Nat.pow_succ] at hv; omega
    have happ : ∀ (a b : List Bool) (x y : Bool), a.length = b.length → (a ++ [x] = b ++ [y] ↔ a = b ∧ x = y) := by
      intro a b x y hl
      constructor
      · intro h
        have := List.append_inj h hl
        exact ⟨this.1, by simpa using this.2⟩
      · rintro ⟨rfl, rfl⟩; rfl
    rw [h1, msbBits_succ, happ _ _ _ _ (by simp), ih hv2, codeAt, Nat.testBit_zero]
    cases streamBit inp (p + l) <;> simp <;> omega

theorem codeAt_mul_le (inp : List Byte) (p l k : Nat) :
    codeAt inp p l * 2 ^ k ≤ codeAt inp p (l + k) ∧ codeAt inp p (l + k) < (codeAt inp p l + 1) * 2 ^ k := by
  induction k with
  | zero => simp
  | succ k ih =>
    have : (streamBit inp (p + (l + k))).toNat ≤ 1 := Bool.toNat_le _
    rw [← Nat.add_assoc, codeAt, Nat.pow_succ]
    have e1 : codeAt inp p l * (2 ^ k * 2) = 2 * (codeAt inp p l * 2 ^ k) := by ring
    have e2 : (codeAt inp p l + 1) * (2 ^ k * 2) = 2 * ((codeAt inp p l + 1) * 2 ^ k) := by ring
    omega

theorem fieldAt_one (inp : List Byte) (p : Nat) : fieldAt inp p 1 = (streamBit inp p).toNat := by
  simp [fieldAt, streamBits, bitsValue]

/-- What the loop of `decode` answers from length `m + 1` on, over a table that holds a code: the symbol of the first
length whose range the bits read fall into, or, when they fall into none, the fault. -/
theorem decodeFrom_cases {w cap : Nat} {t : Table w cap} {lens : List Nat} (ht : Holds t lens) (inp : List Byte)
    (p fuel m : Nat) (c : Cursor) (hc : CursorInv inp c) (hp : c.pos = p + m) (hm : m + fuel = 15)
    (hge : nextCode lens m ≤ codeAt inp p m) :
    (∃ (l s : Nat) (d : Cursor) (regs : DecoderRegs), m < l ∧ l ≤ 15 ∧ p + l ≤ 8 * inp.length ∧
        codewordOf lens s = some (l, codeAt inp p l) ∧ t.symbolAt (cumulative lens (l - 1) + lenCount (lens.take s) l) = some s ∧
        decodeFrom t inp fuel (m + 1) (2 * codeAt inp p m) (firstCode lens (m + 1)) (cumulative lens m) c =
          .ok { sym := s, cur := d, regs := regs } ∧ CursorInv inp d ∧ d.pos = p + l) ∨
    ((∀ l, m ≤ l → l ≤ 15 → p + l ≤ 8 * inp.length → nextCode lens l ≤ codeAt inp p l) ∧
      decodeFrom t inp fuel (m + 1) (2 * codeAt inp p m) (firstCode lens (m + 1)) (cumulative lens m) c =
        .error (if 8 * inp.length < p + 15 then .truncated else .undecodable)) := by
  induction fuel generalizing m c with
  | zero =>
    have hle := hc.pos_le
    right
    refine ⟨fun l h1 h2 _ => ?_, ?_⟩
    · have : l = m := by omega
      rwa [this]
    · rw [decodeFrom, if_neg (by omega)]
  | succ fuel ih =>
    rcases bits_cases hc 1 with ⟨hlt, he⟩ | ⟨hle, d, he, hd, hdp⟩
    · right
      refine ⟨fun l h1 h2 h3 => ?_, ?_⟩
      · have : l = m := by simp at hlt; omega
        rwa [this]
      · rw [decodeFrom, he, if_pos (by simp at hlt; omega)]
    · simp only [Fin.val_one] at hle hdp he
      have hor : 2 * codeAt inp p m ||| fieldAt inp c.pos 1 = codeAt inp p (m + 1) := by
        rw [fieldAt_one, hp, codeAt]
        have := Nat.two_pow_add_eq_or_of_lt (i := 1) (b := (streamBit inp (p + m)).toNat)
          (by have := Bool.toNat_le (streamBit inp (p + m)); omega) (codeAt inp p m)
        simpa using this.symm
      have hf : firstCode lens (m + 1) ≤ codeAt inp p (m + 1) := by
        rw [firstCode_succ, codeAt]; omega
      have hn : nextCode lens (m + 1) = firstCode lens (m + 1) + lenCount lens (m + 1) := by simp [nextCode]
      rw [decodeFrom, he]
      simp only [hor, ht.count (m + 1) (by omega)]
      by_cases hhit : codeAt inp p (m + 1) < firstCode lens (m + 1) + lenCount lens (m + 1)
      · left
        have hj : codeAt inp p (m + 1) - firstCode lens (m + 1) < lenCount lens (m + 1) := by omega
        obtain ⟨s, hs1, hs2, hs3⟩ := symbolsOfLen_of_lt hj
        have hsym := ht.symbol (m + 1) _ (by omega) (by omega) hj
        rw [hs1, Nat.add_sub_cancel] at hsym
        rw [if_pos hhit, hsym]
        refine ⟨m + 1, s, d, _, by omega, by omega, by omega, ?_, ?_, rfl, hd, by omega⟩
        · exact codewordOf_eq_some.mpr ⟨by omega, hs2, by omega⟩
        · rw [hs3, Nat.add_sub_cancel, hsym]
      · rw [if_neg hhit]
        have hge' : nextCode lens (m + 1) ≤ codeAt inp p (m + 1) := by omega
        have e1 : codeAt inp p (m + 1) <<< 1 = 2 * codeAt inp p (m + 1) := by simp [Nat.shiftLeft_eq, Nat.mul_comm]
        have e2 : (firstCode lens (m + 1) + lenCount lens (m + 1)) <<< 1 = firstCode lens (m + 1 + 1) := by
          rw [← hn, firstCode_succ lens (m + 1)]; simp [Nat.shiftLeft_eq, Nat.mul_comm]
        rw [e1, e2, ← cumulative_succ]
        rcases ih (m + 1) d hd (by omega) (by omega) hge' with ⟨l, s, d', regs, h1, h2⟩ | ⟨h1, h2⟩
        · exact .inl ⟨l, s, d', regs, by omega, h2⟩
        · refine .inr ⟨fun l hl1 hl2 hl3 => ?_, h2⟩
          rcases Nat.eq_or_lt_of_le hl1 with rfl | hl
          · exact hge
          · exact h1 l (by omega) hl2 hl3

/-- What `decode` answers over a table that holds a code (rules R111 to R113). -/
theorem decodeSym_cases {w cap : Nat} {t : Table w cap} {lens : List Nat} (ht : Holds t lens) {inp : List Byte}
    {c : Cursor} (hc : CursorInv inp c) :
    (∃ (l s : Nat) (d : Cursor) (regs : DecoderRegs), 1 ≤ l ∧ l ≤ 15 ∧ c.pos + l ≤ 8 * inp.length ∧
        codewordOf lens s = some (l, codeAt inp c.pos l) ∧
        decodeSym t inp c = .ok { sym := s, cur := d, regs := regs } ∧ CursorInv inp d ∧ d.pos = c.pos + l) ∨
    ((∀ l, l ≤ 15 → c.pos + l ≤ 8 * inp.length → nextCode lens l ≤ codeAt inp c.pos l) ∧
      decodeSym t inp c = .error (if 8 * inp.length < c.pos + 15 then .truncated else .undecodable)) := by
  have h := decodeFrom_cases ht inp c.pos 15 0 c hc rfl rfl (by simp [nextCode, firstCode])
  have h0 : firstCode lens (0 + 1) = 0 := by simp [firstCode]
  have h1 : cumulative lens 0 = 0 := rfl
  simp only [h0, h1, codeAt, Nat.mul_zero] at h
  rcases h with ⟨l, s, d, regs, h1, h2, h3, h4, -, h5, h6⟩ | ⟨h1, h2⟩
  · exact .inl ⟨l, s, d, regs, h1, h2, h3, h4, h5, h6⟩
  · exact .inr ⟨fun l => h1 l (Nat.zero_le _), h2⟩

/-- A codeword ahead is found: no shorter range holds the bits read. -/
theorem codeword_is_first {lens : List Nat} {inp : List Byte} {p s l l' : Nat}
    (h : codewordOf lens s = some (l, codeAt inp p l)) (hl : l' < l) : nextCode lens l' ≤ codeAt inp p l' := by
  by_contra hlt
  have h1 := (codewordOf_bounds h).1
  have h2 := nextCode_mul_le lens l' (l - l' - 1)
  have h3 := (codeAt_mul_le inp p l' (l - l')).2
  rw [show l' + (l - l' - 1) + 1 = l by omega, show l - l' - 1 + 1 = l - l' by omega] at h2
  rw [show l' + (l - l') = l by omega] at h3
  have h4 : (codeAt inp p l' + 1) * 2 ^ (l - l') ≤ nextCode lens l' * 2 ^ (l - l') :=
    Nat.mul_le_mul_right _ (by omega)
  omega

/-- `decode` gives a symbol of the code, and consumes its codeword. -/
theorem decodeSym_ok {w cap : Nat} {t : Table w cap} {lens : List Nat} (ht : Holds t lens) {inp : List Byte}
    {c : Cursor} {d : Decoded} (hc : CursorInv inp c) (h : decodeSym t inp c = .ok d) :
    d.sym < lens.length ∧ CursorInv inp d.cur ∧ c.pos < d.cur.pos := by
  rcases decodeSym_cases ht hc with ⟨l, s, d', regs, h1, -, -, h4, h5, h6, h7⟩ | ⟨-, h2⟩
  · rw [h5] at h
    obtain rfl := Except.ok.inj h
    have := (codewordOf_eq_some.mp h4).2.1
    exact ⟨(List.getElem?_eq_some_iff.mp this).1, h6, by simp only; omega⟩
  · rw [h2] at h; cases h

/-- `decode` over a table that holds a code has no other faults than the spec's two. -/
theorem decodeSym_error {w cap : Nat} {t : Table w cap} {lens : List Nat} (ht : Holds t lens) {inp : List Byte}
    {c : Cursor} {r : Reject} (hc : CursorInv inp c) (h : decodeSym t inp c = .error r) :
    r = .truncated ∨ r = .undecodable := by
  rcases decodeSym_cases ht hc with ⟨l, s, d', regs, -, -, -, -, h5, -⟩ | ⟨-, h2⟩
  · rw [h5] at h; cases h
  · rw [h2] at h
    obtain rfl := Except.error.inj h
    split <;> simp

end Sys2Proof.Machine
end

