-- ==== Sys2Proof/Laws/Memory.lean ====
section
/-! SUPPORT. The window memory: a read after a write, the canonical form, and what `output` and `copy` do to them. -/

namespace Sys2Proof.Machine

@[simp] theorem memLookup_memWrite_same (m : List Host.Cell) (a : Nat) (b : Byte) :
    memLookup (memWrite m a b) a = some b := by
  induction m with
  | nil => simp [memWrite, memLookup]
  | cons p m ih =>
    obtain ⟨x, v⟩ := p
    simp only [memWrite]
    split
    · simp [memLookup]
    · split
      · simp [memLookup]
      · simp [memLookup, *]

theorem memLookup_memWrite_other (m : List Host.Cell) {a c : Nat} (b : Byte) (h : c ≠ a) :
    memLookup (memWrite m a b) c = memLookup m c := by
  induction m with
  | nil => simp [memWrite, memLookup, h.symm]
  | cons p m ih =>
    obtain ⟨x, v⟩ := p
    simp only [memWrite]
    split
    · simp [memLookup, h.symm]
    · split
      · subst x; simp [memLookup, h.symm]
      · simp [memLookup, ih]

theorem memWfFrom_mono {lo lo' : Nat} {m : List Host.Cell} (hle : lo' ≤ lo) (h : memWfFrom lo m = true) :
    memWfFrom lo' m = true := by
  cases m with
  | nil => rfl
  | cons p m =>
    simp only [memWfFrom, Bool.and_eq_true, decide_eq_true_eq] at h ⊢
    exact ⟨by omega, h.2⟩

theorem memWfFrom_memWrite {lo : Nat} {m : List Host.Cell} {a : Nat} (b : Byte) (h : memWfFrom lo m = true)
    (hlo : lo ≤ a) (ha : a < Config.wsize) : memWfFrom lo (memWrite m a b) = true := by
  induction m generalizing lo with
  | nil => simp [memWrite, memWfFrom, hlo, ha]
  | cons p m ih =>
    obtain ⟨x, v⟩ := p
    simp only [memWfFrom, Bool.and_eq_true, decide_eq_true_eq] at h
    simp only [memWrite]
    split
    · simp only [memWfFrom, Bool.and_eq_true, decide_eq_true_eq]
      exact ⟨hlo, ha, by omega, h.2⟩
    · split
      · subst x
        simp only [memWfFrom, Bool.and_eq_true, decide_eq_true_eq]
        exact h
      · simp only [memWfFrom, Bool.and_eq_true, decide_eq_true_eq]
        exact ⟨h.1, h.2.1, ih h.2.2 (by omega)⟩

theorem memWf_memWrite {m : List Host.Cell} {a : Nat} (b : Byte) (h : memWf m = true) (ha : a < Config.wsize) :
    memWf (memWrite m a b) = true :=
  memWfFrom_memWrite b h (Nat.zero_le _) ha

@[simp] theorem memWf_nil : memWf [] = true := rfl

theorem reset_memWf : memWf State.reset.window = true := rfl

theorem output_memWf {s : State} (b : Byte) (h : memWf s.window = true) : memWf (output s b).window = true :=
  memWf_memWrite b h (by simp [Config.wsize]; omega)

/-- What `copy` does not touch, and that it keeps the canonical form. -/
theorem copyLoop_frame (dist n : Nat) (s : State) :
    (copyLoop dist n s).host = s.host ∧ (copyLoop dist n s).input = s.input ∧ (copyLoop dist n s).cur = s.cur ∧
      (copyLoop dist n s).winDraw = s.winDraw ∧ (copyLoop dist n s).bfinal = s.bfinal ∧
      (copyLoop dist n s).btype = s.btype ∧ (copyLoop dist n s).phase = s.phase ∧ (copyLoop dist n s).sub = s.sub ∧
      (copyLoop dist n s).faultCode = s.faultCode ∧ (copyLoop dist n s).blk = s.blk ∧
      (copyLoop dist n s).draws = s.draws ∧ (copyLoop dist n s).params = s.params := by
  induction n generalizing s with
  | zero => simp [copyLoop]
  | succ n ih => simpa [copyLoop] using ih (output s (s.winRead (s.copyAddr dist)))

theorem copyLoop_memWf (dist n : Nat) {s : State} (h : memWf s.window = true) :
    memWf (copyLoop dist n s).window = true := by
  induction n generalizing s with
  | zero => simpa [copyLoop]
  | succ n ih => exact ih (output_memWf _ h)

theorem copyLoop_outcnt (dist n : Nat) (s : State) : (copyLoop dist n s).outcnt = s.outcnt + n := by
  induction n generalizing s with
  | zero => rfl
  | succ n ih => simp [copyLoop, ih]; omega

/-- `copy` appends `n` bytes to `OUT` and leaves the earlier ones. -/
theorem copyLoop_out (dist n : Nat) (s : State) :
    ∃ bs : List Byte, bs.length = n ∧ (copyLoop dist n s).out = s.out ++ bs := by
  induction n generalizing s with
  | zero => exact ⟨[], rfl, by simp [copyLoop]⟩
  | succ n ih =>
    obtain ⟨bs, hl, hb⟩ := ih (output s (s.winRead (s.copyAddr dist)))
    exact ⟨s.winRead (s.copyAddr dist) :: bs, by simp [hl], by simp [copyLoop, hb]⟩

end Sys2Proof.Machine
end

