-- ==== Sys2Proof/Laws/Ops.lean ====
section
/-! SUPPORT. What each shared operation of the meanings can do, said once: taking a fault, the copy, the stored data, the
code lengths and the two final tables. -/

namespace Sys2Proof.Machine

/-- A fault forgets everything but the parameters, the host port, the input and the number of draws (rule R273). -/
theorem raiseFault_congr {s t : State} (f : FaultCode) (h1 : s.host = t.host) (h2 : s.input = t.input)
    (h3 : s.draws = t.draws) (h4 : s.params = t.params := by rfl) : raiseFault f s = raiseFault f t := by
  cases s; cases t
  simp only at h1 h2 h3 h4
  subst h1 h2 h3 h4
  rfl

theorem FaultCode.code_range (f : FaultCode) : 1 ≤ f.code.toNat ∧ f.code.toNat ≤ 10 := by cases f <;> decide

/-- `output` keeps the output invariant (rules R17, R20, R122). -/
theorem OutputInv.output {s : State} (h : OutputInv s) (b : Byte) : OutputInv (Machine.output s b) := by
  obtain ⟨h1, h2, h3⟩ := h
  have hw : Config.wsize = 32768 := rfl
  refine ⟨by simp [h1], ?_, fun k hk1 hk2 hk3 => ?_⟩
  · simp only [output_next, output_outcnt, BitVec.toNat_add, h2, hw]
    simp
  · have hcopy : (Machine.output s b).copyAddr k = (s.next.toNat + 1 + (32768 - k % 32768)) % 32768 := by
      simp only [State.copyAddr, output_next, BitVec.toNat_sub, BitVec.toNat_add, BitVec.toNat_ofNat]
      simp; omega
    simp only [output_window, output_out, output_outcnt] at hk2 ⊢
    by_cases hk : k = 1
    · subst hk
      have hn := s.next.isLt
      rw [hcopy, show (s.next.toNat + 1 + (32768 - 1 % 32768)) % 32768 = s.next.toNat by omega]
      simp [← h1]
    · have hne : (s.next.toNat + 1 + (32768 - k % 32768)) % 32768 ≠ s.next.toNat := by
        have hn := s.next.isLt
        omega
      rw [hcopy, memLookup_memWrite_other _ _ hne]
      have := h3 (k - 1) (by omega) (by omega) (by omega)
      rw [show s.outcnt - (k - 1) = s.outcnt + 1 - k by omega] at this
      rw [List.getElem?_append_left (by omega), ← this]
      congr 1
      simp only [State.copyAddr, BitVec.toNat_sub, BitVec.toNat_ofNat]
      omega

theorem copyLoop_outputInv (dist n : Nat) {s : State} (h : OutputInv s) : OutputInv (copyLoop dist n s) := by
  induction n generalizing s with
  | zero => exact h
  | succ n ih => exact ih (h.output _)

/-- The output invariant is about the output registers only. -/
theorem OutputInv.congr {s t : State} (h : OutputInv s) (h1 : t.out = s.out) (h2 : t.outcnt = s.outcnt)
    (h3 : t.next = s.next) (h4 : t.window = s.window) : OutputInv t := by
  unfold OutputInv at h ⊢
  simp only [State.copyAddr] at h ⊢
  rwa [h1, h2, h3, h4]

/-- The tables' invariant is about the two tables and the phase only. -/
theorem TablesInv.congr {s t : State} (h : TablesInv s) (h1 : t.blk.lltab = s.blk.lltab) (h2 : t.blk.dtab = s.blk.dtab)
    (h3 : t.phase = s.phase) : TablesInv t := by
  unfold TablesInv at h ⊢
  rwa [h1, h2, h3]

/-- The cells `copy` and the stored data do not write. -/
theorem copyLoop_lookup (dist n : Nat) (s : State) {a : Nat}
    (h : ∀ j, j < n → a ≠ (s.next + BitVec.ofNat 15 j).toNat) :
    memLookup (copyLoop dist n s).window a = memLookup s.window a := by
  induction n generalizing s with
  | zero => rfl
  | succ n ih =>
    rw [copyLoop, ih _ fun j hj => ?_, output_window, memLookup_memWrite_other]
    · simpa using h 0 (by omega)
    · have := h (j + 1) (by omega)
      rwa [output_next, BitVec.add_assoc, show (1 : BitVec 15) + BitVec.ofNat 15 j = BitVec.ofNat 15 (j + 1) by
        rw [Nat.add_comm, BitVec.ofNat_add]; rfl]

/-- `copy` faults or copies. -/
theorem copy_cases (p : Params) (n dist : Nat) (s : State) :
    (p.checkDist = true ∧ s.outcnt < dist ∧ copy p n dist s = .next (raiseFault .distanceTooFar s)) ∨
      ((p.checkDist = true → dist ≤ s.outcnt) ∧ copy p n dist s = .next (copyLoop dist n s)) := by
  unfold copy
  by_cases h : p.checkDist = true ∧ s.outcnt < dist
  · exact .inl ⟨h.1, h.2, if_pos h⟩
  · exact .inr ⟨fun hp => by by_contra hn; exact h ⟨hp, by omega⟩, if_neg h⟩

/-- The state in which the stored data have been moved: the bytes are output one by one. -/
def storedMoved : (n : Nat) → State → State
  | 0, s => s
  | n + 1, s => storedMoved n (output { s with
      cur := { s.cur with incnt := s.cur.incnt + 1 }, blk.scnt := s.blk.scnt - 1 } (s.input.getD s.cur.incnt 0))

/-- The stored data move all, or the input ends first (rule R142). -/
theorem storedLoop_cases (n : Nat) {s : State} (hb : s.cur.bitcnt = 0) (hi : s.cur.incnt ≤ s.input.length) :
    (s.cur.incnt + n ≤ s.input.length ∧ storedLoop n s = .next (endBlock (storedMoved n s))) ∨
      (s.input.length < s.cur.incnt + n ∧ storedLoop n s = .next (raiseFault .truncated s)) := by
  induction n generalizing s with
  | zero => exact .inl ⟨by omega, rfl⟩
  | succ n ih =>
    rw [storedLoop, if_neg (not_not_intro hb), nextbyte]
    cases hx : s.input[s.cur.incnt]? with
    | none =>
      have : s.input.length ≤ s.cur.incnt := by simpa using hx
      exact .inr ⟨by omega, rfl⟩
    | some b =>
      obtain ⟨hlt, rfl⟩ := List.getElem?_eq_some_iff.mp hx
      have hg : s.input.getD s.cur.incnt 0 = s.input[s.cur.incnt] := by simp [hlt]
      simp only [storedMoved, hg]
      rcases ih (s := output { s with
        cur := { s.cur with incnt := s.cur.incnt + 1 }, blk.scnt := s.blk.scnt - 1 } s.input[s.cur.incnt]) hb hlt with
        ⟨h1, h2⟩ | ⟨h1, h2⟩
      · simp only [output_cur, output_input] at h1
        exact .inl ⟨by omega, h2⟩
      · simp only [output_cur, output_input] at h1
        refine .inr ⟨by omega, ?_⟩
        exact h2.trans (congrArg Host.Outcome.next (raiseFault_congr _ rfl rfl rfl))

/-- What moving the stored data does to each field but the block's working registers. -/
theorem storedMoved_frame (n : Nat) {s : State} (h : s.cur.incnt + n ≤ s.input.length) :
    (storedMoved n s).out = s.out ++ (s.input.drop s.cur.incnt).take n ∧
      (storedMoved n s).outcnt = s.outcnt + n ∧
      (storedMoved n s).cur = { s.cur with incnt := s.cur.incnt + n } ∧
      (OutputInv s → OutputInv (storedMoved n s)) ∧
      (memWf s.window = true → memWf (storedMoved n s).window = true) ∧
      (∀ a, (∀ j, j < n → a ≠ (s.next + BitVec.ofNat 15 j).toNat) →
        memLookup (storedMoved n s).window a = memLookup s.window a) ∧
      storedMoved n s = { s with
        cur := (storedMoved n s).cur, out := (storedMoved n s).out, window := (storedMoved n s).window,
        next := (storedMoved n s).next, outcnt := (storedMoved n s).outcnt, blk := (storedMoved n s).blk } := by
  induction n generalizing s with
  | zero => exact ⟨by simp [storedMoved], rfl, rfl, id, id, fun _ _ => rfl, rfl⟩
  | succ n ih =>
    have hlt : s.cur.incnt < s.input.length := by omega
    obtain ⟨h1, h2, h3, h4, h5, h6, h7⟩ := ih (s := output { s with
      cur := { s.cur with incnt := s.cur.incnt + 1 }, blk.scnt := s.blk.scnt - 1 } (s.input.getD s.cur.incnt 0))
      (by simp only [output_cur, output_input]; omega)
    simp only [storedMoved]
    refine ⟨?_, ?_, ?_, fun h => h4 (OutputInv.output (OutputInv.congr h rfl rfl rfl rfl) _),
      fun h => h5 (output_memWf (s := { s with
        cur := { s.cur with incnt := s.cur.incnt + 1 }, blk.scnt := s.blk.scnt - 1 }) _ h), fun a ha => ?_, ?_⟩
    · rw [h1]
      simp only [output_out, output_cur, output_input]
      rw [List.drop_eq_getElem_cons hlt, List.take_succ_cons]
      simp [hlt]
    · rw [h2]; simp only [output_outcnt]; omega
    · rw [h3]; simp only [output_cur]; congr 1; omega
    · rw [h6 a fun j hj => ?_, output_window, memLookup_memWrite_other]
      · simpa using ha 0 (by omega)
      · have := ha (j + 1) (by omega)
        rwa [output_next, BitVec.add_assoc, show (1 : BitVec 15) + BitVec.ofNat 15 j = BitVec.ofNat 15 (j + 1) by
          rw [Nat.add_comm, BitVec.ofNat_add]; rfl]
    · rw [h7]; rfl

/-- The stored body faults on its complement check, or goes on to the data (rule R143). -/
theorem storedBody_cases (p : Params) (len nlen : BitVec 16) (s : State) :
    (p.checkNlen = true ∧ len ^^^ nlen ≠ 0xFFFF ∧
        storedBody p len nlen s = .next (raiseFault .storedLengthMismatch s)) ∨
      ((p.checkNlen = true → len ^^^ nlen = 0xFFFF) ∧
        storedBody p len nlen s =
          storedLoop len.toNat { s with blk.slen := len, blk.snlen := nlen, blk.scnt := len }) := by
  unfold storedBody
  by_cases h : p.checkNlen = true ∧ len ^^^ nlen ≠ 0xFFFF
  · exact .inl ⟨h.1, h.2, (if_pos h).trans (congrArg Host.Outcome.next (raiseFault_congr _ rfl rfl rfl))⟩
  · exact .inr ⟨fun hp => by_contra fun hn => h ⟨hp, hn⟩, if_neg h⟩

/-! ### The dynamic block -/

theorem overSubscribed_iff (r : Int) : overSubscribed r = true ↔ r < 0 := by simp [overSubscribed]

/-- `construct` over lengths within the store and at most 15, if it does not fail, leaves a usable table. -/
theorem construct_usable {w cap : Nat} (t : Table w cap) (b : BuilderRegs) {lens : List Nat} (h1 : lens.length ≤ cap)
    (h2 : ∀ l ∈ lens, l ≤ 15) (h3 : ¬ (construct t b lens).result < 0) : Usable (construct t b lens).table :=
  ⟨t, b, lens, h1, h2, by omega, rfl⟩

/-- The two final tables: built, or a fault (rules R173, R174). -/
theorem buildTables_cases (s : State) (ll d : List Nat) :
    let b := construct s.blk.lltab s.blk.builder ll
    let b' := construct s.blk.dtab b.regs d
    (0 ≤ b.result ∧ 0 ≤ b'.result ∧ buildTables s ll d = .next { s with
        blk.lltab := b.table, blk.dtab := b'.table, blk.builder := b'.regs, sub := .symbol }) ∨
      ((b.result < 0 ∨ b'.result < 0) ∧ buildTables s ll d = .next (raiseFault .overSubscribed s)) := by
  intro b b'
  simp only [buildTables, overSubscribed_iff]
  by_cases h : b.result < 0
  · exact .inr ⟨.inl h, if_pos h⟩
  · by_cases h' : b'.result < 0
    · exact .inr ⟨.inr h', by rw [if_neg h, if_pos h']⟩
    · exact .inl ⟨by omega, by omega, by rw [if_neg h, if_neg h']⟩

theorem setLengths_getElem? (v : Vector (BitVec 4) 316) {i n : Nat} (x : BitVec 4) (h : i + n ≤ 316) {k : Nat}
    (hk : k < 316) :
    (setLengths v i n x).toList[k]? = if i ≤ k ∧ k < i + n then some x else v.toList[k]? := by
  have hl : (v.toList.take i ++ List.replicate n x).length = i + n := by simp; omega
  have ht : (v.toList.take i).length = i := by simp; omega
  rw [setLengths, overwrite_getElem? _ _ _ hk, hl]
  by_cases h1 : k < i
  · rw [if_pos (by omega), if_neg (by omega), List.getElem?_append_left (by omega), List.getElem?_take_of_lt h1]
  · by_cases h2 : k < i + n
    · rw [if_pos h2, if_pos ⟨by omega, h2⟩, List.getElem?_append_right (by omega), ht,
        List.getElem?_replicate_of_lt (by omega)]
    · rw [if_neg h2, if_neg (by omega)]

/-- The state after `n` lengths `v` have been appended. -/
def appended (n : Nat) (v : BitVec 4) (s : State) : State := { s with
  blk.lengths := setLengths s.blk.lengths s.blk.index.toNat n v
  blk.index := BitVec.ofNat 9 (s.blk.index.toNat + n) }

/-- Appending lengths within the store: more are wanted, or the tables are built, or they are over-subscribed
(rules R166, R167). -/
theorem appendLengths_cases (n : Nat) (v : BitVec 4) {s : State} (h : s.blk.index.toNat + n ≤ 316) :
    let t := appended n v s
    let b := construct t.blk.lltab t.blk.builder (t.lensSlice 0 t.blk.nlen.toNat)
    let b' := construct t.blk.dtab b.regs (t.lensSlice t.blk.nlen.toNat t.blk.ndist.toNat)
    (s.blk.index.toNat + n < s.lensWanted ∧ appendLengths n v s = .next t) ∨
      (s.lensWanted ≤ s.blk.index.toNat + n ∧ 0 ≤ b.result ∧ 0 ≤ b'.result ∧ appendLengths n v s = .next { t with
        blk.lltab := b.table, blk.dtab := b'.table, blk.builder := b'.regs, sub := .symbol }) ∨
      (s.lensWanted ≤ s.blk.index.toNat + n ∧ (b.result < 0 ∨ b'.result < 0) ∧
        appendLengths n v s = .next (raiseFault .overSubscribed s)) := by
  intro t b b'
  simp only [appendLengths, if_neg (show ¬ 316 < s.blk.index.toNat + n by omega)]
  by_cases hw : s.blk.index.toNat + n < s.lensWanted
  · exact .inl ⟨hw, by rw [if_pos hw]; rfl⟩
  · rw [if_neg hw]
    rcases buildTables_cases t (t.lensSlice 0 t.blk.nlen.toNat) (t.lensSlice t.blk.nlen.toNat t.blk.ndist.toNat) with
      ⟨h1, h2, h3⟩ | ⟨h1, h2⟩
    · exact .inr (.inl ⟨by omega, h1, h2, h3⟩)
    · exact .inr (.inr ⟨by omega, h1, h2.trans (congrArg Host.Outcome.next (raiseFault_congr _ rfl rfl rfl))⟩)

/-- A repeat overruns, or appends (rule R172). -/
theorem repeatLength_cases (rep : Nat) (v : BitVec 4) (s : State) :
    (s.lensWanted < s.blk.index.toNat + rep ∧ repeatLength rep v s = .next (raiseFault .repeatOverrun s)) ∨
      (s.blk.index.toNat + rep ≤ s.lensWanted ∧
        repeatLength rep v s = appendLengths rep v { s with blk.rep := BitVec.ofNat 8 rep, blk.rlen := v }) := by
  simp only [repeatLength]
  split
  · exact .inl ⟨‹_›, congrArg Host.Outcome.next (raiseFault_congr _ rfl rfl rfl)⟩
  · exact .inr ⟨by omega, rfl⟩

/-- The decoded lengths are at most 15. -/
theorem lensSlice_le (s : State) (i n : Nat) : ∀ l ∈ s.lensSlice i n, l ≤ 15 := by
  intro l hl
  simp only [State.lensSlice, List.mem_map] at hl
  obtain ⟨x, -, rfl⟩ := hl
  have := x.isLt
  omega

theorem lensSlice_length_le (s : State) (i n : Nat) : (s.lensSlice i n).length ≤ n := by
  simp [State.lensSlice]

/-- The code-length code's lengths are at most 7, and there are 19. -/
theorem codeLens_le (v : Vector (BitVec 3) 19) :
    (v.toList.map (·.toNat)).length = 19 ∧ ∀ l ∈ v.toList.map (·.toNat), l ≤ 15 := by
  refine ⟨by simp, fun l hl => ?_⟩
  simp only [List.mem_map] at hl
  obtain ⟨x, -, rfl⟩ := hl
  have := x.isLt
  omega

end Sys2Proof.Machine
end

