-- ==== Sys2Proof/Laws/Elements.lean ====
section
/-! SUPPORT. What each element decoder answers from a cursor of the residual-buffer invariant and a table that holds a
code: which instructions, the cursor moved forward, and which faults (rules R130, R190, R278). -/

namespace Sys2Proof.Machine

theorem bind_eq_ok {α β : Type} {x : Except Reject α} {g : α → Except Reject β} {b : β} :
    (x >>= g) = .ok b ↔ ∃ a, x = .ok a ∧ g a = .ok b := by
  cases x <;> simp [bind, Except.bind]

theorem bind_eq_error {α β : Type} {x : Except Reject α} {g : α → Except Reject β} {r : Reject} :
    (x >>= g) = .error r ↔ x = .error r ∨ ∃ a, x = .ok a ∧ g a = .error r := by
  cases x <;> simp [bind, Except.bind]

theorem return_eq_ok {α : Type} {a b : α} : (return a : Except Reject α) = .ok b ↔ a = b := by
  simp [pure, Except.pure]

theorem return_ne_error {α : Type} {a : α} {r : Reject} : (return a : Except Reject α) ≠ .error r := by
  simp [pure, Except.pure]

theorem bits_error_eq {inp : List Byte} {n : Fin 17} {c : Cursor} {r : Reject} (hc : CursorInv inp c)
    (h : bits inp n c = .error r) : r = .truncated := by
  rcases bits_cases hc n with ⟨-, he⟩ | ⟨-, d, he, -⟩
  · rw [he] at h; exact (Except.error.inj h).symm
  · rw [he] at h; cases h

/-- The instruction of each length symbol, and its meaning. -/
theorem lengthInstr_some {k : Nat} (e : Nat) (h : k < 29) :
    ∃ i, lengthInstr k e = some i ∧ i.wellFormed = true ∧
      ∀ s, exec i s = lengthSymbol s (257 + k) (e % 2 ^ (lext.getD k 0).val) := by
  interval_cases k <;>
    exact ⟨_, rfl, rfl, fun s => by
      simp [exec, lext, Nat.mod_one, execLsym257, execLsym258, execLsym259, execLsym260, execLsym261, execLsym262,
        execLsym263, execLsym264, execLsym265, execLsym266, execLsym267, execLsym268, execLsym269, execLsym270,
        execLsym271, execLsym272, execLsym273, execLsym274, execLsym275, execLsym276, execLsym277, execLsym278,
        execLsym279, execLsym280, execLsym281, execLsym282, execLsym283, execLsym284, execLsym285]⟩

/-- The instruction of each distance symbol, and its meaning. -/
theorem distanceInstr_some {d : Nat} (e : Nat) (h : d < 30) :
    ∃ i, distanceInstr d e = some i ∧ i.wellFormed = true ∧
      ∀ s, exec i s = distanceSymbol s d (e % 2 ^ (dext.getD d 0).val) := by
  interval_cases d <;>
    exact ⟨_, rfl, rfl, fun s => by
      simp [exec, dext, Nat.mod_one, execDsym0, execDsym1, execDsym2, execDsym3, execDsym4, execDsym5, execDsym6,
        execDsym7, execDsym8, execDsym9, execDsym10, execDsym11, execDsym12, execDsym13, execDsym14, execDsym15,
        execDsym16, execDsym17, execDsym18, execDsym19, execDsym20, execDsym21, execDsym22, execDsym23, execDsym24,
        execDsym25, execDsym26, execDsym27, execDsym28, execDsym29]⟩

/-- Lengths lie from 3 to 258. -/
theorem lengthOf_range {k : Nat} (e : Nat) (h : k < 29) :
    3 ≤ lengthOf (257 + k) (e % 2 ^ (lext.getD k 0).val) ∧ lengthOf (257 + k) (e % 2 ^ (lext.getD k 0).val) ≤ 258 := by
  interval_cases k <;> simp [lengthOf, lbase, lext, Nat.mod_one] <;> omega

/-- Distances lie from 1 to 32768. -/
theorem distanceOf_range {d : Nat} (e : Nat) (h : d < 30) :
    1 ≤ distanceOf d (e % 2 ^ (dext.getD d 0).val) ∧ distanceOf d (e % 2 ^ (dext.getD d 0).val) ≤ 32768 := by
  interval_cases d <;> simp [distanceOf, dbase, dext, Nat.mod_one] <;> omega

/-- The cursor has moved forward within the input. -/
def Forward (inp : List Byte) (c d : Cursor) : Prop := CursorInv inp d ∧ c.pos < d.pos

theorem bits_forward {inp : List Byte} {n : Fin 17} {c d : Cursor} {v : Nat} (hc : CursorInv inp c)
    (h : bits inp n c = .ok (v, d)) (hn : 0 < n.val) : Forward inp c d := by
  obtain ⟨h1, h2, -⟩ := hc.bits h
  exact ⟨h1, by omega⟩

theorem Forward.bits {inp : List Byte} {n : Fin 17} {c d d' : Cursor} {v : Nat} (h : Forward inp c d)
    (hb : Machine.bits inp n d = .ok (v, d')) : Forward inp c d' := by
  obtain ⟨h1, h2, -⟩ := h.1.bits hb
  exact ⟨h1, by have := h.2; omega⟩

theorem headerInstr_cases (f t : Nat) :
    (∃ b, headerInstr f t = .blockStored b) ∨ (∃ b, headerInstr f t = .blockFixed b) ∨
      (∃ b, headerInstr f t = .blockDynamic b) ∨ ∃ b, headerInstr f t = .blockReserved b := by
  unfold headerInstr
  split <;> simp

theorem decodeHeader_ok {inp : List Byte} {c : Cursor} {f : Fetched} (hc : CursorInv inp c)
    (h : decodeHeader inp c = .ok f) :
    Forward inp c f.cur ∧ ∃ x y, f.instr = headerInstr x y := by
  simp only [decodeHeader, bind_eq_ok, return_eq_ok] at h
  obtain ⟨⟨x, d⟩, h1, ⟨y, d'⟩, h2, rfl⟩ := h
  exact ⟨(bits_forward hc h1 (by decide)).bits h2, x, y, rfl⟩

theorem decodeHeader_error {inp : List Byte} {c : Cursor} {r : Reject} (hc : CursorInv inp c)
    (h : decodeHeader inp c = .error r) : r = .truncated := by
  simp only [decodeHeader, bind_eq_error, return_ne_error, and_false, exists_false, or_false] at h
  rcases h with h | ⟨⟨x, d⟩, h1, h2⟩
  · exact bits_error_eq hc h
  · exact bits_error_eq (hc.bits h1).1 h2

theorem decodeStored_ok {inp : List Byte} {c : Cursor} {f : Fetched} (hc : CursorInv inp c)
    (h : decodeStored inp c = .ok f) :
    Forward inp c f.cur ∧ f.cur.bitcnt = 0 ∧ ∃ l n, f.instr = .storedBody l n := by
  simp only [decodeStored, bind_eq_ok, return_eq_ok] at h
  obtain ⟨⟨x, d⟩, h1, ⟨y, d'⟩, h2, rfl⟩ := h
  obtain ⟨ha, hap⟩ := hc.align
  obtain ⟨hd, hdp, -⟩ := ha.bits h1
  obtain ⟨hd', hdp', -⟩ := hd.bits h2
  have h16 : (16 : Fin 17).val = 16 := rfl
  have hp := hc.pos_add
  have hp' := hd'.pos_add
  have hlt := d'.bitcnt.isLt
  refine ⟨⟨hd', by simp only; omega⟩, BitVec.eq_of_toNat_eq ?_, _, _, rfl⟩
  show d'.bitcnt.toNat = 0
  omega

theorem decodeStored_error {inp : List Byte} {c : Cursor} {r : Reject} (hc : CursorInv inp c)
    (h : decodeStored inp c = .error r) : r = .truncated := by
  simp only [decodeStored, bind_eq_error, return_ne_error, and_false, exists_false, or_false] at h
  rcases h with h | ⟨⟨x, d⟩, h1, h2⟩
  · exact bits_error_eq hc.align.1 h
  · exact bits_error_eq (hc.align.1.bits h1).1 h2

theorem decodeCounts_ok {inp : List Byte} {c : Cursor} {f : Fetched} (hc : CursorInv inp c)
    (h : decodeCounts inp c = .ok f) : Forward inp c f.cur ∧ ∃ l d n, f.instr = .dynHeader l d n := by
  simp only [decodeCounts, bind_eq_ok, return_eq_ok] at h
  obtain ⟨⟨x, d⟩, h1, ⟨y, d'⟩, h2, ⟨z, d''⟩, h3, rfl⟩ := h
  exact ⟨((bits_forward hc h1 (by decide)).bits h2).bits h3, _, _, _, rfl⟩

theorem decodeCounts_error {inp : List Byte} {c : Cursor} {r : Reject} (hc : CursorInv inp c)
    (h : decodeCounts inp c = .error r) : r = .truncated := by
  simp only [decodeCounts, bind_eq_error, return_ne_error, and_false, exists_false, or_false] at h
  rcases h with h | ⟨⟨x, d⟩, h1, h | ⟨⟨y, d'⟩, h2, h3⟩⟩
  · exact bits_error_eq hc h
  · exact bits_error_eq (hc.bits h1).1 h
  · exact bits_error_eq ((hc.bits h1).1.bits h2).1 h3

theorem readCodeLens_ok {inp : List Byte} {n : Nat} {c d : Cursor} {ls : List (BitVec 3)} (hc : CursorInv inp c)
    (h : readCodeLens inp n c = .ok (ls, d)) :
    CursorInv inp d ∧ d.pos = c.pos + 3 * n ∧ ls.length = n := by
  induction n generalizing c ls with
  | zero =>
    simp only [readCodeLens, Except.ok.injEq, Prod.mk.injEq] at h
    obtain ⟨rfl, rfl⟩ := h
    exact ⟨hc, rfl, rfl⟩
  | succ n ih =>
    simp only [readCodeLens, bind_eq_ok, return_eq_ok, Prod.mk.injEq] at h
    obtain ⟨⟨x, e⟩, h1, ⟨y, e'⟩, h2, rfl, rfl⟩ := h
    obtain ⟨he, hep, -⟩ := hc.bits h1
    obtain ⟨h3, h4, h5⟩ := ih he h2
    refine ⟨h3, ?_, by simp [h5]⟩
    rw [show (3 : Fin 17).val = 3 from rfl] at hep
    change e'.pos = _ at h4 ⊢
    omega

theorem readCodeLens_error {inp : List Byte} {n : Nat} {c : Cursor} {r : Reject} (hc : CursorInv inp c)
    (h : readCodeLens inp n c = .error r) : r = .truncated := by
  induction n generalizing c with
  | zero => cases h
  | succ n ih =>
    simp only [readCodeLens, bind_eq_error, return_ne_error, and_false, exists_false, or_false] at h
    rcases h with h | ⟨⟨x, d⟩, h1, h2⟩
    · exact bits_error_eq hc h
    · exact ih (hc.bits h1).1 h2

theorem decodeCodeLens_ok {inp : List Byte} {n : Nat} {c : Cursor} {f : Fetched} (hc : CursorInv inp c) (hn : 1 ≤ n)
    (h : decodeCodeLens n inp c = .ok f) : Forward inp c f.cur ∧ ∃ ls, ls.length = n ∧ f.instr = .cllens ls := by
  simp only [decodeCodeLens, bind_eq_ok, return_eq_ok] at h
  obtain ⟨⟨ls, d⟩, h1, rfl⟩ := h
  obtain ⟨h2, h3, h4⟩ := readCodeLens_ok hc h1
  exact ⟨⟨h2, by simp only; omega⟩, ls, h4, rfl⟩

theorem decodeCodeLens_error {inp : List Byte} {n : Nat} {c : Cursor} {r : Reject} (hc : CursorInv inp c)
    (h : decodeCodeLens n inp c = .error r) : r = .truncated := by
  simp only [decodeCodeLens, bind_eq_error, return_ne_error, and_false, exists_false, or_false] at h
  exact readCodeLens_error hc h

theorem decodeCodeSym_ok {t : Table 5 19} {lens : List Nat} {first : Bool} {inp : List Byte} {c : Cursor} {f : Fetched}
    (ht : Holds t lens) (hc : CursorInv inp c) (h : decodeCodeSym t first inp c = .ok f) :
    Forward inp c f.cur ∧ ((∃ v, f.instr = .cl0to15 v) ∨ (∃ r, f.instr = .cl16 r) ∨ (∃ r, f.instr = .cl17 r) ∨
      ∃ r, f.instr = .cl18 r) := by
  simp only [decodeCodeSym, bind_eq_ok] at h
  obtain ⟨d, hd, h⟩ := h
  obtain ⟨-, hfw⟩ := decodeSym_ok ht hc hd
  split at h
  · rw [return_eq_ok] at h; subst h; exact ⟨hfw, .inl ⟨_, rfl⟩⟩
  · split at h
    · split at h
      · rw [return_eq_ok] at h; subst h; exact ⟨hfw, .inr (.inl ⟨_, rfl⟩)⟩
      · simp only [bind_eq_ok, return_eq_ok] at h
        obtain ⟨⟨x, e⟩, h1, rfl⟩ := h
        exact ⟨Forward.bits hfw h1, .inr (.inl ⟨_, rfl⟩)⟩
    · split at h
      · simp only [bind_eq_ok, return_eq_ok] at h
        obtain ⟨⟨x, e⟩, h1, rfl⟩ := h
        exact ⟨Forward.bits hfw h1, .inr (.inr (.inl ⟨_, rfl⟩))⟩
      · split at h
        · simp only [bind_eq_ok, return_eq_ok] at h
          obtain ⟨⟨x, e⟩, h1, rfl⟩ := h
          exact ⟨Forward.bits hfw h1, .inr (.inr (.inr ⟨_, rfl⟩))⟩
        · cases h

theorem decodeCodeSym_error {t : Table 5 19} {lens : List Nat} {first : Bool} {inp : List Byte} {c : Cursor}
    {r : Reject} (ht : Holds t lens) (hl : lens.length ≤ 19) (hc : CursorInv inp c)
    (h : decodeCodeSym t first inp c = .error r) : r = .truncated ∨ r = .undecodable := by
  simp only [decodeCodeSym, bind_eq_error] at h
  rcases h with h | ⟨d, hd, h⟩
  · exact decodeSym_error ht hc h
  · obtain ⟨hs, hdc, -⟩ := decodeSym_ok ht hc hd
    split at h
    · exact absurd h return_ne_error
    · split at h
      · split at h
        · exact absurd h return_ne_error
        · simp only [bind_eq_error, return_ne_error, and_false, exists_false, or_false] at h
          exact .inl (bits_error_eq hdc h)
      · split at h
        · simp only [bind_eq_error, return_ne_error, and_false, exists_false, or_false] at h
          exact .inl (bits_error_eq hdc h)
        · split at h
          · simp only [bind_eq_error, return_ne_error, and_false, exists_false, or_false] at h
            exact .inl (bits_error_eq hdc h)
          · omega

theorem decodeSymbol_ok {t : Table 9 288} {lens : List Nat} {inp : List Byte} {c : Cursor} {f : Fetched}
    (ht : Holds t lens) (hc : CursorInv inp c) (h : decodeSymbol t inp c = .ok f) :
    Forward inp c f.cur ∧ ((∃ v, v < 256 ∧ f.instr = literalInstr v) ∨ f.instr = .eob ∨
      (∃ k e, k < 29 ∧ lengthInstr k e = some f.instr) ∨ f.instr = .ll286 ∨ f.instr = .ll287) := by
  simp only [decodeSymbol, bind_eq_ok] at h
  obtain ⟨d, hd, h⟩ := h
  obtain ⟨-, hfw⟩ := decodeSym_ok ht hc hd
  split at h
  · rename_i hk
    rw [return_eq_ok] at h
    subst h
    exact ⟨hfw, .inl ⟨d.sym, hk, rfl⟩⟩
  · split at h
    · rw [return_eq_ok] at h; subst h; exact ⟨hfw, .inr (.inl rfl)⟩
    · split at h
      · rename_i hk
        simp only [bind_eq_ok] at h
        obtain ⟨⟨x, e⟩, h1, h2⟩ := h
        split at h2
        · rename_i i hi
          rw [return_eq_ok] at h2
          subst h2
          exact ⟨Forward.bits hfw h1, .inr (.inr (.inl ⟨_, x, hk, hi⟩))⟩
        · cases h2
      · split at h
        · rw [return_eq_ok] at h; subst h; exact ⟨hfw, .inr (.inr (.inr (.inl rfl)))⟩
        · split at h
          · rw [return_eq_ok] at h; subst h; exact ⟨hfw, .inr (.inr (.inr (.inr rfl)))⟩
          · cases h

theorem decodeSymbol_error {t : Table 9 288} {lens : List Nat} {inp : List Byte} {c : Cursor} {r : Reject}
    (ht : Holds t lens) (hl : lens.length ≤ 288) (hc : CursorInv inp c) (h : decodeSymbol t inp c = .error r) :
    r = .truncated ∨ r = .undecodable := by
  simp only [decodeSymbol, bind_eq_error] at h
  rcases h with h | ⟨d, hd, h⟩
  · exact decodeSym_error ht hc h
  · obtain ⟨hs, hdc, -⟩ := decodeSym_ok ht hc hd
    split at h
    · exact absurd h return_ne_error
    · split at h
      · exact absurd h return_ne_error
      · split at h
        · rename_i hk
          simp only [bind_eq_error] at h
          rcases h with h | ⟨⟨x, e⟩, h1, h2⟩
          · exact .inl (bits_error_eq hdc h)
          · split at h2
            · exact absurd h2 return_ne_error
            · rename_i hn
              obtain ⟨i, hi, -⟩ := lengthInstr_some x hk
              exact absurd (hn.symm.trans hi) (by simp)
        · rename_i h1 h2 h3
          have h29 : Config.nLenSym = 29 := rfl
          split at h
          · exact absurd h return_ne_error
          · split at h
            · exact absurd h return_ne_error
            · omega

theorem codeBits_ok {inp : List Byte} {n code v : Nat} {c d : Cursor} (hc : CursorInv inp c)
    (h : codeBits inp n code c = .ok (v, d)) : CursorInv inp d ∧ d.pos = c.pos + n := by
  induction n generalizing code c with
  | zero =>
    simp only [codeBits, Except.ok.injEq, Prod.mk.injEq] at h
    obtain ⟨-, rfl⟩ := h
    exact ⟨hc, rfl⟩
  | succ n ih =>
    simp only [codeBits, bind_eq_ok] at h
    obtain ⟨⟨x, e⟩, h1, h2⟩ := h
    obtain ⟨he, hep, -⟩ := hc.bits h1
    obtain ⟨h3, h4⟩ := ih he h2
    refine ⟨h3, ?_⟩
    rw [show (1 : Fin 17).val = 1 from rfl] at hep
    omega

theorem unassignedPattern_some {inp : List Byte} {c : Cursor} {f : Fetched} (hc : CursorInv inp c)
    (h : unassignedPattern inp c = some f) : Forward inp c f.cur ∧ (f.instr = .dist30 ∨ f.instr = .dist31) := by
  unfold unassignedPattern at h
  split at h
  · rename_i d hd
    obtain ⟨h1, h2⟩ := codeBits_ok hc hd
    obtain rfl := Option.some.inj h
    exact ⟨⟨h1, by simp only; omega⟩, .inl rfl⟩
  · rename_i d hd
    obtain ⟨h1, h2⟩ := codeBits_ok hc hd
    obtain rfl := Option.some.inj h
    exact ⟨⟨h1, by simp only; omega⟩, .inr rfl⟩
  · cases h

theorem decodeDistance_ok {t : Table 5 30} {lens : List Nat} {fixed : Bool} {inp : List Byte} {c : Cursor} {f : Fetched}
    (ht : Holds t lens) (hc : CursorInv inp c) (h : decodeDistance t fixed inp c = .ok f) :
    Forward inp c f.cur ∧ ((∃ d e, d < 30 ∧ distanceInstr d e = some f.instr) ∨ f.instr = .dist30 ∨
      f.instr = .dist31) := by
  unfold decodeDistance at h
  split at h
  · rename_i g hg
    obtain rfl := Except.ok.inj h
    cases fixed
    · simp at hg
    · have := unassignedPattern_some hc hg
      exact ⟨this.1, .inr this.2⟩
  · simp only [bind_eq_ok] at h
    obtain ⟨d, hd, h⟩ := h
    obtain ⟨-, hfw⟩ := decodeSym_ok ht hc hd
    split at h
    · rename_i hk
      simp only [bind_eq_ok] at h
      obtain ⟨⟨x, e⟩, h1, h2⟩ := h
      split at h2
      · rename_i i hi
        rw [return_eq_ok] at h2
        subst h2
        exact ⟨Forward.bits hfw h1, .inl ⟨_, x, hk, hi⟩⟩
      · cases h2
    · cases h

theorem decodeDistance_error {t : Table 5 30} {lens : List Nat} {fixed : Bool} {inp : List Byte} {c : Cursor}
    {r : Reject} (ht : Holds t lens) (hl : lens.length ≤ 30) (hc : CursorInv inp c)
    (h : decodeDistance t fixed inp c = .error r) : r = .truncated ∨ r = .undecodable := by
  unfold decodeDistance at h
  split at h
  · cases h
  · simp only [bind_eq_error] at h
    rcases h with h | ⟨d, hd, h⟩
    · exact decodeSym_error ht hc h
    · obtain ⟨hs, hdc, -⟩ := decodeSym_ok ht hc hd
      rw [if_pos (show d.sym < Config.maxDCodes by simp only [Config.maxDCodes]; omega)] at h
      simp only [bind_eq_error] at h
      rcases h with h | ⟨⟨x, e⟩, h1, h2⟩
      · exact .inl (bits_error_eq hdc h)
      · obtain ⟨i, hi, -⟩ := distanceInstr_some x (show d.sym < 30 by omega)
        rw [hi] at h2
        exact absurd h2 return_ne_error

end Sys2Proof.Machine
end

