-- ==== Sys2Proof/Laws/PerInstr.lean ====
section
/-! SUPPORT. Per instruction, as syntax: a well-formed instruction is encoded in at least one stream bit, whatever
the codes (rule R278: each stream element consumes at least one bit). -/

namespace Sys2Proof.Laws.EncodesBits

open Sys2Proof.Machine

/-- Every encoding of a well-formed instruction has at least one bit. -/
def Statement (i : Instr) : Prop :=
  ∀ (cs : Codes) (bs : List Bool), i.wellFormed = true → encode cs i = some bs → 1 ≤ bs.length

/-- A codeword has at least one bit. -/
theorem codeword_pos {lens : List Nat} {s : Nat} {bs : List Bool} (h : codewordBits lens s = some bs) :
    1 ≤ bs.length := by
  simp only [codewordBits, Option.map_eq_some_iff] at h
  obtain ⟨p, hp, rfl⟩ := h
  unfold codewordOf at hp
  split at hp <;> simp_all [msbBits, lsbBits]
  subst hp
  simp

/-- So has a codeword followed by extra bits. -/
theorem codeword_extra_pos {lens : List Nat} {s : Nat} {ex bs : List Bool}
    (h : (codewordBits lens s).map (· ++ ex) = some bs) : 1 ≤ bs.length := by
  simp only [Option.map_eq_some_iff] at h
  obtain ⟨p, hp, rfl⟩ := h
  have := codeword_pos hp
  simp; omega

theorem blockStored (bfinal : BitVec 1) : Statement (.blockStored bfinal) := by
  intro cs bs _ h
  simp [encode, lsbBits] at h
  simp [← h]

theorem blockFixed (bfinal : BitVec 1) : Statement (.blockFixed bfinal) := by
  intro cs bs _ h
  simp [encode, lsbBits] at h
  simp [← h]

theorem blockDynamic (bfinal : BitVec 1) : Statement (.blockDynamic bfinal) := by
  intro cs bs _ h
  simp [encode, lsbBits] at h
  simp [← h]

theorem blockReserved (bfinal : BitVec 1) : Statement (.blockReserved bfinal) := by
  intro cs bs _ h
  simp [encode, lsbBits] at h
  simp [← h]

theorem storedBody (len : BitVec 16) (nlen : BitVec 16) : Statement (.storedBody len nlen) := by
  intro cs bs _ h
  simp [encode, lsbBits] at h
  simp [← h]

theorem dynHeader (hlit : BitVec 5) (hdist : BitVec 5) (hclen : BitVec 4) : Statement (.dynHeader hlit hdist hclen) := by
  intro cs bs _ h
  simp [encode, lsbBits] at h
  simp [← h]

theorem cllens (ls : List (BitVec 3)) : Statement (.cllens ls) := by
  intro cs bs hw h
  simp only [Instr.wellFormed, Bool.and_eq_true, decide_eq_true_eq] at hw
  simp only [encode, Option.some.injEq] at h
  subst h
  cases ls with
  | nil => simp at hw
  | cons v vs => simp [lsbBits]; omega

theorem cl0to15 (v : BitVec 4) : Statement (.cl0to15 v) := fun _ _ _ h => codeword_pos h

theorem cl16 (r : BitVec 2) : Statement (.cl16 r) := fun _ _ _ h => codeword_extra_pos h

theorem cl17 (r : BitVec 3) : Statement (.cl17 r) := fun _ _ _ h => codeword_extra_pos h

theorem cl18 (r : BitVec 7) : Statement (.cl18 r) := fun _ _ _ h => codeword_extra_pos h

theorem lit0to143 (b : Byte) : Statement (.lit0to143 b) := fun _ _ _ h => codeword_pos h

theorem lit144to255 (b : Byte) : Statement (.lit144to255 b) := fun _ _ _ h => codeword_pos h

theorem eob : Statement (.eob) := fun _ _ _ h => codeword_pos h

theorem lsym257 : Statement (.lsym257) := fun _ _ _ h => codeword_pos h

theorem lsym258 : Statement (.lsym258) := fun _ _ _ h => codeword_pos h

theorem lsym259 : Statement (.lsym259) := fun _ _ _ h => codeword_pos h

theorem lsym260 : Statement (.lsym260) := fun _ _ _ h => codeword_pos h

theorem lsym261 : Statement (.lsym261) := fun _ _ _ h => codeword_pos h

theorem lsym262 : Statement (.lsym262) := fun _ _ _ h => codeword_pos h

theorem lsym263 : Statement (.lsym263) := fun _ _ _ h => codeword_pos h

theorem lsym264 : Statement (.lsym264) := fun _ _ _ h => codeword_pos h

theorem lsym265 (e : BitVec 1) : Statement (.lsym265 e) := fun _ _ _ h => codeword_extra_pos h

theorem lsym266 (e : BitVec 1) : Statement (.lsym266 e) := fun _ _ _ h => codeword_extra_pos h

theorem lsym267 (e : BitVec 1) : Statement (.lsym267 e) := fun _ _ _ h => codeword_extra_pos h

theorem lsym268 (e : BitVec 1) : Statement (.lsym268 e) := fun _ _ _ h => codeword_extra_pos h

theorem lsym269 (e : BitVec 2) : Statement (.lsym269 e) := fun _ _ _ h => codeword_extra_pos h

theorem lsym270 (e : BitVec 2) : Statement (.lsym270 e) := fun _ _ _ h => codeword_extra_pos h

theorem lsym271 (e : BitVec 2) : Statement (.lsym271 e) := fun _ _ _ h => codeword_extra_pos h

theorem lsym272 (e : BitVec 2) : Statement (.lsym272 e) := fun _ _ _ h => codeword_extra_pos h

theorem lsym273 (e : BitVec 3) : Statement (.lsym273 e) := fun _ _ _ h => codeword_extra_pos h

theorem lsym274 (e : BitVec 3) : Statement (.lsym274 e) := fun _ _ _ h => codeword_extra_pos h

theorem lsym275 (e : BitVec 3) : Statement (.lsym275 e) := fun _ _ _ h => codeword_extra_pos h

theorem lsym276 (e : BitVec 3) : Statement (.lsym276 e) := fun _ _ _ h => codeword_extra_pos h

theorem lsym277 (e : BitVec 4) : Statement (.lsym277 e) := fun _ _ _ h => codeword_extra_pos h

theorem lsym278 (e : BitVec 4) : Statement (.lsym278 e) := fun _ _ _ h => codeword_extra_pos h

theorem lsym279 (e : BitVec 4) : Statement (.lsym279 e) := fun _ _ _ h => codeword_extra_pos h

theorem lsym280 (e : BitVec 4) : Statement (.lsym280 e) := fun _ _ _ h => codeword_extra_pos h

theorem lsym281 (e : BitVec 5) : Statement (.lsym281 e) := fun _ _ _ h => codeword_extra_pos h

theorem lsym282 (e : BitVec 5) : Statement (.lsym282 e) := fun _ _ _ h => codeword_extra_pos h

theorem lsym283 (e : BitVec 5) : Statement (.lsym283 e) := fun _ _ _ h => codeword_extra_pos h

theorem lsym284 (e : BitVec 5) : Statement (.lsym284 e) := fun _ _ _ h => codeword_extra_pos h

theorem lsym285 : Statement (.lsym285) := fun _ _ _ h => codeword_pos h

theorem ll286 : Statement (.ll286) := fun _ _ _ h => codeword_pos h

theorem ll287 : Statement (.ll287) := fun _ _ _ h => codeword_pos h

theorem dsym0 : Statement (.dsym0) := fun _ _ _ h => codeword_pos h

theorem dsym1 : Statement (.dsym1) := fun _ _ _ h => codeword_pos h

theorem dsym2 : Statement (.dsym2) := fun _ _ _ h => codeword_pos h

theorem dsym3 : Statement (.dsym3) := fun _ _ _ h => codeword_pos h

theorem dsym4 (e : BitVec 1) : Statement (.dsym4 e) := fun _ _ _ h => codeword_extra_pos h

theorem dsym5 (e : BitVec 1) : Statement (.dsym5 e) := fun _ _ _ h => codeword_extra_pos h

theorem dsym6 (e : BitVec 2) : Statement (.dsym6 e) := fun _ _ _ h => codeword_extra_pos h

theorem dsym7 (e : BitVec 2) : Statement (.dsym7 e) := fun _ _ _ h => codeword_extra_pos h

theorem dsym8 (e : BitVec 3) : Statement (.dsym8 e) := fun _ _ _ h => codeword_extra_pos h

theorem dsym9 (e : BitVec 3) : Statement (.dsym9 e) := fun _ _ _ h => codeword_extra_pos h

theorem dsym10 (e : BitVec 4) : Statement (.dsym10 e) := fun _ _ _ h => codeword_extra_pos h

theorem dsym11 (e : BitVec 4) : Statement (.dsym11 e) := fun _ _ _ h => codeword_extra_pos h

theorem dsym12 (e : BitVec 5) : Statement (.dsym12 e) := fun _ _ _ h => codeword_extra_pos h

theorem dsym13 (e : BitVec 5) : Statement (.dsym13 e) := fun _ _ _ h => codeword_extra_pos h

theorem dsym14 (e : BitVec 6) : Statement (.dsym14 e) := fun _ _ _ h => codeword_extra_pos h

theorem dsym15 (e : BitVec 6) : Statement (.dsym15 e) := fun _ _ _ h => codeword_extra_pos h

theorem dsym16 (e : BitVec 7) : Statement (.dsym16 e) := fun _ _ _ h => codeword_extra_pos h

theorem dsym17 (e : BitVec 7) : Statement (.dsym17 e) := fun _ _ _ h => codeword_extra_pos h

theorem dsym18 (e : BitVec 8) : Statement (.dsym18 e) := fun _ _ _ h => codeword_extra_pos h

theorem dsym19 (e : BitVec 8) : Statement (.dsym19 e) := fun _ _ _ h => codeword_extra_pos h

theorem dsym20 (e : BitVec 9) : Statement (.dsym20 e) := fun _ _ _ h => codeword_extra_pos h

theorem dsym21 (e : BitVec 9) : Statement (.dsym21 e) := fun _ _ _ h => codeword_extra_pos h

theorem dsym22 (e : BitVec 10) : Statement (.dsym22 e) := fun _ _ _ h => codeword_extra_pos h

theorem dsym23 (e : BitVec 10) : Statement (.dsym23 e) := fun _ _ _ h => codeword_extra_pos h

theorem dsym24 (e : BitVec 11) : Statement (.dsym24 e) := fun _ _ _ h => codeword_extra_pos h

theorem dsym25 (e : BitVec 11) : Statement (.dsym25 e) := fun _ _ _ h => codeword_extra_pos h

theorem dsym26 (e : BitVec 12) : Statement (.dsym26 e) := fun _ _ _ h => codeword_extra_pos h

theorem dsym27 (e : BitVec 12) : Statement (.dsym27 e) := fun _ _ _ h => codeword_extra_pos h

theorem dsym28 (e : BitVec 13) : Statement (.dsym28 e) := fun _ _ _ h => codeword_extra_pos h

theorem dsym29 (e : BitVec 13) : Statement (.dsym29 e) := fun _ _ _ h => codeword_extra_pos h

theorem dist30 : Statement (.dist30) := by
  intro cs bs _ h
  simp [encode, lsbBits, msbBits] at h
  simp [← h]

theorem dist31 : Statement (.dist31) := by
  intro cs bs _ h
  simp [encode, lsbBits, msbBits] at h
  simp [← h]

end Sys2Proof.Laws.EncodesBits
end

