-- ==== Sys2Proof/Laws/Step.lean ====
section
/-! SUPPORT. Everything a step can be: the reset input, an accepted `START`, or one stream element with the `START`
pulse dropped; and everything a stream element can be. -/

namespace Sys2Proof.Machine

/-- A step is one of three things. -/
theorem step_cases (s : State) :
    (s.host.reset = true ∧ step s = .next (hardwareReset s)) ∨
    (s.host.reset = false ∧ s.host.start = true ∧ s.busyFlag = false ∧ step s = .next (startRun s)) ∨
    (s.host.reset = false ∧ (s.host.start = false ∨ s.busyFlag = true) ∧
      step s = stepElement { s with host.start := false }) := by
  cases hr : s.host.reset
  · cases hs : s.host.start
    · have e : s = { s with host.start := false } := by rw [← hs]
      refine .inr (.inr ⟨rfl, .inl rfl, ?_⟩)
      rw [← e]
      simp [step, hr, hs]
    · cases hb : s.busyFlag
      · exact .inr (.inl ⟨rfl, rfl, rfl, by simp [step, hr, hs, hb]⟩)
      · exact .inr (.inr ⟨rfl, .inr rfl, by simp [step, hr, hs, hb]⟩)
  · exact .inl ⟨rfl, by simp [step, hr]⟩

/-- Outside a busy phase a stream element step changes nothing. -/
theorem stepElement_idle {s : State} (h : s.context = none) : stepElement s = .next s := by
  simp [stepElement, h]

/-- Where an element is decoded, the step is its `exec` after its bits. -/
theorem stepElement_ok {s : State} {ctx : Context} {f : Fetched} (hc : s.context = some ctx)
    (hd : decodeElement ctx s.input s.cur = .ok f) : stepElement s = exec f.instr (s.consume f) := by
  simp [stepElement, hc, hd]

/-- Where none is decoded, the step is the fault, or the stop, the reject names. -/
theorem stepElement_error {s : State} {ctx : Context} {r : Reject} (hc : s.context = some ctx)
    (hd : decodeElement ctx s.input s.cur = .error r) : stepElement s = rejected r s := by
  simp [stepElement, hc, hd]

/-- The sequencer has a context exactly in a busy phase. -/
theorem context_isSome (s : State) : s.context.isSome = s.busyFlag := by
  unfold State.context State.busyFlag
  cases s.phase <;> cases s.sub <;> rfl

end Sys2Proof.Machine
end

