-- ==== Sys2Proof/Tests/Slice0.lean ====
section
/-! SUPPORT. Tests of the model against the spec's own words and numbers (30_encoding.md, 48_symbol_emission.md,
95_test_vectors.md), and for every statement with hypotheses a witness that meets them. -/

namespace Sys2Proof.Tests

open Sys2Proof.Machine Sys2Proof.Claims

set_option Elab.async false

/-! ### Helpers -/

/-- Bits written as digits. -/
def bitsOf (ds : List Nat) : List Bool := ds.map (· == 1)

/-- The cursor at the start of the input. -/
def cur0 : Cursor := { incnt := 0, bitbuf := 0, bitcnt := 0 }

/-- Do these stream bits decode to this instruction, all of them consumed? -/
def reads (ctx : Context) (ds : List Nat) (i : Instr) : Bool :=
  match decodeElement ctx (packBits 8 (bitsOf ds) ++ List.replicate 4 0) cur0 with
  | .ok f => f.instr == i && f.cur.pos == ds.length
  | .error _ => false

/-- `reads` for each pair. -/
def allRead (ctx : Context) (l : List (List Nat × Instr)) : Bool := l.all fun p => reads ctx p.1 p.2

/-- Part of the next state. -/
def after {α : Type} (o : Host.Outcome State Fault Refusal) (f : State → α) : Option α :=
  match o with
  | .next t => some (f t)
  | .fault _ => none
  | .refused _ => none

/-- An outcome whose next state passes a check is that next state. -/
theorem next_of {o : Host.Outcome State Fault Refusal} {p : State → Bool} (h : after o p = some true) :
    ∃ t, o = .next t ∧ p t = true := by
  cases o with
  | next t => exact ⟨t, rfl, by simpa [after] using h⟩
  | fault f => cases h
  | refused r => cases h

/-- `construct`'s result, its counts for lengths 1 to 15, and the symbols it placed. -/
def built (lens : List Nat) : Int × List Nat × List Nat :=
  let b := construct BlockRegs.zero.lltab BlockRegs.zero.builder lens
  (b.result, (b.table.count.toList.drop 1).map (·.toNat),
    (b.table.symbol.toList.take (lens.countP (· != 0))).map (·.toNat))

/-- The symbol and the bits consumed, or the reject, of one `decode` with a code. -/
def decoded (lens : List Nat) (inp : List Byte) : Except Reject (Nat × Nat) :=
  (decodeSym (construct BlockRegs.zero.lltab BlockRegs.zero.builder lens).table inp cur0).map fun d => (d.sym, d.cur.pos)

/-- A fixed block in which `out` has been produced and a match of `length` bytes is under way. -/
def fixedAt (out : List Byte) (length : Nat) : State := { State.reset with
  phase := .fixed
  sub := .symbol
  out := out
  outcnt := out.length
  next := BitVec.ofNat 15 out.length
  window := out.zipIdx.map fun x => (x.2, x.1)
  blk.length := BitVec.ofNat 9 length
  blk.lltab := fixedLltab
  blk.dtab := fixedDtab }

/-- A block header about to be read. -/
def headerAt (inp : List Byte) : State := { State.reset with phase := .header, input := inp }

/-- A stored body whose LEN and NLEN have been read: its data bytes come next. -/
def storedAt (inp : List Byte) (bfinal : BitVec 1) : State := { State.reset with
  phase := .stored
  input := inp
  bfinal := bfinal }

/-- The parameters without the distance check. -/
def noCheckDist : Params := { checkDist := false, checkNlen := false }

/-- `storedAt` where the complement check is on. -/
def storedChecked (inp : List Byte) : State := { storedAt inp 1 with params.checkNlen := true }

/-- V3's table B: one symbol, with the codeword `0`. -/
def tableB : Table 9 288 := (construct BlockRegs.zero.lltab BlockRegs.zero.builder [1]).table

/-- A table whose only symbol is 300, with the codeword `0`. -/
def table300 : Table 9 288 := { tableB with symbol := Vector.replicate 288 300 }

/-- A dynamic block about to read a literal/length symbol from a table. -/
def symbolAt (t : Table 9 288) (inp : List Byte) : State := { State.reset with
  phase := .dynamic
  sub := .symbol
  input := inp
  blk.lltab := t }

/-- The code-length code of E5: 16 = 00, 17 = 01, 18 = 10, 0 = 110, 4 = 111. -/
def e5cl : List Nat := [3, 0, 0, 0, 3, 0, 0, 0, 0, 0, 0, 0, 0, 0, 0, 0, 2, 2, 2]

/-- Its table. -/
def e5table : Table 5 19 := (construct BlockRegs.zero.cltab BlockRegs.zero.builder e5cl).table

/-- A dynamic block reading code lengths, 257 + 1 wanted, `index` of them there, all `v`. -/
def lengthsAt (index : Nat) (v : BitVec 4) (inp : List Byte) : State := { State.reset with
  phase := .dynamic
  sub := .codeSyms
  input := inp
  blk.nlen := 257
  blk.ndist := 1
  blk.index := BitVec.ofNat 9 index
  blk.lengths := Vector.replicate 316 v
  blk.cltab := e5table }

/-! ### Well-formed instructions: one ill-formed term for each check -/

/-- Rule R70: 143 is the last byte of the 8-bit row. -/
theorem test_wellFormed_lit0to143 :
    (Instr.lit0to143 144).wellFormed = false ∧ (Instr.lit0to143 143).wellFormed = true := by decide

/-- Rule R70: 144 is the first byte of the 9-bit row. -/
theorem test_wellFormed_lit144to255 :
    (Instr.lit144to255 143).wellFormed = false ∧ (Instr.lit144to255 144).wellFormed = true := by decide

/-- Rule R79: HCLEN + 4 code-length code lengths, 4 to 19. -/
theorem test_wellFormed_cllens :
    (Instr.cllens (List.replicate 3 0)).wellFormed = false ∧ (Instr.cllens (List.replicate 20 0)).wellFormed = false ∧
      (Instr.cllens (List.replicate 4 0)).wellFormed = true ∧ (Instr.cllens (List.replicate 19 0)).wellFormed = true := by
  decide

/-! ### The Bit Cursor (V1) -/

/-- `IN` of V1. -/
def v1 : List Byte := [0xB5, 0x3C, 0xF0, 0x0F, 0xA7]

/-- V1 rows 1 to 6. -/
theorem test_bits_v1 :
    bits v1 1 cur0 = .ok (1, ⟨1, 0x5A, 7⟩) ∧ bits v1 2 ⟨1, 0x5A, 7⟩ = .ok (2, ⟨1, 0x16, 5⟩) ∧
      bits v1 0 ⟨1, 0x16, 5⟩ = .ok (0, ⟨1, 0x16, 5⟩) ∧ bits v1 5 ⟨1, 0x16, 5⟩ = .ok (22, ⟨1, 0, 0⟩) ∧
      bits v1 3 ⟨1, 0, 0⟩ = .ok (4, ⟨2, 0x07, 5⟩) ∧ bits v1 7 ⟨2, 0x07, 5⟩ = .ok (7, ⟨3, 0x3C, 6⟩) := by
  decide

/-- V1 rows 7 to 10. -/
theorem test_align_nextbyte_v1 :
    align ⟨3, 0x3C, 6⟩ = ⟨3, 0, 0⟩ ∧ nextbyte v1 ⟨3, 0, 0⟩ = .ok (0x0F, ⟨4, 0, 0⟩) ∧
      bits v1 4 ⟨4, 0, 0⟩ = .ok (7, ⟨5, 0x0A, 4⟩) ∧ bits v1 16 ⟨5, 0x0A, 4⟩ = .error .truncated := by
  decide

/-- V1, the further cases. -/
theorem test_bits_further :
    bits [] 1 cur0 = .error .truncated ∧ nextbyte [] cur0 = .error .truncated ∧
      bits [0x34, 0x12] 16 cur0 = .ok (0x1234, ⟨2, 0, 0⟩) ∧ bits [0xAB, 0xCD, 0xEF] 4 cur0 = .ok (0xB, ⟨1, 0xA, 4⟩) ∧
      bits [0xAB, 0xCD, 0xEF] 16 ⟨1, 0xA, 4⟩ = .ok (0xFCDA, ⟨3, 0xE, 4⟩) ∧
      bits [0x80, 0x01] 2 ⟨1, 1, 1⟩ = .ok (3, ⟨2, 0, 7⟩) := by
  decide

/-! ### The table builder (V2) and the symbol decoder (V3) -/

/-- V2: complete codes and their symbol order. -/
theorem test_construct_complete :
    built [2, 1, 3, 3] = (0, [1, 1, 2, 0, 0, 0, 0, 0, 0, 0, 0, 0, 0, 0, 0], [1, 0, 2, 3]) ∧
      built [3, 3, 3, 3, 3, 2, 4, 4] = (0, [0, 1, 5, 2, 0, 0, 0, 0, 0, 0, 0, 0, 0, 0, 0], [5, 0, 1, 2, 3, 4, 6, 7]) ∧
      (built e5cl).2.2 = [16, 17, 18, 0, 4] := by
  decide +kernel

/-- V2: incomplete, empty and over-subscribed codes. -/
theorem test_construct_results :
    (built [1]).1 = 16384 ∧ (built [0, 1]).1 = 16384 ∧ (built [15, 15]).1 = 32766 ∧ (built [1, 15, 15]).1 = 16382 ∧
      (built [0, 0, 0, 0]).1 = 0 ∧ (built [1, 1, 1]).1 = -1 ∧ (built [1, 2, 2, 2]).1 = -1 ∧
      (built [2, 2, 2, 2, 2]).1 = -1 ∧ (built [3, 3, 3, 3, 3, 3, 3, 3, 15]).1 = -1 ∧
      (built [1, 2, 3, 4, 5, 6, 7, 8, 9, 10, 11, 12, 13, 14, 15, 15]).1 = 0 := by
  decide +kernel

/-- V2, rule R69: the codewords of `[3, 3, 3, 3, 3, 2, 4, 4]` and of `[15, 15]`. -/
theorem test_codewords :
    (List.range 9).map (codewordOf [3, 3, 3, 3, 3, 2, 4, 4]) =
      [some (3, 2), some (3, 3), some (3, 4), some (3, 5), some (3, 6), some (2, 0), some (4, 14), some (4, 15), none] ∧
      codewordOf [15, 15] 1 = some (15, 1) := by
  decide

/-- V3, tables A and B. -/
theorem test_decode_tables_a_b :
    decoded [2, 1, 3, 3] [0x00] = .ok (1, 1) ∧ decoded [2, 1, 3, 3] [0x01] = .ok (0, 2) ∧
      decoded [2, 1, 3, 3] [0x03] = .ok (2, 3) ∧ decoded [2, 1, 3, 3] [0x07] = .ok (3, 3) ∧
      decoded [2, 1, 3, 3] [] = .error .truncated ∧ decoded [1] [0x00] = .ok (0, 1) ∧
      decoded [1] [0x01, 0x00] = .error .undecodable ∧ decoded [1] [0x7F] = .error .truncated := by
  decide +kernel

/-- V3, tables C and D. -/
theorem test_decode_tables_c_d :
    decoded [0, 0] [0x00, 0x00] = .error .undecodable ∧ decoded [0, 0] [0x00] = .error .truncated ∧
      decoded [15, 15] [0x00, 0x00] = .ok (0, 15) ∧ decoded [15, 15] [0x00, 0x40] = .ok (1, 15) ∧
      decoded [15, 15] [0x00, 0x20] = .error .undecodable := by
  decide +kernel

/-! ### Decoding, every constructor by bits written out from the spec -/

/-- Rules R61, R62: BFINAL, then BTYPE low bit first. -/
theorem test_decode_headers :
    allRead .header
      [([0, 0, 0], .blockStored 0), ([1, 0, 0], .blockStored 1), ([0, 1, 0], .blockFixed 0), ([1, 1, 0], .blockFixed 1),
       ([0, 0, 1], .blockDynamic 0), ([1, 0, 1], .blockDynamic 1), ([0, 1, 1], .blockReserved 0),
       ([1, 1, 1], .blockReserved 1)] = true := by
  decide +kernel

/-- E2: LEN 5, NLEN 0xFFFA. -/
theorem test_decode_storedBody :
    reads .storedBody
      [1, 0, 1, 0, 0, 0, 0, 0, 0, 0, 0, 0, 0, 0, 0, 0, 0, 1, 0, 1, 1, 1, 1, 1, 1, 1, 1, 1, 1, 1, 1, 1]
      (.storedBody 5 0xFFFA) = true := by
  decide +kernel

/-- E4: HLIT 8, HDIST 0, HCLEN 14; P3: HLIT 2, HDIST 3. -/
theorem test_decode_dynHeader :
    allRead .counts
      [([0, 0, 0, 1, 0, 0, 0, 0, 0, 0, 0, 1, 1, 1], .dynHeader 8 0 14),
       ([0, 1, 0, 0, 0, 1, 1, 0, 0, 0, 0, 1, 1, 1], .dynHeader 2 3 14)] = true := by
  decide +kernel

/-- V8: 16 = 1, 17 = 0, 18 = 1, 0 = 0; and three bits low bit first. -/
theorem test_decode_cllens :
    reads (.codeLens 4) [1, 0, 0, 0, 0, 0, 1, 0, 0, 0, 0, 0] (.cllens [1, 0, 1, 0]) = true ∧
      reads (.codeLens 4) [1, 1, 0, 0, 1, 1, 1, 0, 1, 0, 0, 1] (.cllens [3, 6, 5, 4]) = true := by
  decide +kernel

/-- The code of E5, with repeat fields 1, 4 and 64 (rules R66, R167 to R171). -/
theorem test_decode_code_symbols :
    allRead (.codeSyms e5table false)
      [([1, 1, 0], .cl0to15 0), ([1, 1, 1], .cl0to15 4), ([0, 0, 1, 0], .cl16 1), ([0, 1, 0, 0, 1], .cl17 4),
       ([1, 0, 0, 0, 0, 0, 0, 0, 1], .cl18 64)] = true := by
  decide +kernel

/-- V7: the literals at the band edges, the end of block, the reserved symbols. -/
theorem test_decode_literals :
    allRead (.symbol fixedLltab)
      [([0, 0, 1, 1, 0, 0, 0, 0], .lit0to143 0x00), ([1, 0, 1, 1, 1, 1, 1, 1], .lit0to143 0x8F),
       ([1, 1, 0, 0, 1, 0, 0, 0, 0], .lit144to255 0x90), ([1, 1, 1, 1, 1, 1, 1, 1, 1], .lit144to255 0xFF),
       ([0, 0, 0, 0, 0, 0, 0], .eob), ([1, 1, 0, 0, 0, 1, 1, 0], .ll286), ([1, 1, 0, 0, 0, 1, 1, 1], .ll287)] = true := by
  decide +kernel

/-- Rules R200 to R211, each with its extra field 1. -/
theorem test_decode_lsym_257_268 :
    allRead (.symbol fixedLltab)
      [([0, 0, 0, 0, 0, 0, 1], .lsym257), ([0, 0, 0, 0, 0, 1, 0], .lsym258), ([0, 0, 0, 0, 0, 1, 1], .lsym259),
       ([0, 0, 0, 0, 1, 0, 0], .lsym260), ([0, 0, 0, 0, 1, 0, 1], .lsym261), ([0, 0, 0, 0, 1, 1, 0], .lsym262),
       ([0, 0, 0, 0, 1, 1, 1], .lsym263), ([0, 0, 0, 1, 0, 0, 0], .lsym264),
       ([0, 0, 0, 1, 0, 0, 1, 1], .lsym265 1), ([0, 0, 0, 1, 0, 1, 0, 1], .lsym266 1),
       ([0, 0, 0, 1, 0, 1, 1, 1], .lsym267 1), ([0, 0, 0, 1, 1, 0, 0, 1], .lsym268 1)] = true := by
  decide +kernel

/-- Rules R212 to R223. -/
theorem test_decode_lsym_269_280 :
    allRead (.symbol fixedLltab)
      [([0, 0, 0, 1, 1, 0, 1, 1, 0], .lsym269 1), ([0, 0, 0, 1, 1, 1, 0, 1, 0], .lsym270 1),
       ([0, 0, 0, 1, 1, 1, 1, 1, 0], .lsym271 1), ([0, 0, 1, 0, 0, 0, 0, 1, 0], .lsym272 1),
       ([0, 0, 1, 0, 0, 0, 1, 1, 0, 0], .lsym273 1), ([0, 0, 1, 0, 0, 1, 0, 1, 0, 0], .lsym274 1),
       ([0, 0, 1, 0, 0, 1, 1, 1, 0, 0], .lsym275 1), ([0, 0, 1, 0, 1, 0, 0, 1, 0, 0], .lsym276 1),
       ([0, 0, 1, 0, 1, 0, 1, 1, 0, 0, 0], .lsym277 1), ([0, 0, 1, 0, 1, 1, 0, 1, 0, 0, 0], .lsym278 1),
       ([0, 0, 1, 0, 1, 1, 1, 1, 0, 0, 0], .lsym279 1), ([1, 1, 0, 0, 0, 0, 0, 0, 1, 0, 0, 0], .lsym280 1)] = true := by
  decide +kernel

/-- Rules R224 to R228. -/
theorem test_decode_lsym_281_285 :
    allRead (.symbol fixedLltab)
      [([1, 1, 0, 0, 0, 0, 0, 1, 1, 0, 0, 0, 0], .lsym281 1),
       ([1, 1, 0, 0, 0, 0, 1, 0, 1, 0, 0, 0, 0], .lsym282 1),
       ([1, 1, 0, 0, 0, 0, 1, 1, 1, 0, 0, 0, 0], .lsym283 1),
       ([1, 1, 0, 0, 0, 1, 0, 0, 1, 0, 0, 0, 0], .lsym284 1), ([1, 1, 0, 0, 0, 1, 0, 1], .lsym285)] = true := by
  decide +kernel

/-- Rules R231 to R242. -/
theorem test_decode_dsym_0_11 :
    allRead (.distance fixedDtab true)
      [([0, 0, 0, 0, 0], .dsym0), ([0, 0, 0, 0, 1], .dsym1), ([0, 0, 0, 1, 0], .dsym2),
       ([0, 0, 0, 1, 1], .dsym3), ([0, 0, 1, 0, 0, 1], .dsym4 1), ([0, 0, 1, 0, 1, 1], .dsym5 1),
       ([0, 0, 1, 1, 0, 1, 0], .dsym6 1), ([0, 0, 1, 1, 1, 1, 0], .dsym7 1),
       ([0, 1, 0, 0, 0, 1, 0, 0], .dsym8 1), ([0, 1, 0, 0, 1, 1, 0, 0], .dsym9 1),
       ([0, 1, 0, 1, 0, 1, 0, 0, 0], .dsym10 1), ([0, 1, 0, 1, 1, 1, 0, 0, 0], .dsym11 1)] = true := by
  decide +kernel

/-- Rules R243 to R254. -/
theorem test_decode_dsym_12_23 :
    allRead (.distance fixedDtab true)
      [([0, 1, 1, 0, 0, 1, 0, 0, 0, 0], .dsym12 1), ([0, 1, 1, 0, 1, 1, 0, 0, 0, 0], .dsym13 1),
       ([0, 1, 1, 1, 0, 1, 0, 0, 0, 0, 0], .dsym14 1), ([0, 1, 1, 1, 1, 1, 0, 0, 0, 0, 0], .dsym15 1),
       ([1, 0, 0, 0, 0, 1, 0, 0, 0, 0, 0, 0], .dsym16 1), ([1, 0, 0, 0, 1, 1, 0, 0, 0, 0, 0, 0], .dsym17 1),
       ([1, 0, 0, 1, 0, 1, 0, 0, 0, 0, 0, 0, 0], .dsym18 1),
       ([1, 0, 0, 1, 1, 1, 0, 0, 0, 0, 0, 0, 0], .dsym19 1),
       ([1, 0, 1, 0, 0, 1, 0, 0, 0, 0, 0, 0, 0, 0], .dsym20 1),
       ([1, 0, 1, 0, 1, 1, 0, 0, 0, 0, 0, 0, 0, 0], .dsym21 1),
       ([1, 0, 1, 1, 0, 1, 0, 0, 0, 0, 0, 0, 0, 0, 0], .dsym22 1),
       ([1, 0, 1, 1, 1, 1, 0, 0, 0, 0, 0, 0, 0, 0, 0], .dsym23 1)] = true := by
  decide +kernel

/-- Rules R255 to R260. -/
theorem test_decode_dsym_24_29 :
    allRead (.distance fixedDtab true)
      [([1, 1, 0, 0, 0, 1, 0, 0, 0, 0, 0, 0, 0, 0, 0, 0], .dsym24 1),
       ([1, 1, 0, 0, 1, 1, 0, 0, 0, 0, 0, 0, 0, 0, 0, 0], .dsym25 1),
       ([1, 1, 0, 1, 0, 1, 0, 0, 0, 0, 0, 0, 0, 0, 0, 0, 0], .dsym26 1),
       ([1, 1, 0, 1, 1, 1, 0, 0, 0, 0, 0, 0, 0, 0, 0, 0, 0], .dsym27 1),
       ([1, 1, 1, 0, 0, 1, 0, 0, 0, 0, 0, 0, 0, 0, 0, 0, 0, 0], .dsym28 1),
       ([1, 1, 1, 0, 1, 1, 0, 0, 0, 0, 0, 0, 0, 0, 0, 0, 0, 0], .dsym29 1)] = true := by
  decide +kernel

/-- Rule R71: the two unassigned fixed patterns. -/
theorem test_decode_unassigned :
    allRead (.distance fixedDtab true) [([1, 1, 1, 1, 0], .dist30), ([1, 1, 1, 1, 1], .dist31)] = true := by
  decide +kernel

/-- Rule R215's example, and P1's match: the encoder. -/
theorem test_encode_examples :
    encode fixedCodes (.lsym272 3) = some (bitsOf [0, 0, 1, 0, 0, 0, 0, 1, 1]) ∧
      encode fixedCodes (.dsym19 1) = some (bitsOf [1, 0, 0, 1, 1, 1, 0, 0, 0, 0, 0, 0, 0]) ∧
      encode fixedCodes .lsym260 = some (bitsOf [0, 0, 0, 0, 1, 0, 0]) := by
  decide +kernel

/-! ### One element at a time -/

/-- V5: the phase each header enters; BTYPE 3 is fault 4. -/
theorem test_exec_headers :
    after (step (headerAt [0x01])) (fun t => (t.phase, t.bfinal, t.btype)) = some (.stored, 1, 0) ∧
      after (step (headerAt [0x02])) (fun t => (t.phase, t.bfinal, t.btype)) = some (.fixed, 0, 1) ∧
      after (step (headerAt [0x05])) (fun t => (t.phase, t.bfinal, t.btype)) = some (.dynamic, 1, 2) ∧
      after (step (headerAt [0x06])) (fun t => (t.phase, t.faultCode)) = some (.fault, 4) := by
  decide +kernel

/-- E2: the five bytes of a final stored block. -/
theorem test_exec_storedBody :
    after (exec (.storedBody 5 0xFFFA) (storedAt [0x48, 0x65, 0x6C, 0x6C, 0x6F] 1))
      (fun t => (t.out, t.outcnt, t.next, t.cur, t.phase)) =
      some ([0x48, 0x65, 0x6C, 0x6C, 0x6F], 5, 5, ⟨5, 0, 0⟩, .done) := by
  decide +kernel

/-- V6: a stored block cut inside its data, and a non-final empty one. -/
theorem test_exec_storedBody_ends :
    after (exec (.storedBody 2 0xFFFD) (storedAt [0xAA] 1)) (fun t => (t.phase, t.faultCode)) = some (.fault, 1) ∧
      after (exec (.storedBody 0 0xFFFF) (storedAt [] 0)) (fun t => (t.phase, t.outcnt)) = some (.header, 0) := by
  decide +kernel

/-- E4, step 2; V8: 287 literal/length symbols are fault 5. -/
theorem test_exec_dynHeader :
    after (exec (.dynHeader 8 0 14) State.reset)
      (fun t => (t.blk.nlen, t.blk.ndist, t.blk.ncode, t.sub)) = some (265, 1, 18, .codeLens) ∧
      after (exec (.dynHeader 30 0 0) State.reset) (fun t => (t.phase, t.faultCode)) = some (.fault, 5) ∧
      after (exec (.dynHeader 0 30 0) State.reset) (fun t => (t.phase, t.faultCode)) = some (.fault, 5) := by
  decide +kernel

/-- E4, step 3: where the lengths sent go; E6: three codes of length 1 are fault 2. -/
theorem test_exec_cllens :
    after (exec (.cllens [0, 2, 2, 0, 0, 0, 0, 0, 0, 0, 0, 0, 0, 0, 0, 2, 0, 2]) State.reset)
      (fun t => (t.blk.cllen.toList, t.blk.index, t.sub)) =
      some ([0, 2, 2, 0, 0, 0, 0, 0, 0, 0, 0, 0, 0, 0, 0, 0, 0, 2, 2], 0, .codeSyms) ∧
      after (exec (.cllens [1, 1, 1, 0]) State.reset) (fun t => (t.phase, t.faultCode)) = some (.fault, 2) := by
  decide +kernel

/-- Rule R167: a length of 4 goes to slot 5. -/
theorem test_exec_cl0to15 :
    after (exec (.cl0to15 4) (lengthsAt 5 0 []))
      (fun t => (t.blk.index, (t.blk.lengths.toList.drop 4).take 3, t.sub)) = some (6, [0, 4, 0], .codeSyms) := by
  decide +kernel

/-- Rules R168, R169: 3 to 6 repeats of the previous length; without one, fault 6. -/
theorem test_exec_cl16 :
    after (exec (.cl16 3) { lengthsAt 1 0 [] with blk.lengths := overwrite [7] (Vector.replicate 316 0) })
      (fun t => (t.blk.index, t.blk.lengths.toList.take 8)) = some (7, [7, 7, 7, 7, 7, 7, 7, 0]) ∧
      after (exec (.cl16 0) (lengthsAt 0 0 [])) (fun t => (t.phase, t.faultCode)) = some (.fault, 6) := by
  decide +kernel

/-- Rule R170: 3 to 10 zeros. -/
theorem test_exec_cl17 :
    after (exec (.cl17 7) (lengthsAt 2 9 [])) (fun t => (t.blk.index, t.blk.lengths.toList.take 13)) =
      some (12, [9, 9, 0, 0, 0, 0, 0, 0, 0, 0, 0, 0, 9]) := by
  decide +kernel

/-- Rules R171, R172: 11 to 138 zeros; V8: a second maximal repeat runs past 258, fault 7. -/
theorem test_exec_cl18 :
    after (exec (.cl18 127) (lengthsAt 0 9 [])) (fun t => (t.blk.index, (t.blk.lengths.toList.drop 137).take 2)) =
      some (138, [0, 9]) ∧
      after (exec (.cl18 127) (lengthsAt 138 0 [])) (fun t => (t.phase, t.faultCode)) = some (.fault, 7) := by
  decide +kernel

/-- E3: the literals of the two bands. -/
theorem test_exec_literals :
    after (exec (.lit0to143 0x8F) (fixedAt [0x00] 0)) (fun t => (t.out, t.outcnt, t.next, t.phase)) =
      some ([0x00, 0x8F], 2, 2, .fixed) ∧
      after (exec (.lit144to255 0x90) (fixedAt [0x00, 0x8F] 0)) (fun t => (t.out, memLookup t.window 2)) =
        some ([0x00, 0x8F, 0x90], some 0x90) := by
  decide +kernel

/-- Rule R135: the end of a block after which another comes, and of the last one. -/
theorem test_exec_eob :
    after (exec .eob (fixedAt [0x61] 0)) (fun t => (t.phase, t.out)) = some (.header, [0x61]) ∧
      after (exec .eob { fixedAt [0x61] 0 with bfinal := 1 }) (fun t => (t.phase, t.out)) = some (.done, [0x61]) := by
  decide +kernel

/-- The greatest length of each length symbol ("lengths covered" of rules R200 to R228). -/
theorem test_lsym_greatest_lengths :
    (
      [(.lsym257, 3), (.lsym258, 4), (.lsym259, 5), (.lsym260, 6), (.lsym261, 7), (.lsym262, 8), (.lsym263, 9),
       (.lsym264, 10), (.lsym265 1, 12), (.lsym266 1, 14), (.lsym267 1, 16), (.lsym268 1, 18),
       (.lsym269 3, 22), (.lsym270 3, 26), (.lsym271 3, 30), (.lsym272 3, 34), (.lsym273 7, 42),
       (.lsym274 7, 50), (.lsym275 7, 58), (.lsym276 7, 66), (.lsym277 15, 82), (.lsym278 15, 98),
       (.lsym279 15, 114), (.lsym280 15, 130), (.lsym281 31, 162), (.lsym282 31, 194), (.lsym283 31, 226),
       (.lsym284 31, 258), (.lsym285, 258)] : List (Instr × Nat)).all
      (fun x => after (exec x.1 State.reset) (fun t => (t.blk.length.toNat, t.sub)) == some (x.2, .distance)) = true := by
  decide +kernel

/-- The greatest distance of each distance symbol ("distances covered" of rules R231 to R260). -/
theorem test_dsym_greatest_distances :
    (
      [(.dsym0, 1), (.dsym1, 2), (.dsym2, 3), (.dsym3, 4), (.dsym4 1, 6), (.dsym5 1, 8), (.dsym6 3, 12),
       (.dsym7 3, 16), (.dsym8 7, 24), (.dsym9 7, 32), (.dsym10 15, 48), (.dsym11 15, 64), (.dsym12 31, 96),
       (.dsym13 31, 128), (.dsym14 63, 192), (.dsym15 63, 256), (.dsym16 127, 384), (.dsym17 127, 512),
       (.dsym18 255, 768), (.dsym19 255, 1024), (.dsym20 511, 1536), (.dsym21 511, 2048), (.dsym22 1023, 3072),
       (.dsym23 1023, 4096), (.dsym24 2047, 6144), (.dsym25 2047, 8192), (.dsym26 4095, 12288),
       (.dsym27 4095, 16384), (.dsym28 8191, 24576), (.dsym29 8191, 32768)] : List (Instr × Nat)).all
      (fun x => after (exec x.1 { State.reset with outcnt := 32768 }) (fun t => (t.blk.dist.toNat, t.sub)) ==
        some (x.2, .symbol)) = true := by
  decide +kernel

/-- E4, V4: overlapping copies. -/
theorem test_exec_copies :
    after (exec .dsym0 (fixedAt [0x41] 10)) (fun t => (t.out, t.next)) = some (List.replicate 11 0x41, 11) ∧
      after (exec .dsym2 (fixedAt [0x61, 0x62, 0x63] 5)) (fun t => (t.out, t.outcnt)) =
        some ([0x61, 0x62, 0x63, 0x61, 0x62, 0x63, 0x61, 0x62], 8) ∧
      after (exec (.dsym4 1) (fixedAt [0x61, 0x62, 0x63, 0x64, 0x65, 0x66] 3)) (·.out) =
        some [0x61, 0x62, 0x63, 0x64, 0x65, 0x66, 0x61, 0x62, 0x63] := by
  decide +kernel

/-- V4: the write index wraps, and distance 32768 reads the cell about to be rewritten. -/
theorem test_window_wraps :
    (output { State.reset with next := 32767 } 0xEE).next = 0 ∧
      ({ State.reset with next := 0 } : State).copyAddr 32768 = 0 ∧
      ({ State.reset with next := 2 } : State).copyAddr 3 = 32767 := by
  decide

/-- V7, V9: fault 8, and fault 3 or 1 after an unassigned pattern. -/
theorem test_exec_symbol_faults :
    after (exec .ll286 State.reset) (·.faultCode) = some 8 ∧ after (exec .ll287 State.reset) (·.faultCode) = some 8 ∧
      after (exec .dist30 { State.reset with input := [0, 0] }) (·.faultCode) = some 3 ∧
      after (exec .dist31 { State.reset with input := [0] }) (·.faultCode) = some 1 := by
  decide +kernel

/-- V6: the same stored block with `CHECK_NLEN` = 1 and with this hardware's 0. -/
theorem test_check_nlen :
    after (exec (.storedBody 2 0) (storedChecked [0xAA, 0xBB])) (fun t => (t.phase, t.faultCode)) = some (.fault, 10) ∧
      after (exec (.storedBody 2 0) (storedAt [0xAA, 0xBB] 1)) (fun t => (t.phase, t.out)) =
        some (.done, [0xAA, 0xBB]) := by
  decide +kernel

/-- P4: the same match with `CHECK_DIST` = 1 and with 0: `OUT` is `61 u 61 u`. -/
theorem test_check_dist :
    after (exec .dsym1 (fixedAt [0x61] 3)) (fun t => (t.phase, t.faultCode)) = some (.fault, 9) ∧
      after (exec .dsym1 { fixedAt [0x61] 3 with params := noCheckDist })
        (fun t => (t.phase, t.outcnt, t.out[0]?, t.out[2]?)) = some (.fixed, 4, some 0x61, some 0x61) := by
  decide +kernel

/-- Rule R169: a first symbol 16 is its codeword alone; a first symbol 17 has its field. -/
theorem test_decode_first_code_symbol :
    allRead (.codeSyms e5table true) [([0, 0], .cl16 0), ([0, 1, 0, 0, 1], .cl17 4)] = true := by
  decide +kernel

/-- V5: no bit at all is fault 1; V7: so is `4B 04` after its literal, where the fill bits end inside a codeword. -/
theorem test_step_truncated :
    after (step (headerAt [])) (fun t => (t.phase, t.faultCode)) = some (.fault, 1) ∧
      after (step { fixedAt [] 0 with input := [0x4B, 0x04], cur := ⟨2, 0, 5⟩ }) (fun t => (t.phase, t.faultCode)) =
        some (.fault, 1) := by
  decide +kernel

/-- Rule R302: the start of a run. -/
theorem test_step_start :
    after (step { State.reset with host := { data := [0x03, 0x00], start := true, reset := false } })
      (fun t => (t.phase, t.input, t.cur)) = some (.header, [0x03, 0x00], cur0) := by
  decide +kernel

/-- A table word placed for the next step runs (log 11): the literal 255 and a literal below 144. -/
theorem test_fetch_word :
    after (step (State.reset.withFetchWord 9 511)) (·.out) = some [255] ∧
      after (step (State.reset.withFetchWord 8 0x30)) (·.out) = some [0] := by
  decide +kernel

/-! ### Witnesses: each statement's hypotheses, met together, at the ends of their ranges -/

/-- A cursor with three bits of the second byte of V1's input left over. -/
theorem cursorInv_v1 : CursorInv v1 ⟨2, 0x07, 5⟩ := by unfold CursorInv; decide

/-- A cursor at the end of an input of two bytes. -/
theorem cursorInv_end : CursorInv [0xB5, 0x3C] ⟨2, 0, 0⟩ := by unfold CursorInv; decide

/-- O1: the field ends with the input; the 16-bit field is the whole input. -/
theorem witness_BitsReturnsTheFieldAtThePosition :
    (CursorInv v1 ⟨4, 0, 0⟩ ∧ Cursor.pos ⟨4, 0, 0⟩ + (8 : Fin 17).val = 8 * v1.length) ∧
      (8 % 8 = 0 ∧ 8 + 16 = 8 * [(0 : Byte), 1, 2].length) :=
  ⟨⟨by unfold CursorInv; decide, by decide⟩, by decide⟩

/-- O2: one bit fits after position 7 of one byte, two do not; and the end of the input. -/
theorem witness_TruncatedExactlyPastTheInput :
    (CursorInv [0x80] ⟨1, 1, 1⟩ ∧ ¬ 8 * [(0x80 : Byte)].length < Cursor.pos ⟨1, 1, 1⟩ + (1 : Fin 17).val ∧
      8 * [(0x80 : Byte)].length < Cursor.pos ⟨1, 1, 1⟩ + (2 : Fin 17).val) ∧
      (CursorInv [0xB5, 0x3C] ⟨2, 0, 0⟩ ∧ 2 = [(0xB5 : Byte), 0x3C].length) :=
  ⟨⟨by unfold CursorInv; decide, by decide, by decide⟩, cursorInv_end, by decide⟩

/-- O4: inside a byte, and at a boundary. -/
theorem witness_AlignMovesToTheNextByteBoundary : CursorInv v1 ⟨2, 0x07, 5⟩ ∧ CursorInv v1 cur0 :=
  ⟨cursorInv_v1, by unfold CursorInv; decide⟩

/-- O5: the last byte, and none left. -/
theorem witness_NextbyteIsAnAlignedByte :
    (CursorInv v1 ⟨4, 0, 0⟩ ∧ (4 : Nat) < v1.length) ∧ CursorInv [0xB5, 0x3C] ⟨2, 0, 0⟩ :=
  ⟨⟨by unfold CursorInv; decide, by decide⟩, cursorInv_end⟩

/-- The builder's premises for a few lengths over the largest store. -/
theorem lengths_small {lens : List Nat} (h : lens.length ≤ 19) (h' : ∀ l ∈ lens, l ≤ 15) : Lengths 9 288 lens :=
  ⟨by omega, by decide, by decide, h'⟩

/-- O6: the empty, the over-subscribed and an accepted code, and the longest lengths. -/
theorem witness_ConstructIsTheLoopsOfTheRule :
    (Lengths 9 288 [0, 0] ∧ (tally [0, 0]).getD 0 0 = [0, 0].length) ∧
      (Lengths 9 288 [1, 1, 1] ∧ (tally [1, 1, 1]).getD 0 0 ≠ [1, 1, 1].length ∧ residual [1, 1, 1] < 0) ∧
      (Lengths 9 288 [15, 15] ∧ (tally [15, 15]).getD 0 0 ≠ [15, 15].length ∧ 0 ≤ residual [15, 15]) :=
  ⟨⟨lengths_small (by decide) (by decide), by decide⟩, ⟨lengths_small (by decide) (by decide), by decide, by decide⟩,
    lengths_small (by decide) (by decide), by decide, by decide⟩

/-- O7: the whole distance store, and no length at all. -/
theorem witness_EmptyCodeIsAcceptedAndDecodesNothing :
    (30 ≤ 30 ∧ 30 < 2 ^ 5) ∧ (0 ≤ 30) ∧ CursorInv v1 ⟨2, 0x07, 5⟩ := ⟨by decide, by decide, cursorInv_v1⟩

/-- O8: both signs, and the value 0. -/
theorem witness_ResidualIsTheUnusedCodeSpace :
    residual [1, 1, 1] < 0 ∧ 0 ≤ residual [1, 1] ∧ residual [1, 1] = 0 ∧ 0 ≤ residual [15] := by decide

/-- O10: the code of V3's table A and the bits `110`. -/
theorem witness_DecodeReadsExactlyTheCodewords :
    Lengths 9 288 [2, 1, 3, 3] ∧
      0 ≤ (construct BlockRegs.zero.lltab BlockRegs.zero.builder [2, 1, 3, 3]).result ∧ CursorInv [0x03] cur0 ∧
      CodewordAt [2, 1, 3, 3] [0x03] 0 2 3 :=
  ⟨lengths_small (by decide) (by decide), by decide +kernel, by unfold CursorInv; decide, 6, by decide, by decide,
    by decide⟩

/-- O11: the code of V3's table B has no codeword for the bits `1`, with 15 bits there and with 8. -/
theorem witness_DecodeFailsOnlyWithoutACodeword :
    Lengths 9 288 [1] ∧ 0 ≤ (construct BlockRegs.zero.lltab BlockRegs.zero.builder [1]).result ∧
      (CursorInv [0x01, 0x00] cur0 ∧ decoded [1] [0x01, 0x00] = .error .undecodable) ∧
      (CursorInv [0x7F] cur0 ∧ decoded [1] [0x7F] = .error .truncated) :=
  ⟨lengths_small (by decide) (by decide), by decide +kernel, ⟨by unfold CursorInv; decide, by decide +kernel⟩,
    by unfold CursorInv; decide, by decide +kernel⟩

/-- There is a state of the output invariant with any number of bytes produced. -/
theorem exists_outputInv (n : Nat) : ∃ s : State, OutputInv s ∧ s.outcnt = n ∧ memWf s.window = true := by
  induction n with
  | zero => exact ⟨State.reset, ⟨rfl, rfl, fun k h1 h2 => by simp [State.reset] at h2; omega⟩, rfl, rfl⟩
  | succ n ih =>
    obtain ⟨s, h, hn, hm⟩ := ih
    exact ⟨output s 0, h.output 0, by simp [output, hn], output_memWf 0 hm⟩

/-- O14, O16: distance 1 after one byte, and distance 32768 after 32768 bytes. -/
theorem witness_CopyRepeatsTheOutput :
    (∃ s : State, OutputInv s ∧ 1 ≤ 1 ∧ 1 ≤ 32768 ∧ 1 ≤ s.outcnt) ∧
      ∃ s : State, OutputInv s ∧ 1 ≤ 32768 ∧ 32768 ≤ 32768 ∧ 32768 ≤ s.outcnt := by
  obtain ⟨s, h, hs, _⟩ := exists_outputInv 1
  obtain ⟨t, h', ht, _⟩ := exists_outputInv 32768
  exact ⟨⟨s, h, by omega, by omega, by omega⟩, t, h', by omega, by omega, by omega⟩

/-- O15: the distance equal to the bytes produced and one more, with and without the check. -/
theorem witness_DistanceIsCheckedBeforeCopying :
    Config.params.checkDist = true ∧ (fixedAt [0x61] 3).outcnt < 2 ∧ 1 ≤ (fixedAt [0x61] 3).outcnt ∧
      noCheckDist.checkDist = false := by decide

/-- O18: three bits that end with the input, and two that are left. -/
theorem witness_HeaderBitsSelectTheBlock :
    (CursorInv [0x65] ⟨1, 3, 3⟩ ∧ Cursor.pos ⟨1, 3, 3⟩ + 3 = 8 * [(0x65 : Byte)].length) ∧
      (CursorInv [0x65] ⟨1, 1, 2⟩ ∧ 8 * [(0x65 : Byte)].length < Cursor.pos ⟨1, 1, 2⟩ + 3) :=
  ⟨⟨by unfold CursorInv; decide, by decide⟩, by unfold CursorInv; decide, by decide⟩

/-- O19: both values of `bfinal`. -/
theorem witness_EndOfBlockCarriesTheRunOver :
    ({ State.reset with bfinal := 1 } : State).bfinal = 1 ∧ State.reset.bfinal = 0 := by decide

/-- O20: a reset, an accepted start, and an element. -/
theorem witness_PhasesMoveAsTheTableSays :
    (∃ t, step { State.reset with host := { data := [], start := true, reset := true } } = .next t ∧
      (t.phase == .idle) = true) ∧
    (∃ t, step { State.reset with host := { data := [], start := true, reset := false } } = .next t ∧
      (t.phase == .header) = true) ∧
    (∃ t, step (headerAt [0x01]) = .next t ∧ (t.phase == .stored) = true) ∧
    (∃ t, step { fixedAt [] 0 with input := [0x00] } = .next t ∧ (t.phase == .header) = true) ∧
    ∃ t, step { fixedAt [] 0 with input := [0x00], bfinal := 1 } = .next t ∧ (t.phase == .done) = true :=
  ⟨next_of (by decide +kernel), next_of (by decide +kernel), next_of (by decide +kernel), next_of (by decide +kernel),
    next_of (by decide +kernel)⟩

/-- O21: busy, and idle without a start. -/
theorem witness_StartIsIgnoredWhileBusyAndNeededOtherwise :
    ((headerAt []).host.reset = false ∧ (headerAt []).busyFlag = true) ∧
      (State.reset.host.reset = false ∧ State.reset.busyFlag = false ∧ State.reset.host.start = false) := by decide

/-- O22: a start in IDLE, and one in FAULT. -/
theorem witness_StartBeginsAFreshRun :
    (∃ s : State, s.host.reset = false ∧ s.host.start = true ∧ s.phase = .idle ∧ s.busyFlag = false) ∧
      ∃ s : State, s.host.reset = false ∧ s.host.start = true ∧ s.phase = .fault ∧ s.busyFlag = false :=
  ⟨⟨{ State.reset with host := { data := [], start := true, reset := false } }, by decide⟩,
    { State.reset with host := { data := [], start := true, reset := false }, phase := .fault }, by decide⟩

/-- O23: a reset in the middle of a run. -/
theorem witness_ResetLeadsToIdle :
    ({ headerAt [] with host := { data := [], start := false, reset := true } } : State).host.reset = true := by decide

/-- O26: the data end with the input, in a state of the output invariant with a right NLEN checked; and LEN = 0 with a
wrong NLEN that is not checked. -/
theorem witness_StoredBodyCopiesItsBytes :
    (((storedChecked [0xAA, 0xBB]).params.checkNlen = true ∧ (2 : BitVec 16) ^^^ 0xFFFD = 0xFFFF) ∧
      (storedChecked [0xAA, 0xBB]).cur.bitcnt = 0 ∧
      (storedChecked [0xAA, 0xBB]).cur.incnt + (2 : BitVec 16).toNat = (storedChecked [0xAA, 0xBB]).input.length ∧
      OutputInv (storedChecked [0xAA, 0xBB])) ∧
    (((storedAt [] 0).params.checkNlen = true → (0 : BitVec 16) ^^^ 0 = 0xFFFF) ∧ (storedAt [] 0).cur.bitcnt = 0 ∧
      (storedAt [] 0).cur.incnt + (0 : BitVec 16).toNat ≤ (storedAt [] 0).input.length) :=
  ⟨⟨by decide, by decide, by decide, rfl, rfl, fun k h1 h2 => by
      simp [storedChecked, storedAt, State.reset] at h2; omega⟩, by decide⟩

/-- O27: one byte short, with a right NLEN checked and with a wrong one that is not. -/
theorem witness_StoredBodyPastTheInputIsTruncated :
    ((2 : BitVec 16) ^^^ 0xFFFD = 0xFFFF ∧ (storedChecked [0xAA]).cur.bitcnt = 0 ∧
      (storedChecked [0xAA]).cur.incnt ≤ (storedChecked [0xAA]).input.length ∧
      (storedChecked [0xAA]).input.length < (storedChecked [0xAA]).cur.incnt + (2 : BitVec 16).toNat) ∧
    (((storedAt [0xAA] 1).params.checkNlen = true → (2 : BitVec 16) ^^^ 0 = 0xFFFF) ∧
      (storedAt [0xAA] 1).cur.bitcnt = 0 ∧ (storedAt [0xAA] 1).cur.incnt ≤ (storedAt [0xAA] 1).input.length ∧
      (storedAt [0xAA] 1).input.length < (storedAt [0xAA] 1).cur.incnt + (2 : BitVec 16).toNat) := by decide

/-- O28: a complement one bit off, and a right one, in a state that checks; and a state that does not. -/
theorem witness_ComplementIsCheckedOnlyIfEnabled :
    (storedChecked []).params.checkNlen = true ∧ (2 : BitVec 16) ^^^ 0xFFFC ≠ 0xFFFF ∧
      (2 : BitVec 16) ^^^ 0xFFFD = 0xFFFF ∧ (storedAt [] 0).params.checkNlen = false := by decide

/-- O29: four bytes that end the input, after a header's three bits; and three. -/
theorem witness_StoredLengthsAreLittleEndian :
    (CursorInv [0x01, 0, 0, 0xFF, 0xFF] ⟨1, 0, 5⟩ ∧ 1 + 4 = [(0x01 : Byte), 0, 0, 0xFF, 0xFF].length) ∧
      (CursorInv [0x01, 2, 0, 0xFD] ⟨1, 0, 5⟩ ∧ [(0x01 : Byte), 2, 0, 0xFD].length < 1 + 4) :=
  ⟨⟨by unfold CursorInv; decide, by decide⟩, by unfold CursorInv; decide, by decide⟩

/-- O30: the largest counts accepted, and the first refused. -/
theorem witness_DynamicHeaderSetsTheCounts :
    ((29 : BitVec 5).toNat ≤ 29 ∧ (29 : BitVec 5).toNat ≤ 29) ∧ 30 ≤ (30 : BitVec 5).toNat := by decide

/-- O31: the last slot sent, and the first not sent. -/
theorem witness_CodeLengthsGoToTheirSlots :
    ((List.replicate 18 (1 : BitVec 3)).length ≤ 19 ∧ 17 < 19 ∧ 17 < (List.replicate 18 (1 : BitVec 3)).length) ∧
      (18 < 19 ∧ ¬ 18 < (List.replicate 18 (1 : BitVec 3)).length) := by decide

/-- O32: an accepted code, the empty one, and an over-subscribed one. -/
theorem witness_CodeLengthTableIsBuilt :
    0 ≤ (construct State.reset.blk.cltab State.reset.blk.builder
      ((placeCodeLens [1, 0, 1, 0]).toList.map (·.toNat))).result ∧
    0 ≤ (construct State.reset.blk.cltab State.reset.blk.builder
      ((placeCodeLens [0, 0, 0, 0]).toList.map (·.toNat))).result ∧
    (construct State.reset.blk.cltab State.reset.blk.builder
      ((placeCodeLens [1, 1, 1, 0]).toList.map (·.toNat))).result < 0 := by decide +kernel

/-- O33: the first length, and the last but one. -/
theorem witness_CodeLengthIsAppended :
    (CountsInv (lengthsAt 0 0 []).blk ∧ (lengthsAt 0 0 []).blk.index.toNat + 1 < (lengthsAt 0 0 []).lensWanted) ∧
      (lengthsAt 256 0 []).blk.index.toNat + 2 = (lengthsAt 256 0 []).lensWanted := by
  unfold CountsInv; decide

/-- O34: the longest repeats of each symbol, and one that stops one short of the last length. -/
theorem witness_RepeatsAppendTheirLength :
    CountsInv (lengthsAt 251 0 []).blk ∧ CountsInv (lengthsAt 0 0 []).blk ∧
      ((lengthsAt 251 0 []).blk.index.toNat + (3 + (3 : BitVec 2).toNat) + 1 = (lengthsAt 251 0 []).lensWanted ∧
        (lengthsAt 251 0 []).blk.index ≠ 0) ∧
      (lengthsAt 0 0 []).blk.index.toNat + (3 + (7 : BitVec 3).toNat) < (lengthsAt 0 0 []).lensWanted ∧
      (lengthsAt 0 0 []).blk.index.toNat + (11 + (127 : BitVec 7).toNat) < (lengthsAt 0 0 []).lensWanted := by
  unfold CountsInv; decide

/-- O35: no length yet; and each repeat one past the last length wanted. -/
theorem witness_IllegalRepeatsFault :
    (lengthsAt 0 0 []).blk.index = 0 ∧
      ((lengthsAt 253 0 []).blk.index ≠ 0 ∧ (lengthsAt 253 0 []).blk.index.toNat ≤ 316 ∧
        (lengthsAt 253 0 []).lensWanted + 1 = (lengthsAt 253 0 []).blk.index.toNat + (3 + (3 : BitVec 2).toNat)) ∧
      (lengthsAt 249 0 []).lensWanted + 1 = (lengthsAt 249 0 []).blk.index.toNat + (3 + (7 : BitVec 3).toNat) ∧
      (lengthsAt 248 0 []).lensWanted + 1 = (lengthsAt 248 0 []).blk.index.toNat + (11 + (0 : BitVec 7).toNat) := by
  decide

/-- The lengths of O36, once `rep` lengths `v` fill the places missing. -/
def allLengths (s : State) (rep : Nat) (v : BitVec 4) : List Nat :=
  (s.blk.lengths.toList.take s.blk.index.toNat).map (·.toNat) ++ List.replicate rep v.toNat

/-- The results of the two constructs of O36. -/
def bothResults (s : State) (rep : Nat) (v : BitVec 4) : Int × Int :=
  let ll := construct s.blk.lltab s.blk.builder ((allLengths s rep v).take s.blk.nlen.toNat)
  (ll.result, (construct s.blk.dtab ll.regs ((allLengths s rep v).drop s.blk.nlen.toNat)).result)

/-- O36: the last length, and the repeats of each symbol that end at the last place: accepted over lengths 0 (and a 1),
over-subscribed over lengths 1. -/
theorem witness_LastLengthBuildsTheTables :
    (CountsInv (lengthsAt 257 0 []).blk ∧ (lengthsAt 257 0 []).blk.index.toNat + 1 = (lengthsAt 257 0 []).lensWanted ∧
      bothResults (lengthsAt 257 0 []) 1 1 = (0, 16384) ∧ (bothResults (lengthsAt 257 1 []) 1 1).1 < 0) ∧
    ((lengthsAt 252 0 []).blk.index.toNat + (3 + (3 : BitVec 2).toNat) = (lengthsAt 252 0 []).lensWanted ∧
      (lengthsAt 252 0 []).blk.index ≠ 0 ∧ bothResults (lengthsAt 252 0 []) 6 0 = (0, 0) ∧
      (bothResults (lengthsAt 252 1 []) 6 1).1 < 0) ∧
    ((lengthsAt 248 0 []).blk.index.toNat + (3 + (7 : BitVec 3).toNat) = (lengthsAt 248 0 []).lensWanted ∧
      bothResults (lengthsAt 248 0 []) 10 0 = (0, 0) ∧ (bothResults (lengthsAt 248 1 []) 10 0).1 < 0) ∧
    ((lengthsAt 120 0 []).blk.index.toNat + (11 + (127 : BitVec 7).toNat) = (lengthsAt 120 0 []).lensWanted ∧
      (lengthsAt 247 0 []).blk.index.toNat + (11 + (0 : BitVec 7).toNat) = (lengthsAt 247 0 []).lensWanted ∧
      bothResults (lengthsAt 120 0 []) 138 0 = (0, 0) ∧ (bothResults (lengthsAt 120 1 []) 138 0).1 < 0) := by
  unfold CountsInv; decide +kernel

/-- O41 to O43: the greatest distance reached exactly, and missed by one, with the check; and missed without it. -/
theorem witness_DistanceSymbols :
    24577 + (8191 : BitVec 13).toNat ≤ ({ State.reset with outcnt := 32768 } : State).outcnt ∧
      (({ State.reset with outcnt := 32767 } : State).params.checkDist = true ∧
        ({ State.reset with outcnt := 32767 } : State).outcnt < 24577 + (8191 : BitVec 13).toNat ∧
        ({ State.reset with outcnt := 1 } : State).outcnt < 2 + 0) ∧
      (({ State.reset with params := noCheckDist } : State).params.checkDist = true → 1 + 0 ≤ State.reset.outcnt) := by
  decide

/-- O44: ten bits more, and nine; the two patterns with the input's last five bits. -/
theorem witness_ReservedCodesFault :
    (CursorInv [0, 0] ⟨1, 0, 2⟩ ∧ ¬ 8 * [(0 : Byte), 0].length < Cursor.pos ⟨1, 0, 2⟩ + 10) ∧
      (CursorInv [0, 0] ⟨1, 0, 1⟩ ∧ 8 * [(0 : Byte), 0].length < Cursor.pos ⟨1, 0, 1⟩ + 10) ∧
      (CursorInv [0x78] ⟨1, 0x0F, 5⟩ ∧ Cursor.pos ⟨1, 0x0F, 5⟩ + 5 = 8 * [(0x78 : Byte)].length ∧
        streamBits [0x78] 3 5 = [true, true, true, true, false]) ∧
      (CursorInv [0xF8] ⟨1, 0x1F, 5⟩ ∧ streamBits [0xF8] 3 5 = [true, true, true, true, true]) :=
  ⟨⟨by unfold CursorInv; decide, by decide⟩, ⟨by unfold CursorInv; decide, by decide⟩,
    ⟨by unfold CursorInv; decide, by decide, by decide⟩, by unfold CursorInv; decide, by decide⟩

/-- O45: each group completes somewhere without a fault. -/
theorem witness_FrameOfTheElementsThatStoreNothing :
    (∃ t, exec (.blockStored 1) State.reset = .next t ∧ (t.phase != .fault) = true) ∧
    (∃ t, exec (.blockFixed 0) State.reset = .next t ∧ (t.phase != .fault) = true) ∧
    (∃ t, exec (.dynHeader 29 29 15) State.reset = .next t ∧ (t.phase != .fault) = true) ∧
    (∃ t, exec (.cllens [1, 0, 1, 0]) State.reset = .next t ∧ (t.phase != .fault) = true) ∧
    (∃ t, exec (.cl0to15 4) (lengthsAt 5 0 []) = .next t ∧ (t.phase != .fault) = true) ∧
    (∃ t, exec (.cl16 3) (lengthsAt 1 0 []) = .next t ∧ (t.phase != .fault) = true) ∧
    (∃ t, exec (.cl17 7) (lengthsAt 0 0 []) = .next t ∧ (t.phase != .fault) = true) ∧
    (∃ t, exec (.cl18 127) (lengthsAt 0 0 []) = .next t ∧ (t.phase != .fault) = true) ∧
    ∃ t, exec (.lsym284 31) State.reset = .next t ∧ (t.phase != .fault) = true :=
  ⟨next_of (by decide +kernel), next_of (by decide +kernel), next_of (by decide +kernel), next_of (by decide +kernel),
    next_of (by decide +kernel), next_of (by decide +kernel), next_of (by decide +kernel), next_of (by decide +kernel),
    next_of (by decide +kernel)⟩

/-- O46: each group completes somewhere without a fault, and there are cells it does not store to. -/
theorem witness_FrameOfTheElementsThatStore :
    (∃ t, exec (.lit0to143 0x61) (fixedAt [0x41] 0) = .next t ∧ (t.phase != .fault) = true) ∧
    (∃ t, exec .dsym0 (fixedAt [0x41] 10) = .next t ∧ (t.phase != .fault) = true) ∧
    (∃ t, exec (.storedBody 2 0xFFFD) (storedAt [0xAA, 0xBB] 1) = .next t ∧ (t.phase != .fault) = true) ∧
    (∃ t, exec (.storedBody 2 0xFFFD) (storedAt [0xAA, 0xBB] 0) = .next t ∧
      (t.phase != .fault && t.phase == .header) = true) ∧
    ¬ Stored (fixedAt [0x41] 10) 10 0 :=
  ⟨next_of (by decide +kernel), next_of (by decide +kernel), next_of (by decide +kernel), next_of (by decide +kernel), by
    rintro ⟨j, hj, h⟩
    interval_cases j <;> revert h <;> decide⟩

/-- Codes of a dynamic block: E5's code-length code, V3's table A over the stores' other two. -/
def codes : Codes := { cl := e5cl, ll := List.replicate 255 0 ++ [1, 1], d := [2, 1, 3, 3] }

/-- They are legal over the stores of reset. -/
theorem legalCodes : LegalCodes codes BlockRegs.zero := by
  refine ⟨⟨?_, ?_, ?_, ?_⟩, ?_, ⟨?_, ?_, ?_, ?_⟩, ?_, ⟨?_, ?_, ?_, ?_⟩, ?_⟩ <;> decide +kernel

/-- O47: a code-length symbol with its greatest field (the block's first one or not), a distance symbol, an aligned stored
body; and a first symbol 16. -/
theorem witness_DecodingUndoesEncoding :
    (LegalCodes codes BlockRegs.zero ∧ (∀ r, Instr.cl18 127 ≠ .cl16 r) ∧
      encode codes (.cl18 127) = some (bitsOf [1, 0, 1, 1, 1, 1, 1, 1, 1]) ∧
      CursorInv [0xFD, 0x01] cur0 ∧ 0 + 9 ≤ 8 * [(0xFD : Byte), 0x01].length ∧
      streamBits [0xFD, 0x01] 0 9 = bitsOf [1, 0, 1, 1, 1, 1, 1, 1, 1]) ∧
    (encode codes .dsym3 = some (bitsOf [1, 1, 1]) ∧ streamBits [0x07] 0 3 = bitsOf [1, 1, 1]) ∧
    (encode codes (.storedBody 0 0xFFFF) = some (List.replicate 16 false ++ List.replicate 16 true) ∧
      cur0.bitcnt = 0 ∧ streamBits [0, 0, 0xFF, 0xFF] 0 32 = List.replicate 16 false ++ List.replicate 16 true) ∧
    (codewordBits codes.cl 16 = some (bitsOf [0, 0]) ∧ CursorInv [0x20] ⟨1, 0, 2⟩ ∧
      Cursor.pos ⟨1, 0, 2⟩ + 2 = 8 * [(0x20 : Byte)].length ∧ streamBits [0x20] 6 2 = bitsOf [0, 0]) :=
  ⟨⟨legalCodes, (fun _ h => by cases h), by decide +kernel, by unfold CursorInv; decide, by decide, by decide +kernel⟩,
    ⟨by decide +kernel, by decide +kernel⟩, ⟨by decide +kernel, by decide, by decide +kernel⟩, by decide +kernel,
    by unfold CursorInv; decide, by decide, by decide +kernel⟩

/-- O48: the last distance symbol with its greatest field, and an unassigned pattern. -/
theorem witness_DecodingUndoesEncodingInAFixedBlock :
    (fixedContext (.dsym29 8191) = some (.distance fixedDtab true) ∧ (Instr.dsym29 8191).wellFormed = true ∧
      encode fixedCodes (.dsym29 8191) = some (bitsOf [1, 1, 1, 0, 1] ++ List.replicate 13 true) ∧
      CursorInv [0xF7, 0xFF, 0x03] cur0 ∧ 0 + 18 ≤ 8 * [(0xF7 : Byte), 0xFF, 0x03].length ∧
      streamBits [0xF7, 0xFF, 0x03] 0 18 = bitsOf [1, 1, 1, 0, 1] ++ List.replicate 13 true) ∧
    (fixedContext .dist30 = some (.distance fixedDtab true) ∧ Instr.dist30.wellFormed = true ∧
      encode fixedCodes .dist30 = some (bitsOf [1, 1, 1, 1, 0]) ∧ CursorInv [0x0F] cur0 ∧
      streamBits [0x0F] 0 5 = bitsOf [1, 1, 1, 1, 0]) :=
  ⟨⟨rfl, rfl, by decide +kernel, by unfold CursorInv; decide, by decide, by decide +kernel⟩, rfl, rfl,
    by decide +kernel, by unfold CursorInv; decide, by decide +kernel⟩

/-- O49: CLLENS of 4 and of 19 lengths. -/
theorem witness_DecodedInstructionsAreWellFormed :
    (∃ f, decodeElement (.codeLens 4) (List.replicate 2 0xFF) cur0 = .ok f) ∧
      ∃ f, decodeElement (.codeLens 19) (List.replicate 8 0xFF) cur0 = .ok f := by
  constructor <;> exact ⟨_, rfl⟩

/-- O51: a header about to be read; no bit left; fifteen bits that match no codeword of a code with one symbol, and a
table, none that a builder makes, whose symbol is above 287. -/
theorem witness_StepRunsTheDecodedElement :
    ((headerAt [0x01]).host.reset = false ∧ (headerAt [0x01]).context = some .header ∧
      decodeElement .header (headerAt [0x01]).input (headerAt [0x01]).cur =
        .ok { instr := .blockStored 1, cur := ⟨1, 0, 5⟩, regs := none }) ∧
    ((headerAt []).context = some .header ∧ decodeElement .header (headerAt []).input (headerAt []).cur = .error .truncated) ∧
    ((symbolAt tableB [0xFF, 0xFF]).host.reset = false ∧
      (symbolAt tableB [0xFF, 0xFF]).context = some (.symbol tableB) ∧
      decodeElement (.symbol tableB) [0xFF, 0xFF] cur0 = .error .undecodable) ∧
    ((symbolAt table300 [0x00]).context = some (.symbol table300) ∧
      decodeElement (.symbol table300) [0x00] cur0 = .error .invalidLength) := by decide +kernel

/-- The fixed tables are built ones. -/
theorem usable_fixed : Usable fixedLltab ∧ Usable fixedDtab :=
  ⟨⟨fixedLltab, BlockRegs.zero.builder, fixll, by decide +kernel, by decide +kernel, by decide +kernel,
      by decide +kernel⟩,
    fixedDtab, BlockRegs.zero.builder, fixd, by decide, by decide, by decide +kernel, by decide +kernel⟩

/-- A state of the run invariant in a fixed block: one byte produced, a literal's codeword comes next. -/
theorem runInv_fixed : RunInv { fixedAt [0x41] 0 with input := [0x30, 0x00] } :=
  ⟨by decide, fun _ => rfl, (fun h => by cases h), fun _ _ => ⟨by unfold CursorInv; decide, rfl, rfl,
      (fun k h1 h2 _ => by
        have h3 : k = 1 := by simp [fixedAt] at h2; omega
        subst h3; decide)⟩,
    usable_fixed.1, usable_fixed.2, fun _ => ⟨rfl, rfl⟩⟩

/-- A state of the run invariant in a dynamic block, the last of its code lengths still to come: symbol 4. -/
theorem runInv_lengths : RunInv (lengthsAt 257 0 [0x07]) :=
  ⟨by decide, fun _ => rfl, (fun h => by cases h),
    fun _ _ => ⟨by unfold CursorInv; decide, rfl, rfl, (fun k h1 h2 => by simp [lengthsAt, State.reset] at h2; omega)⟩,
    by unfold CountsInv; decide, by decide,
    BlockRegs.zero.cltab, BlockRegs.zero.builder, e5cl, by decide, by decide, by decide +kernel, rfl⟩

/-- O52 to O56: states of the run invariant whose step is an element that ends without a fault. -/
theorem witness_StepKeepsTheRunInvariant :
    (RunInv { fixedAt [0x41] 0 with input := [0x30, 0x00] } ∧
      ∃ t, step { fixedAt [0x41] 0 with input := [0x30, 0x00] } = .next t ∧ (t.phase == .fixed) = true) ∧
    (RunInv (lengthsAt 257 0 [0x07]) ∧ (lengthsAt 257 0 [0x07]).busyFlag = true ∧
      (lengthsAt 257 0 [0x07]).host.reset = false ∧ (lengthsAt 257 0 [0x07]).host.start = false ∧
      ∃ t, step (lengthsAt 257 0 [0x07]) = .next t ∧ (t.sub == .symbol) = true) :=
  ⟨⟨runInv_fixed, next_of (by decide +kernel)⟩, runInv_lengths, by decide, by decide, by decide, next_of (by decide +kernel)⟩

/-- O57: a window with a cell, and an element that writes another. -/
theorem witness_StepKeepsTheWindowCanonical :
    memWf (fixedAt [0x41] 0).window = true ∧
      ∃ t, step { fixedAt [0x41] 0 with input := [0x0C, 0x00] } = .next t ∧
        (memLookup t.window 1 == some 0) = true :=
  ⟨by decide, next_of (by decide +kernel)⟩

/-- O58: nothing, and the most a stored block can hold. -/
theorem witness_StoredBlockIdentity :
    State.reset.busyFlag = false ∧ ([] : List Byte).length < 65536 ∧ (List.replicate 65535 (0 : Byte)).length < 65536 := by
  refine ⟨rfl, by decide, ?_⟩
  rw [List.length_replicate]
  omega

/-- O59: the first code-length symbol and a later one, and a state at each of the other places. -/
theorem witness_ContextFollowsThePlace :
    ((lengthsAt 0 0 []).phase = .dynamic ∧ (lengthsAt 0 0 []).sub = .codeSyms ∧ (lengthsAt 0 0 []).blk.index = 0) ∧
    ((lengthsAt 1 0 []).phase = .dynamic ∧ (lengthsAt 1 0 []).sub = .codeSyms ∧ (lengthsAt 1 0 []).blk.index ≠ 0) ∧
    ∀ phase sub, ({ State.reset with phase := phase, sub := sub } : State).phase = phase ∧
      ({ State.reset with phase := phase, sub := sub } : State).sub = sub :=
  ⟨by decide, by decide, fun _ _ => ⟨rfl, rfl⟩⟩

/-- O60: E5's code and the two fixed ones are accepted over the three stores. -/
theorem lengths_accepted :
    (Lengths 5 19 e5cl ∧ 0 ≤ (construct BlockRegs.zero.cltab BlockRegs.zero.builder e5cl).result) ∧
    (Lengths 9 288 fixll ∧ 0 ≤ (construct BlockRegs.zero.lltab BlockRegs.zero.builder fixll).result) ∧
    (Lengths 5 30 fixd ∧ 0 ≤ (construct BlockRegs.zero.dtab BlockRegs.zero.builder fixd).result) := by
  refine ⟨⟨⟨?_, ?_, ?_, ?_⟩, ?_⟩, ⟨⟨?_, ?_, ?_, ?_⟩, ?_⟩, ⟨?_, ?_, ?_, ?_⟩, ?_⟩ <;> decide +kernel

/-- O60: one bit short for each kind of element, a pattern no codeword starts with, and for each its reject. -/
theorem witness_ElementsAreRejectedOnlyForTheirBits :
    (CursorInv [0, 0] ⟨1, 0, 5⟩ ∧ 8 * [(0 : Byte), 0].length < Cursor.pos ⟨1, 0, 5⟩ + 14) ∧
    (CursorInv [0, 0] ⟨1, 0, 3⟩ ∧ 8 * [(0 : Byte), 0].length < Cursor.pos ⟨1, 0, 3⟩ + 3 * 4) ∧
    -- symbol 18 of E5's code, `10`, with six of its seven extra bits
    (CodewordAt e5cl [0x01] 0 18 2 ∧ 8 * [(0x01 : Byte)].length < 0 + 2 + codeExtra true 18 ∧
      RejectedAt e5cl (codeExtra true) [0x01] 0 .truncated) ∧
    -- length symbol 284, `11000100`, with none of its five extra bits
    (CodewordAt fixll [0x23] 0 284 8 ∧ RejectedAt fixll lengthExtra [0x23] 0 .truncated) ∧
    -- distance symbol 29, `11101`, with three of its thirteen extra bits, in any block and in a fixed one
    (CodewordAt fixd [0x17] 0 29 5 ∧ RejectedAt fixd distanceExtra [0x17] 0 .truncated ∧
      streamBits [0x17] 0 5 = msbBits 5 29 ∧ 8 * [(0x17 : Byte)].length < 0 + 5 + distanceExtra 29) ∧
    decodeElement (.distance fixedDtab false) [0x0F, 0x00] cur0 = .error .undecodable ∧
    CursorInv [0x00] cur0 := by
  have h18 : CodewordAt e5cl [0x01] 0 18 2 := ⟨2, by decide +kernel, by decide, by decide +kernel⟩
  have h284 : CodewordAt fixll [0x23] 0 284 8 := ⟨196, by decide +kernel, by decide, by decide +kernel⟩
  have h29 : CodewordAt fixd [0x17] 0 29 5 := ⟨29, by decide +kernel, by decide, by decide +kernel⟩
  exact ⟨⟨by unfold CursorInv; decide, by decide⟩, ⟨by unfold CursorInv; decide, by decide⟩,
    ⟨h18, by decide, .inr ⟨18, 2, h18, by decide, rfl⟩⟩, ⟨h284, .inr ⟨284, 8, h284, by decide, rfl⟩⟩,
    ⟨h29, .inr ⟨29, 5, h29, by decide, rfl⟩, by decide +kernel, by decide⟩, by decide +kernel,
    by unfold CursorInv; decide⟩

end Sys2Proof.Tests
end

section
/-! Fields by stream positions: a field splits at any of its bits, and the eight bits at a byte boundary are the
byte there (rules R44, R45). -/

namespace Sys2Proof.Machine

theorem bitsValue_append (as bs : List Bool) :
    bitsValue (as ++ bs) = bitsValue as + 2 ^ as.length * bitsValue bs := by
  induction as with
  | nil => simp [bitsValue]
  | cons a as ih =>
    rw [List.cons_append, bitsValue, bitsValue, ih, List.length_cons]
    ring

/-- A field's low `n` bits stand first in the stream, its other bits after them. -/
theorem fieldAt_add (inp : List Byte) (p n m : Nat) :
    fieldAt inp p (n + m) = fieldAt inp p n + 2 ^ n * fieldAt inp (p + n) m := by
  rw [fieldAt, streamBits_append, bitsValue_append, streamBits_length, ← fieldAt, ← fieldAt]

theorem streamBits_byte (inp : List Byte) (i : Nat) : streamBits inp (8 * i) 8 = byteBits (inp.getD i 0) := by
  refine List.map_congr_left fun j hj => ?_
  have hj : j < 8 := List.mem_range.mp hj
  rw [streamBit, show (8 * i + j) / 8 = i by omega, show (8 * i + j) % 8 = j by omega, BitVec.getLsbD]

theorem fieldAt_byte (inp : List Byte) (i : Nat) : fieldAt inp (8 * i) 8 = (inp.getD i 0).toNat := by
  rw [fieldAt, streamBits_byte, byteBits, bitsValue_lsbBits, Nat.mod_eq_of_lt (inp.getD i 0).isLt]

end Sys2Proof.Machine

namespace Sys2Proof.Claims

open Sys2Proof.Machine

/-- Settles O1: what `bits` answers with its bits in the input; a 16-bit field is split into its two bytes. -/
theorem bitsReturnsTheFieldAtThePosition : Obligations.BitsReturnsTheFieldAtThePosition := by
  constructor
  · intro inp n c hc hn
    obtain ⟨hlt, -⟩ | ⟨-, c', hb, hinv, hpos⟩ := bits_cases hc n
    · omega
    · exact ⟨c', hb, hinv, hpos⟩
  · intro inp p hp _
    obtain ⟨i, rfl⟩ := Nat.dvd_of_mod_eq_zero hp
    rw [Nat.mul_div_cancel_left i (by decide), fieldAt_add inp (8 * i) 8 8, show 8 * i + 8 = 8 * (i + 1) by omega,
      fieldAt_byte, fieldAt_byte]
    norm_num

end Sys2Proof.Claims
end

section
/-! The block header by the bits left in the input (rule R61). -/

namespace Sys2Proof.Claims

open Sys2Proof.Machine

/-- With three bits left BFINAL and, from the position after it, BTYPE are read. -/
theorem decodeHeader_of_three_bits {inp : List Byte} {c : Cursor} (hc : CursorInv inp c)
    (h : c.pos + 3 ≤ 8 * inp.length) :
    ∃ c', decodeHeader inp c =
        .ok { instr := headerInstr (fieldAt inp c.pos 1) (fieldAt inp (c.pos + 1) 2), cur := c', regs := none } ∧
      CursorAt inp c' (c.pos + 3) := by
  obtain ⟨c₁, hbfinal, hc₁, hpos₁ : c₁.pos = c.pos + 1⟩ :=
    bitsReturnsTheFieldAtThePosition.1 inp 1 c hc (show c.pos + 1 ≤ _ by omega)
  obtain ⟨c₂, hbtype, hcur⟩ :=
    bitsReturnsTheFieldAtThePosition.1 inp 2 c₁ hc₁ (show c₁.pos + 2 ≤ _ by omega)
  rw [hpos₁] at hbtype hcur
  exact ⟨c₂, bind_eq_ok.mpr ⟨_, hbfinal, bind_eq_ok.mpr ⟨_, hbtype, rfl⟩⟩, hcur⟩

/-- A header that is decoded takes its three bits from the input. -/
theorem decodeHeader_ok_three_bits {inp : List Byte} {c : Cursor} {f : Fetched} (hc : CursorInv inp c)
    (h : decodeHeader inp c = .ok f) : c.pos + 3 ≤ 8 * inp.length := by
  simp only [decodeHeader, bind_eq_ok, return_eq_ok] at h
  obtain ⟨⟨_, c₁⟩, hbfinal, ⟨_, c₂⟩, hbtype, -⟩ := h
  obtain ⟨hc₁, hpos₁ : c₁.pos = c.pos + 1, -⟩ := hc.bits hbfinal
  obtain ⟨hc₂, hpos₂ : c₂.pos = c₁.pos + 2, -⟩ := hc₁.bits hbtype
  have hle := hc₂.pos_le
  omega

/-- Settles O18: the two fields of a header that is there; one that is not can only be rejected as Truncated. -/
theorem headerBitsSelectTheBlock : Obligations.HeaderBitsSelectTheBlock := by
  intro inp c hc
  refine ⟨decodeHeader_of_three_bits hc, fun hshort => ?_⟩
  rw [decodeElement]
  cases hd : decodeHeader inp c with
  | ok f => exact absurd hshort (Nat.not_lt.mpr (decodeHeader_ok_three_bits hc hd))
  | error r => rw [decodeHeader_error hc hd]

end Sys2Proof.Claims
end

section
/-! `align` by stream positions: fewer than 8 bits are held, so the bytes fetched end at the first byte boundary at or
after the position (rules R25, R92). -/

namespace Sys2Proof.Machine

theorem CursorInv.boundary_eq {inp : List Byte} {c : Cursor} (h : CursorInv inp c) :
    8 * c.incnt = 8 * ((c.pos + 7) / 8) := by
  have hpos := h.pos_add
  have hheld := c.bitcnt.isLt
  omega

end Sys2Proof.Machine

namespace Sys2Proof.Claims

open Sys2Proof.Machine

/-- Settles O4: the boundary `align` moves to is the end of the bytes fetched. -/
theorem alignMovesToTheNextByteBoundary : Obligations.AlignMovesToTheNextByteBoundary :=
  fun _ _ hc => ⟨rfl, rfl, rfl, hc.align, hc.boundary_eq⟩

end Sys2Proof.Claims
end

section
/-! The table builder's loops on lists: the tally, the starting offsets and the placement of rule R101, each by what it
leaves after a part of its turns, and their agreement with the stores `construct` writes (rules R102, R105). -/

namespace Sys2Proof.Machine

/-! ### The runs of the symbol order -/

theorem cumulative_mono (lens : List Nat) : Monotone (cumulative lens) :=
  monotone_nat_of_le_succ fun l => by rw [cumulative_succ]; omega

/-- The place of a symbol of length `l + 1` lies before the places of the next length. -/
theorem place_lt_of_lt {lens : List Nat} {l l' j : Nat} (hj : j < lenCount lens (l + 1)) (h : l < l') :
    cumulative lens l + j < cumulative lens l' := by
  have hmono := cumulative_mono lens h
  rw [Nat.succ_eq_add_one, cumulative_succ] at hmono
  omega

/-- No two lengths share a place. -/
theorem place_ne_of_ne {lens : List Nat} {l l' j j' : Nat} (hj : j < lenCount lens (l + 1))
    (hj' : j' < lenCount lens (l' + 1)) (h : l ≠ l') : cumulative lens l + j ≠ cumulative lens l' + j' := by
  obtain hlt | hlt := Nat.lt_or_gt_of_ne h
  · have hplace := place_lt_of_lt hj hlt
    omega
  · have hplace := place_lt_of_lt hj' hlt
    omega

/-- Every place before the run of length `n + 1` is in the run of a length up to `n`. -/
theorem exists_place {lens : List Nat} {n i : Nat} (h : i < cumulative lens n) :
    ∃ l j, l < n ∧ j < lenCount lens (l + 1) ∧ i = cumulative lens l + j := by
  induction n with
  | zero => simp [cumulative] at h
  | succ n ih =>
    by_cases hi : i < cumulative lens n
    · obtain ⟨l, j, hl, hj, rfl⟩ := ih hi
      exact ⟨l, j, by omega, hj, rfl⟩
    · rw [cumulative_succ] at h
      exact ⟨n, i - cumulative lens n, by omega, by omega, by omega⟩

theorem lenCount_lt_of_append {lens p q : List Nat} {a : Nat} (h : lens = p ++ a :: q) :
    lenCount p a < lenCount lens a := by
  simp [h, lenCount]

theorem sortedSymbols_length (lens : List Nat) : (sortedSymbols lens).length = cumulative lens 15 :=
  flatMap_range'_length lens 15

theorem mem_sortedSymbols_lt {lens : List Nat} {s : Nat} (h : s ∈ sortedSymbols lens) : s < lens.length := by
  simp only [sortedSymbols, symbolsOfLen, List.mem_flatMap, List.mem_map, List.mem_filter] at h
  obtain ⟨l, -, ⟨x, k⟩, ⟨hmem, -⟩, rfl⟩ := h
  exact (List.mem_zipIdx' hmem).1

/-! ### What `construct` writes -/

theorem overwrite_toList {α : Type} {cap : Nat} (new : List α) (old : Vector α cap) (h : new.length ≤ cap) :
    (overwrite new old).toList = new ++ old.toList.drop new.length := by
  simp only [overwrite, Vector.toList]
  exact List.take_of_length_le (by simp; omega)

/-- Rule R102: in every case `construct` writes the counts. -/
theorem construct_count {w cap : Nat} (t : Table w cap) (b : BuilderRegs) (lens : List Nat) :
    (construct t b lens).table.count = countStore w lens := by
  unfold construct
  split
  · rfl
  · split <;> rfl

/-- Every residual fits the signed register `left`. -/
theorem left_toInt {lens : List Nat} (h : lens.length < 512) :
    (BitVec.ofInt 17 (residual lens)).toInt = residual lens := by
  have hbounds : -512 ≤ residual lens ∧ residual lens ≤ 32768 := by
    obtain ⟨hspace, hr⟩ | ⟨hneg, hr, -⟩ := residual_cases lens
    · have hspace : nextCode lens 15 ≤ 32768 := hspace 15 le_rfl
      omega
    · omega
  rw [BitVec.toInt_ofInt]
  exact Int.bmod_eq_of_le (by omega) (by omega)

end Sys2Proof.Machine

namespace Sys2Proof.Claims

open Sys2Proof.Machine

/-! ### The tally -/

theorem tally_append_singleton (lens : List Nat) (a : Nat) :
    tally (lens ++ [a]) = (tally lens).set a ((tally lens).getD a 0 + 1) := by
  simp [tally]

@[simp] theorem tally_length (lens : List Nat) : (tally lens).length = 16 := by
  induction lens using List.reverseRecOn with
  | nil => rfl
  | append_singleton lens a ih => rw [tally_append_singleton, List.length_set, ih]

theorem tally_getD (lens : List Nat) {l : Nat} (hl : l < 16) : (tally lens).getD l 0 = lenCount lens l := by
  induction lens using List.reverseRecOn with
  | nil => simp [tally, hl, -List.reduceReplicate]
  | append_singleton lens a ih =>
    rw [tally_append_singleton, lenCount_append, lenCount_singleton, ← ih]
    by_cases h : a = l
    · subst h; simp [hl]
    · simp [h]

/-- Rule R102: the count store holds what the tally loops leave. -/
theorem countStore_toNat {w : Nat} {lens : List Nat} (hw : lens.length < 2 ^ w) :
    (countStore w lens).toList.map (·.toNat) = tally lens := by
  refine List.ext_getElem (by simp) fun l hl _ => ?_
  have hl : l < 16 := by simpa using hl
  have hcount := countStore_getD hl hw
  rw [← tally_getD lens hl] at hcount
  simpa [hl] using hcount

/-! ### The starting offsets -/

/-- `offs` after the first `n` turns of the loop that sums the counts. -/
def offsAfter (count : List Nat) (n : Nat) : List Nat :=
  (List.range' 1 n).foldl (fun offs l => offs.set (l + 1) (offs.getD l 0 + count.getD l 0)) (List.replicate 16 0)

theorem startOffs_eq (count : List Nat) : startOffs count = offsAfter count 14 := rfl

theorem offsAfter_succ (count : List Nat) (n : Nat) :
    offsAfter count (n + 1) =
      (offsAfter count n).set (n + 2) ((offsAfter count n).getD (n + 1) 0 + count.getD (n + 1) 0) := by
  simp [offsAfter, List.range'_concat, show 1 + n = n + 1 by omega]

@[simp] theorem offsAfter_length (count : List Nat) (n : Nat) : (offsAfter count n).length = 16 := by
  induction n with
  | zero => rfl
  | succ n ih => rw [offsAfter_succ, List.length_set, ih]

/-- After `n` turns the offsets up to `n + 1` are in place. -/
theorem offsAfter_getD (lens : List Nat) {n l : Nat} (hn : n ≤ 14) (hl : l ≤ n) :
    (offsAfter (tally lens) n).getD (l + 1) 0 = cumulative lens l := by
  induction n generalizing l with
  | zero =>
    obtain rfl : l = 0 := by omega
    rfl
  | succ n ih =>
    rw [offsAfter_succ]
    obtain hl | rfl : l ≤ n ∨ l = n + 1 := by omega
    · rw [← ih (by omega) hl, List.getD_eq_getElem?_getD, List.getElem?_set_ne (by omega), List.getD_eq_getElem?_getD]
    · rw [ih (by omega) le_rfl, tally_getD lens (by omega), ← cumulative_succ, List.getD_eq_getElem?_getD,
        List.getElem?_set_self (by simp; omega), Option.getD_some]

theorem startOffs_getD (lens : List Nat) {l : Nat} (hl : l ≤ 14) :
    (startOffs (tally lens)).getD (l + 1) 0 = cumulative lens l :=
  offsAfter_getD lens le_rfl hl

/-! ### The placement -/

/-- `offs` and `symbol` after the placement loop has run over the lengths `p`. -/
def placedFrom (offs symbol p : List Nat) : List Nat × List Nat :=
  p.zipIdx.foldl
    (fun st x => if x.1 ≠ 0 then (st.1.set x.1 (st.1.getD x.1 0 + 1), st.2.set (st.1.getD x.1 0) x.2) else st)
    (offs, symbol)

theorem placed_eq (lens symbol : List Nat) : placed lens symbol = placedFrom (startOffs (tally lens)) symbol lens := rfl

theorem placedFrom_append_zero (offs symbol p : List Nat) :
    placedFrom offs symbol (p ++ [0]) = placedFrom offs symbol p := by
  simp [placedFrom, List.zipIdx_append]

theorem placedFrom_append_succ (offs symbol p : List Nat) (a : Nat) :
    placedFrom offs symbol (p ++ [a + 1]) =
      ((placedFrom offs symbol p).1.set (a + 1) ((placedFrom offs symbol p).1.getD (a + 1) 0 + 1),
        (placedFrom offs symbol p).2.set ((placedFrom offs symbol p).1.getD (a + 1) 0) p.length) := by
  simp [placedFrom, List.zipIdx_append]

/-- The placement loop changes cells, it adds none. -/
theorem placedFrom_length (offs symbol p : List Nat) :
    (placedFrom offs symbol p).1.length = offs.length ∧ (placedFrom offs symbol p).2.length = symbol.length := by
  induction p using List.reverseRecOn with
  | nil => exact ⟨rfl, rfl⟩
  | append_singleton p a ih =>
    cases a with
    | zero => rwa [placedFrom_append_zero]
    | succ a => simpa [placedFrom_append_succ] using ih

/-- The loop advances an offset once for each symbol of its length. -/
theorem placedFrom_offs (offs symbol p : List Nat) {l : Nat} (hl : l + 1 < offs.length) :
    (placedFrom offs symbol p).1.getD (l + 1) 0 = offs.getD (l + 1) 0 + lenCount p (l + 1) := by
  induction p using List.reverseRecOn with
  | nil => rfl
  | append_singleton p a ih =>
    rw [lenCount_append, lenCount_singleton]
    cases a with
    | zero => rw [placedFrom_append_zero, ih]; simp
    | succ a =>
      rw [placedFrom_append_succ, ← Nat.add_assoc, ← ih]
      by_cases h : a = l
      · subst h
        simp [(placedFrom_length offs symbol p).1, hl]
      · simp [h]

/-- Before symbol `p.length` of `lens` is placed, its offset is the place behind the symbols of its length in `p`. -/
theorem offset_of_next (lens symbol p : List Nat) {a : Nat} (ha : a + 1 ≤ 15) :
    (placedFrom (startOffs (tally lens)) symbol p).1.getD (a + 1) 0 = cumulative lens a + lenCount p (a + 1) := by
  rw [placedFrom_offs _ _ _ (by rw [startOffs_eq, offsAfter_length]; omega), startOffs_getD lens (by omega)]

/-- The loop writes no cell beyond the number of used symbols. -/
theorem placedFrom_symbol_of_le {lens p q : List Nat} (symbol : List Nat) (hlens : lens = p ++ q)
    (h15 : ∀ l ∈ lens, l ≤ 15) {i : Nat} (hi : cumulative lens 15 ≤ i) :
    (placedFrom (startOffs (tally lens)) symbol p).2[i]? = symbol[i]? := by
  induction p using List.reverseRecOn generalizing q with
  | nil => rfl
  | append_singleton p a ih =>
    have hnext : lens = p ++ a :: q := by simpa using hlens
    have ih := ih hnext
    cases a with
    | zero => rwa [placedFrom_append_zero]
    | succ a =>
      have ha : a + 1 ≤ 15 := h15 _ (by simp [hnext])
      have hplace := place_lt_of_lt (l' := 15) (lenCount_lt_of_append hnext) (by omega)
      rw [placedFrom_append_succ, offset_of_next lens symbol p ha, List.getElem?_set_ne (by omega), ih]

/-- After the lengths `p`, the run of a length begins with the symbols of that length in `p`. -/
theorem placedFrom_symbol {lens p q symbol : List Nat} (hlens : lens = p ++ q) (h15 : ∀ l ∈ lens, l ≤ 15)
    (hsize : lens.length ≤ symbol.length) {l j : Nat} (hj : j < lenCount p (l + 1)) :
    (placedFrom (startOffs (tally lens)) symbol p).2[cumulative lens l + j]? = (symbolsOfLen p (l + 1))[j]? := by
  induction p using List.reverseRecOn generalizing q with
  | nil => simp at hj
  | append_singleton p a ih =>
    have hnext : lens = p ++ a :: q := by simpa using hlens
    have ih := ih hnext
    have hjl : j < lenCount lens (l + 1) := by rw [hlens, lenCount_append]; omega
    rw [lenCount_append, lenCount_singleton] at hj
    rw [symbolsOfLen_append]
    cases a with
    | zero =>
      rw [if_neg (by omega)] at hj ⊢
      rw [placedFrom_append_zero, ih hj, List.append_nil]
    | succ a =>
      have ha : a + 1 ≤ 15 := h15 _ (by simp [hnext])
      have hk := lenCount_lt_of_append hnext
      rw [placedFrom_append_succ, offset_of_next lens symbol p ha]
      by_cases h : a = l
      · subst h
        rw [if_pos rfl] at hj ⊢
        obtain hlt | rfl : j < lenCount p (a + 1) ∨ j = lenCount p (a + 1) := by omega
        · rw [List.getElem?_set_ne (by omega), ih hlt, List.getElem?_append_left (by simpa)]
        · have hplace := place_lt_of_lt hjl (Nat.lt_add_one a)
          have hused := cumulative_le lens (a + 1)
          rw [List.getElem?_set_self (by rw [(placedFrom_length _ _ _).2]; omega)]
          simp
      · rw [if_neg (by omega)] at hj ⊢
        rw [List.getElem?_set_ne (place_ne_of_ne hk hjl h), ih hj, List.append_nil]

/-! ### The stores the loops leave -/

/-- Rule R105: what the placement loop leaves in `symbol` is the used symbols in order, then the old cells. -/
theorem placed_symbol {lens symbol : List Nat} (h15 : ∀ l ∈ lens, l ≤ 15) (hsize : lens.length ≤ symbol.length) :
    (placed lens symbol).2 = sortedSymbols lens ++ symbol.drop (sortedSymbols lens).length := by
  refine List.ext_getElem? fun i => ?_
  rw [placed_eq]
  by_cases hi : i < cumulative lens 15
  · obtain ⟨l, j, hl, hj, rfl⟩ := exists_place hi
    have hsorted := sortedSymbols_at (l := l + 1) (by omega) (by omega) hj
    rw [placedFrom_symbol (List.append_nil lens).symm h15 hsize hj,
      List.getElem?_append_left (by rwa [sortedSymbols_length]), ← hsorted, Nat.add_sub_cancel]
  · rw [placedFrom_symbol_of_le symbol (List.append_nil lens).symm h15 (by omega),
      List.getElem?_append_right (by rw [sortedSymbols_length]; omega), List.getElem?_drop, sortedSymbols_length,
      Nat.add_sub_cancel' (by omega)]

/-- What the placement loop leaves in `offs`: each offset past the symbols of its length (rule R105). -/
theorem placed_offs (lens symbol : List Nat) :
    (placed lens symbol).1.drop 1 = (List.range' 1 15).map (cumulative lens) := by
  have hlength : (placed lens symbol).1.length = 16 := by
    rw [placed_eq, (placedFrom_length _ _ _).1, startOffs_eq, offsAfter_length]
  refine List.ext_getElem (by simp [hlength]) fun l hl _ => ?_
  have hl : l < 15 := by simpa [hlength] using hl
  have hoffs := offset_of_next lens symbol lens (a := l) (by omega)
  rw [← placed_eq, ← cumulative_succ, List.getD_eq_getElem _ _ (by omega)] at hoffs
  simpa [Nat.add_comm] using hoffs

/-- The symbol store `construct` writes holds what the placement loop leaves. -/
theorem overwrite_toNat {w cap : Nat} (old : Vector (BitVec w) cap) {lens : List Nat} (h : Lengths w cap lens) :
    (overwrite ((sortedSymbols lens).map (BitVec.ofNat w)) old).toList.map (·.toNat) =
      (placed lens (old.toList.map (·.toNat))).2 := by
  obtain ⟨hcap, hw, -, h15⟩ := h
  have hle := sortedSymbols_length_le lens
  have hfits : (sortedSymbols lens).map (fun s => (BitVec.ofNat w s).toNat) = sortedSymbols lens := by
    refine (List.map_congr_left fun s hs => ?_).trans (List.map_id _)
    have hlt := mem_sortedSymbols_lt hs
    exact Nat.mod_eq_of_lt (by omega)
  rw [overwrite_toList _ _ (by simp; omega), placed_symbol h15 (by simpa using hcap), List.map_append, List.map_map,
    List.map_drop, List.length_map]
  exact congrArg (· ++ _) hfits

/-- The offsets `construct` writes are what the placement loop leaves. -/
theorem offsStore_toNat {lens : List Nat} (symbol : List Nat) (h : lens.length < 512) :
    (offsStore lens).toList.map (·.toNat) = (placed lens symbol).1.drop 1 := by
  rw [placed_offs]
  simp only [offsStore, Vector.toList, List.map_map]
  refine List.map_congr_left fun l _ => ?_
  exact Nat.mod_eq_of_lt ((cumulative_le lens l).trans_lt h)

/-- Settles O6: by the three outcomes of `construct`, each store by the loop that fills it. -/
theorem constructIsTheLoopsOfTheRule : Obligations.ConstructIsTheLoopsOfTheRule := by
  intro w cap t b lens h
  have ⟨hcap, hcw, hw, _⟩ := h
  have h512 : lens.length < 512 := by
    have hpow : 2 ^ w ≤ 2 ^ 9 := Nat.pow_le_pow_right (by decide) hw
    omega
  have hzero : (tally lens).getD 0 0 = lenCount lens 0 := tally_getD lens (by decide)
  rw [hzero]
  refine ⟨?_, fun hempty => ?_, fun hused => ?_⟩
  · rw [construct_count, countStore_toNat (by omega)]
  · simp only [construct, if_pos hempty, and_self]
  · by_cases hneg : residual lens < 0
    · simp only [construct, if_neg hused, if_pos hneg, true_and]
      exact ⟨left_toInt h512, fun _ => trivial, fun hpos => absurd hneg (Int.not_lt.mpr hpos)⟩
    · simp only [construct, if_neg hused, if_neg hneg, true_and]
      exact ⟨left_toInt h512, fun hneg' => absurd hneg' hneg,
        fun _ => ⟨overwrite_toNat t.symbol h, offsStore_toNat _ h512⟩⟩

end Sys2Proof.Claims
end

section
/-! `output` by its effects: the write index wraps, and the window is read at any cell after the write (rule R121). -/

namespace Sys2Proof.Machine

/-- A read after a write, at any address. -/
theorem memLookup_memWrite (m : List Host.Cell) (a c : Nat) (b : Byte) :
    memLookup (memWrite m a b) c = if c = a then some b else memLookup m c := by
  split
  case isTrue h => rw [h, memLookup_memWrite_same]
  case isFalse h => exact memLookup_memWrite_other m b h

/-- The 15-bit write index advances modulo 32768 (rule R121). -/
theorem output_next_toNat (s : State) (b : Byte) : (output s b).next.toNat = (s.next.toNat + 1) % 32768 :=
  BitVec.toNat_add s.next 1

end Sys2Proof.Machine

namespace Sys2Proof.Claims

open Sys2Proof.Machine

/-- Settles O13: the four effects by the field lemmas of `output`; the record update names no other field. -/
theorem outputIsOneAction : Obligations.OutputIsOneAction :=
  fun s b => ⟨output_out s b, output_next_toNat s b, output_outcnt s b,
    fun a => memLookup_memWrite s.window s.next.toNat a b, rfl⟩

end Sys2Proof.Claims
end

section
/-! A single final stored block (rule R147): its bytes, what its two elements are decoded to, and the data it moves. -/

namespace Sys2Proof.Machine

/-- Outside a busy phase an offered `START` begins a run (rule R302). -/
theorem step_start {s : State} (hreset : s.host.reset = false) (hstart : s.host.start = true)
    (hidle : s.busyFlag = false) : step s = .next (startRun s) := by
  simp [step, hreset, hstart, hidle]

/-- A step that is neither a reset nor an accepted `START` and decodes an element. -/
theorem step_of_element {s : State} {ctx : Context} {f : Fetched} (hreset : s.host.reset = false)
    (hstart : s.host.start = false) (hc : s.context = some ctx) (hd : decodeElement ctx s.input s.cur = .ok f) :
    step s = exec f.instr (s.consume f) := by
  rw [← stepElement_ok hc hd]
  simp [step, hreset, hstart]

/-- The first step of a run, when it answers a next state. -/
theorem core_run_succ {s t : State} (k : Nat) (h : step s = .next t) : core.run (k + 1) s = core.run k t := by
  have hcore : core.step s = .next t := h
  simp only [Host.Core.run, hcore]

/-- LEN and NLEN are the four bytes after the boundary, low byte first (rules R141, R145). -/
theorem decodeStored_of_four_bytes {inp : List Byte} {c : Cursor} (hc : CursorInv inp c)
    (h : c.incnt + 4 ≤ inp.length) :
    decodeStored inp c = .ok
      { instr := .storedBody
          (BitVec.ofNat 16 ((inp.getD c.incnt 0).toNat + 256 * (inp.getD (c.incnt + 1) 0).toNat))
          (BitVec.ofNat 16 ((inp.getD (c.incnt + 2) 0).toNat + 256 * (inp.getD (c.incnt + 3) 0).toNat))
        cur := { incnt := c.incnt + 4, bitbuf := 0, bitcnt := 0 }
        regs := none } := by
  have word (i : Nat) : fieldAt inp (8 * i) 16 = (inp.getD i 0).toNat + 256 * (inp.getD (i + 1) 0).toNat := by
    rw [fieldAt_add inp (8 * i) 8 8, show 8 * i + 8 = 8 * (i + 1) by omega, fieldAt_byte, fieldAt_byte,
      show 2 ^ 8 = 256 from rfl]
  obtain ⟨hbase, hbasePos⟩ := hc.align
  obtain ⟨c₁, hlen, hc₁, hpos₁ : c₁.pos = (align c).pos + 16⟩ :=
    Claims.bitsReturnsTheFieldAtThePosition.1 inp 16 _ hbase (show (align c).pos + 16 ≤ _ by omega)
  obtain ⟨c₂, hnlen, hc₂, hpos₂ : c₂.pos = c₁.pos + 16⟩ :=
    Claims.bitsReturnsTheFieldAtThePosition.1 inp 16 c₁ hc₁ (show c₁.pos + 16 ≤ _ by omega)
  have hend : CursorInv inp { incnt := c.incnt + 4, bitbuf := 0, bitcnt := 0 } :=
    ⟨h, fun _ => rfl, fun hn => absurd rfl hn⟩
  have hendPos : Cursor.pos { incnt := c.incnt + 4, bitbuf := 0, bitcnt := 0 } = 8 * (c.incnt + 4) := rfl
  obtain rfl := hc₂.eq_of_pos hend (by omega)
  rw [hbasePos] at hlen hpos₁
  rw [hpos₁, show 8 * c.incnt + 16 = 8 * (c.incnt + 2) by omega] at hnlen
  simp only [show ((16 : Fin 17) : Nat) = 16 from rfl, word] at hlen hnlen
  exact bind_eq_ok.mpr ⟨_, hlen, bind_eq_ok.mpr ⟨_, hnlen, rfl⟩⟩

/-- Data that are all there are output, and the block ends (rules R142, R144). -/
theorem storedLoop_ok {n : Nat} {s : State} (haligned : s.cur.bitcnt = 0) (hdata : s.cur.incnt + n ≤ s.input.length) :
    ∃ t, storedLoop n s = .next t ∧ t.out = s.out ++ (s.input.drop s.cur.incnt).take n ∧
      (s.bfinal = 1 → t.phase = .done) := by
  obtain ⟨-, hmoved⟩ | ⟨hshort, -⟩ := storedLoop_cases n haligned (Nat.le_of_add_right_le hdata)
  · obtain ⟨hout, -, -, -, -, -, hrest⟩ := storedMoved_frame n hdata
    refine ⟨_, hmoved, hout, fun hfinal => ?_⟩
    rw [endBlock_phase, hrest, if_pos hfinal]
  · exact absurd hdata (Nat.not_le.mpr hshort)

/-- A stored body that passes its complement check moves its data (rule R143). -/
theorem exec_storedBody_ok {len nlen : BitVec 16} {s : State}
    (hcheck : s.params.checkNlen = true → len ^^^ nlen = 0xFFFF)
    (haligned : s.cur.bitcnt = 0) (hdata : s.cur.incnt + len.toNat ≤ s.input.length) :
    ∃ t, exec (.storedBody len nlen) s = .next t ∧
      t.out = s.out ++ (s.input.drop s.cur.incnt).take len.toNat ∧ (s.bfinal = 1 → t.phase = .done) := by
  obtain ⟨hp, hne, -⟩ | ⟨-, hbody⟩ := storedBody_cases s.params len nlen s
  · exact absurd (hcheck hp) hne
  · obtain ⟨t, hloop, hresult⟩ := storedLoop_ok haligned hdata
      (s := { s with blk.slen := len, blk.snlen := nlen, blk.scnt := len })
    exact ⟨t, hbody.trans hloop, hresult⟩

/-- The bytes of a single final stored block that holds `d` (rule R147). -/
def storedStream (d : List Byte) : List Byte :=
  [0x01, BitVec.ofNat 8 (d.length % 256), BitVec.ofNat 8 (d.length / 256),
    BitVec.ofNat 8 ((65535 - d.length) % 256), BitVec.ofNat 8 ((65535 - d.length) / 256)] ++ d

@[simp] theorem storedStream_length (d : List Byte) : (storedStream d).length = 5 + d.length := List.length_append

@[simp] theorem storedStream_drop (d : List Byte) : (storedStream d).drop 5 = d := rfl

/-- The two bytes of a 16-bit value give it back. -/
theorem word_of_bytes {n : Nat} (h : n < 65536) :
    (BitVec.ofNat 8 (n % 256)).toNat + 256 * (BitVec.ofNat 8 (n / 256)).toNat = n := by
  simp only [BitVec.toNat_ofNat]
  omega

/-- `65535 - n` is the 16-bit complement of `n`. -/
theorem xor_complement {n : Nat} (h : n < 65536) : BitVec.ofNat 16 n ^^^ BitVec.ofNat 16 (65535 - n) = 0xFFFF := by
  have hnot : BitVec.ofNat 16 (65535 - n) = ~~~BitVec.ofNat 16 n :=
    BitVec.eq_of_toNat_eq (by simp only [BitVec.toNat_ofNat, BitVec.toNat_not]; omega)
  rw [hnot, ← BitVec.not_xor_right, BitVec.xor_self]
  rfl

/-- The first byte, 01, is the header of a final stored block; five bits of pad stay held. -/
def storedStreamHeader : Fetched where
  instr := .blockStored 1
  cur := { incnt := 1, bitbuf := 0, bitcnt := 5 }
  regs := none

/-- The next four bytes are the data's length and its complement. -/
def storedStreamBody (d : List Byte) : Fetched where
  instr := .storedBody (BitVec.ofNat 16 d.length) (BitVec.ofNat 16 (65535 - d.length))
  cur := { incnt := 5, bitbuf := 0, bitcnt := 0 }
  regs := none

theorem decodeHeader_storedStream (d : List Byte) :
    decodeHeader (storedStream d) { incnt := 0, bitbuf := 0, bitcnt := 0 } = .ok storedStreamHeader := rfl

theorem decodeStored_storedStream {d : List Byte} (h : d.length < 65536) :
    decodeStored (storedStream d) storedStreamHeader.cur = .ok (storedStreamBody d) := by
  have hstart : CursorInv (storedStream d) { incnt := 0, bitbuf := 0, bitcnt := 0 } :=
    ⟨Nat.zero_le _, fun _ => rfl, fun hn => absurd rfl hn⟩
  obtain ⟨⟨hpad, -⟩, -⟩ := decodeHeader_ok hstart (decodeHeader_storedStream d)
  refine (decodeStored_of_four_bytes hpad (by simp [storedStreamHeader])).trans ?_
  have hlen := word_of_bytes h
  have hnlen := word_of_bytes (show 65535 - d.length < 65536 by omega)
  simp only [storedStream, storedStreamHeader, List.cons_append, List.nil_append, List.getD_cons_succ,
    List.getD_cons_zero, hlen, hnlen]
  rfl

/-- The header step: STORED, the block marked final, the pad still held. -/
theorem step_storedStream_header {s : State} {d : List Byte} (hreset : s.host.reset = false)
    (hstart : s.host.start = false) (hphase : s.phase = .header) (hinput : s.input = storedStream d)
    (hcur : s.cur = { incnt := 0, bitbuf := 0, bitcnt := 0 }) :
    ∃ t, step s = .next t ∧ t.host = s.host ∧ t.phase = .stored ∧ t.input = s.input ∧
      t.cur = storedStreamHeader.cur ∧ t.bfinal = 1 ∧ t.out = s.out :=
  have hstep : step s = execBlockStored 1 (s.consume storedStreamHeader) :=
    step_of_element (f := storedStreamHeader) hreset hstart (ctx := .header) (by simp only [State.context, hphase])
      (by rw [hinput, hcur]; exact decodeHeader_storedStream d)
  ⟨_, hstep, rfl, rfl, rfl, rfl, rfl, rfl⟩

/-- The body step: DONE, the data appended to the output. -/
theorem step_storedStream_body {s : State} {d : List Byte} (hreset : s.host.reset = false)
    (hstart : s.host.start = false) (hphase : s.phase = .stored) (hinput : s.input = storedStream d)
    (hcur : s.cur = storedStreamHeader.cur) (hfinal : s.bfinal = 1) (h : d.length < 65536) :
    ∃ t, step s = .next t ∧ t.phase = .done ∧ t.out = s.out ++ d := by
  have hstep := step_of_element (f := storedStreamBody d) hreset hstart (ctx := .storedBody)
    (by simp only [State.context, hphase]) (by rw [hinput, hcur]; exact decodeStored_storedStream h)
  have hlen : (BitVec.ofNat 16 d.length).toNat = d.length := Nat.mod_eq_of_lt h
  obtain ⟨t, hexec, hout, hdone⟩ := exec_storedBody_ok (s := s.consume (storedStreamBody d))
    (fun _ => xor_complement h) rfl (by simp [hlen, hinput, storedStreamBody])
  refine ⟨t, hstep.trans hexec, hdone hfinal, ?_⟩
  simpa [hlen, hinput, storedStreamBody] using hout

end Sys2Proof.Machine

namespace Sys2Proof.Claims

open Sys2Proof.Machine

/-- Settles O58: `START` begins a run over the stream, whose header and body then end it. -/
theorem storedBlockIdentity : Obligations.StoredBlockIdentity := by
  intro s d hidle hd
  have hrun := step_start (s := { s with host := ⟨storedStream d, true, false⟩ }) rfl rfl hidle
  obtain ⟨t₁, hheader, hhost, hphase, hinput, hcur, hfinal, hout₁⟩ :=
    step_storedStream_header (s := startRun { s with host := ⟨storedStream d, true, false⟩ }) rfl rfl rfl rfl rfl
  obtain ⟨t₂, hbody, hdone, hout₂⟩ :=
    step_storedStream_body (s := t₁) (by rw [hhost]; rfl) (by rw [hhost]; rfl) hphase hinput hcur hfinal hd
  refine ⟨t₂, ?_, ?_⟩
  · exact (core_run_succ 2 hrun).trans <| (core_run_succ 1 hheader).trans <| core_run_succ 0 hbody
  · rw [State.result, hdone, hout₂, hout₁]
    rfl

end Sys2Proof.Claims
end

section
/-! The symbol decoder by the codewords of the code its table was built over (rules R111 to R114). -/

namespace Sys2Proof.Claims

open Sys2Proof.Machine

theorem Lengths.holds {w cap : Nat} {t : Table w cap} {b : BuilderRegs} {lens : List Nat} (h : Lengths w cap lens)
    (hr : 0 ≤ (construct t b lens).result) : Holds (construct t b lens).table lens :=
  construct_holds t b h.1 h.2.1 hr

/-- A symbol with a codeword is one of the code, and its codeword has at most 15 bits. -/
theorem CodewordAt.range {lens : List Nat} {inp : List Byte} {p s l : Nat} (h15 : ∀ l ∈ lens, l ≤ 15)
    (h : CodewordAt lens inp p s l) : s < lens.length ∧ l ≤ 15 := by
  obtain ⟨v, hcode, -, -⟩ := h
  obtain ⟨-, hlen, -⟩ := codewordOf_eq_some.mp hcode
  exact ⟨(List.getElem?_eq_some_iff.mp hlen).1, h15 l (List.mem_of_getElem? hlen)⟩

/-- A codeword stands at a position exactly when the value read there in its length is its value. -/
theorem codewordAt_iff {lens : List Nat} (hspace : ∀ l, l ≤ 15 → nextCode lens l ≤ 2 ^ l) (h15 : ∀ l ∈ lens, l ≤ 15)
    {inp : List Byte} {p s l : Nat} :
    CodewordAt lens inp p s l ↔ p + l ≤ 8 * inp.length ∧ codewordOf lens s = some (l, codeAt inp p l) := by
  have value {v : Nat} (hcode : codewordOf lens s = some (l, v)) : v < 2 ^ l := by
    obtain ⟨-, hlen, -⟩ := codewordOf_eq_some.mp hcode
    exact (codewordOf_bounds hcode).2.trans_le (hspace l (h15 l (List.mem_of_getElem? hlen)))
  constructor
  · rintro ⟨v, hcode, hfits, hbits⟩
    exact ⟨hfits, (streamBits_eq_msbBits (value hcode)).mp hbits ▸ hcode⟩
  · rintro ⟨hfits, hcode⟩
    exact ⟨_, hcode, hfits, (streamBits_eq_msbBits (value hcode)).mpr rfl⟩

variable {w cap : Nat} {t : Table w cap} {lens : List Nat} {inp : List Byte} {c : Cursor}

/-- `decode` by the codeword at the position: its symbol, or the fault for want of one. -/
theorem decodeSym_codeword (ht : Holds t lens) (h15 : ∀ l ∈ lens, l ≤ 15) (hc : CursorInv inp c) :
    (∃ s l d regs, CodewordAt lens inp c.pos s l ∧ decodeSym t inp c = .ok { sym := s, cur := d, regs := regs } ∧
        CursorAt inp d (c.pos + l)) ∨
      ((∀ s l, ¬ CodewordAt lens inp c.pos s l) ∧
        decodeSym t inp c = .error (if 8 * inp.length < c.pos + 15 then .truncated else .undecodable)) := by
  obtain ⟨l, s, d, regs, -, -, hfits, hcode, hd, hcur⟩ | ⟨hnone, herr⟩ := decodeSym_cases ht hc
  · exact .inl ⟨s, l, d, regs, (codewordAt_iff ht.space h15).mpr ⟨hfits, hcode⟩, hd, hcur⟩
  · refine .inr ⟨fun s l h => ?_, herr⟩
    obtain ⟨hfits, hcode⟩ := (codewordAt_iff ht.space h15).mp h
    exact (codewordOf_bounds hcode).2.not_ge (hnone l (h.range h15).2 hfits)

/-- At most one codeword stands at a position: none is the beginning of another. -/
theorem CodewordAt.unique (ht : Holds t lens) (h15 : ∀ l ∈ lens, l ≤ 15) {p s s' l l' : Nat}
    (h : CodewordAt lens inp p s l) (h' : CodewordAt lens inp p s' l') : s = s' ∧ l = l' := by
  obtain ⟨-, hcode⟩ := (codewordAt_iff ht.space h15).mp h
  obtain ⟨-, hcode'⟩ := (codewordAt_iff ht.space h15).mp h'
  obtain hlt | rfl | hgt := Nat.lt_trichotomy l l'
  · exact absurd (codeword_is_first hcode' hlt) (codewordOf_bounds hcode).2.not_ge
  · exact ⟨codewordOf_inj hcode hcode', rfl⟩
  · exact absurd (codeword_is_first hcode hgt) (codewordOf_bounds hcode').2.not_ge

/-- Rule R114: a codeword at the position is decoded. -/
theorem decodeSym_of_codeword (ht : Holds t lens) (h15 : ∀ l ∈ lens, l ≤ 15) (hc : CursorInv inp c) {s l : Nat}
    (h : CodewordAt lens inp c.pos s l) :
    ∃ d regs, decodeSym t inp c = .ok { sym := s, cur := d, regs := regs } ∧ CursorAt inp d (c.pos + l) := by
  obtain ⟨s', l', d, regs, h', hd, hcur⟩ | ⟨hnone, -⟩ := decodeSym_codeword ht h15 hc
  · obtain ⟨rfl, rfl⟩ := h.unique ht h15 h'
    exact ⟨d, regs, hd, hcur⟩
  · exact absurd h (hnone s l)

/-- Rule R114: a decoded symbol's codeword stands at the position. -/
theorem codeword_of_decodeSym (ht : Holds t lens) (h15 : ∀ l ∈ lens, l ≤ 15) (hc : CursorInv inp c) {d : Decoded}
    (h : decodeSym t inp c = .ok d) : ∃ l, CodewordAt lens inp c.pos d.sym l ∧ CursorAt inp d.cur (c.pos + l) := by
  obtain ⟨s, l, d', regs, hat, hd, hcur⟩ | ⟨-, herr⟩ := decodeSym_codeword ht h15 hc
  · obtain rfl := Except.ok.inj (hd.symm.trans h)
    exact ⟨l, hat, hcur⟩
  · rw [herr] at h; cases h

/-- Rule R113: `decode` fails exactly where no codeword stands. -/
theorem decodeSym_error_iff (ht : Holds t lens) (h15 : ∀ l ∈ lens, l ≤ 15) (hc : CursorInv inp c) {r : Reject} :
    decodeSym t inp c = .error r ↔ (∀ s l, ¬ CodewordAt lens inp c.pos s l) ∧
      r = if 8 * inp.length < c.pos + 15 then .truncated else .undecodable := by
  obtain ⟨s, l, d, regs, hat, hd, -⟩ | ⟨hnone, herr⟩ := decodeSym_codeword ht h15 hc
  · rw [hd]
    exact ⟨nofun, fun ⟨hnone, _⟩ => absurd hat (hnone s l)⟩
  · rw [herr, Except.error.injEq]
    exact ⟨fun h => ⟨hnone, h.symm⟩, fun h => h.2.symm⟩

/-- Settles O10: a decoded codeword is the one that stands there, and two cursors at one position are equal. -/
theorem decodeReadsExactlyTheCodewords : Obligations.DecodeReadsExactlyTheCodewords := by
  intro w cap t b lens inp c hlens hr hc s c'
  have ht := hlens.holds hr
  obtain ⟨-, -, -, h15⟩ := hlens
  constructor
  · rintro ⟨regs, h⟩
    exact codeword_of_decodeSym ht h15 hc h
  · rintro ⟨l, hat, hc', hpos⟩
    obtain ⟨d, regs, hd, hinv, hdpos⟩ := decodeSym_of_codeword ht h15 hc hat
    obtain rfl := hc'.eq_of_pos hinv (hpos.trans hdpos.symm)
    exact ⟨regs, hd⟩

/-- Settles O11: the failures of `decode` over an accepted code. -/
theorem decodeFailsOnlyWithoutACodeword : Obligations.DecodeFailsOnlyWithoutACodeword :=
  fun _ _ _ _ _ _ _ hlens hr hc _ => decodeSym_error_iff (hlens.holds hr) hlens.2.2.2 hc

end Sys2Proof.Claims
end

section
/-! The code space, the empty code and the two fixed codes (rules R70, R71, R103, R106, R151, R152). -/

namespace Sys2Proof.Claims

open Sys2Proof.Machine

/-! ### The code space -/

/-- The codewords of length `n` end where the code space used by the lengths up to `n` does. -/
theorem nextCode_eq_sum (lens : List Nat) (n : Nat) :
    nextCode lens n = ((List.range' 1 n).map fun l => lenCount lens l * 2 ^ (n - l)).sum := by
  induction n with
  | zero => simp [nextCode, firstCode]
  | succ n ih =>
    have hdouble : (List.range' 1 n).map (fun l => lenCount lens l * 2 ^ (n + 1 - l)) =
        (List.range' 1 n).map fun l => 2 * (lenCount lens l * 2 ^ (n - l)) := by
      refine List.map_congr_left fun l hl => ?_
      have hl : l ≤ n := by rw [List.mem_range'_1] at hl; omega
      rw [Nat.succ_sub hl, Nat.pow_succ]
      ring
    rw [nextCode_succ, ih, List.range'_concat, List.map_append, List.sum_append, hdouble, List.sum_map_mul_left]
    simp [Nat.add_comm]

theorem nextCode_fifteen (lens : List Nat) : nextCode lens 15 = spaceUsed lens := nextCode_eq_sum lens 15

/-- A length that overflows its own code space overflows that of 15 bits. -/
theorem two_pow_lt_nextCode_fifteen {lens : List Nat} {l : Nat} (hl : l ≤ 15) (h : 2 ^ l < nextCode lens l) :
    32768 < nextCode lens 15 := by
  obtain rfl | hlt := Nat.eq_or_lt_of_le hl
  · exact h
  · have hmul := nextCode_mul_le lens l (14 - l)
    rw [show 14 - l + 1 = 15 - l by omega, show l + (14 - l) + 1 = 15 by omega] at hmul
    have hpow : 2 ^ l * 2 ^ (15 - l) = 32768 := by rw [← Nat.pow_add, Nat.add_sub_cancel' hl]
    calc 32768 = 2 ^ l * 2 ^ (15 - l) := hpow.symm
      _ < nextCode lens l * 2 ^ (15 - l) := Nat.mul_lt_mul_of_pos_right h (Nat.two_pow_pos _)
      _ ≤ firstCode lens 15 := hmul
      _ ≤ nextCode lens 15 := Nat.le_add_right _ _

/-- Settles O8: the walk ends at the last length, or at one whose codewords overflow. -/
theorem residualIsTheUnusedCodeSpace : Obligations.ResidualIsTheUnusedCodeSpace := by
  intro lens
  rw [← nextCode_fifteen]
  obtain ⟨hspace, hr⟩ | ⟨hneg, hlow, l, hl, hover⟩ := residual_cases lens
  · have hspace : nextCode lens 15 ≤ 32768 := hspace 15 le_rfl
    omega
  · have hover := two_pow_lt_nextCode_fifteen hl hover
    omega

/-! ### The empty code -/

@[simp] theorem lenCount_replicate (n a l : Nat) : lenCount (List.replicate n a) l = if a = l then n else 0 := by
  simp [lenCount, List.countP_replicate]

theorem construct_replicate_zero {w cap : Nat} (t : Table w cap) (b : BuilderRegs) (n : Nat) :
    construct t b (List.replicate n 0) =
      { result := 0, table := { t with count := countStore w (List.replicate n 0) }, regs := b } := by
  simp [construct]

/-- No symbol of the empty code has a codeword. -/
theorem not_codewordAt_replicate_zero (n : Nat) (inp : List Byte) (p s l : Nat) :
    ¬ CodewordAt (List.replicate n 0) inp p s l := by
  rintro ⟨v, hcode, -⟩
  obtain ⟨hpos, hlen, -⟩ := codewordOf_eq_some.mp hcode
  have hzero := List.eq_of_mem_replicate (List.mem_of_getElem? hlen)
  omega

/-- Settles O7: the counts of the empty code are 0, so no codeword stands anywhere. -/
theorem emptyCodeIsAcceptedAndDecodesNothing : Obligations.EmptyCodeIsAcceptedAndDecodesNothing := by
  intro w cap t b n hn hcap
  have hr : 0 ≤ (construct t b (List.replicate n 0)).result := by rw [construct_replicate_zero]
  have ht := construct_holds t b (by simpa using hn) hcap hr
  refine ⟨by rw [construct_replicate_zero], by rw [construct_replicate_zero], fun l h1 h2 => ?_, fun inp c hc => ?_⟩
  · rw [ht.count l (by omega), lenCount_replicate, if_neg (by omega)]
  · have h15 : ∀ l ∈ List.replicate n 0, l ≤ 15 := fun l hl => by rw [List.eq_of_mem_replicate hl]; omega
    exact (decodeSym_error_iff ht h15 hc).mpr ⟨not_codewordAt_replicate_zero n inp c.pos, rfl⟩

/-! ### The fixed codes -/

theorem fixll_getElem? (s : Nat) :
    fixll[s]? = if s < 144 then some 8 else if s < 256 then some 9 else if s < 280 then some 7
      else if s < 288 then some 8 else none := by
  simp only [fixll, List.getElem?_append, List.getElem?_replicate, List.length_replicate]
  grind

/-- How many symbols below `s` share the length `l` in the fixed literal/length code. -/
theorem lenCount_take_fixll (s l : Nat) :
    lenCount (fixll.take s) l = (if 8 = l then min s 144 else 0) + ((if 9 = l then min (s - 144) 112 else 0) +
      ((if 7 = l then min (s - 256) 24 else 0) + if 8 = l then min (s - 280) 8 else 0)) := by
  simp only [fixll, List.take_append, List.take_replicate, List.length_replicate, lenCount_append, lenCount_replicate]
  grind

theorem firstCode_fixll : firstCode fixll 7 = 0 ∧ firstCode fixll 8 = 48 ∧ firstCode fixll 9 = 400 := by
  decide +kernel

theorem codewordOf_fixll (s : Nat) : codewordOf fixll s =
    if s < 144 then some (8, 48 + s) else if s < 256 then some (9, 400 + (s - 144))
    else if s < 280 then some (7, s - 256) else if s < 288 then some (8, 192 + (s - 280)) else none := by
  obtain ⟨h7, h8, h9⟩ := firstCode_fixll
  rw [codewordOf, fixll_getElem?]
  split_ifs <;> simp [lenCount_take_fixll, h7, h8, h9] <;> omega

theorem codewordOf_fixd (d : Nat) : codewordOf fixd d = if d < 30 then some (5, d) else none := by
  have h5 : firstCode fixd 5 = 0 := by decide +kernel
  have hcount : lenCount (fixd.take d) 5 = min d 30 := by rw [fixd, List.take_replicate, lenCount_replicate, if_pos rfl]
  have hlen : fixd[d]? = if d < 30 then some 5 else none := List.getElem?_replicate
  rw [codewordOf, hlen]
  split_ifs with h
  · simp [h5, hcount, Nat.le_of_lt h]
  · rfl

/-- Settles O12: each band's first codeword, and the symbols of the same length before it. -/
theorem fixedCodewordsAreTheBands : Obligations.FixedCodewordsAreTheBands := ⟨codewordOf_fixll, codewordOf_fixd⟩

/-- An accepted code that uses the whole store leaves nothing of what it held. -/
theorem construct_full {w cap : Nat} (t : Table w cap) (b : BuilderRegs) {lens : List Nat}
    (hused : lenCount lens 0 ≠ lens.length) (hr : 0 ≤ residual lens) (hfull : (sortedSymbols lens).length = cap) :
    (construct t b lens).result = residual lens ∧
      (construct t b lens).table.symbol.toList = (sortedSymbols lens).map (BitVec.ofNat w) := by
  simp only [construct, if_neg hused, if_neg (Int.not_lt.mpr hr), true_and]
  rw [overwrite_toList _ _ (by simp [hfull]), List.drop_of_length_le (by simp [hfull]), List.append_nil]

theorem table_ext {w cap : Nat} {t u : Table w cap} (hcount : t.count = u.count)
    (hsymbol : t.symbol.toList = u.symbol.toList) : t = u := by
  obtain ⟨_, _⟩ := t
  obtain ⟨_, _⟩ := u
  simp only [Vector.toList_inj] at hcount hsymbol
  rw [hcount, hsymbol]

theorem construct_fixll (t : Table 9 288) (b : BuilderRegs) :
    (construct t b fixll).result = 0 ∧ (construct t b fixll).table = fixedLltab := by
  obtain ⟨hr, hsymbol⟩ := construct_full t b (lens := fixll) (by decide +kernel) (by decide +kernel) (by decide +kernel)
  refine ⟨hr.trans (by decide +kernel), table_ext ?_ (hsymbol.trans (by decide +kernel))⟩
  rw [construct_count]
  decide +kernel

theorem construct_fixd (t : Table 5 30) (b : BuilderRegs) :
    (construct t b fixd).result = 2048 ∧ (construct t b fixd).table = fixedDtab := by
  obtain ⟨hr, hsymbol⟩ := construct_full t b (lens := fixd) (by decide +kernel) (by decide +kernel) (by decide +kernel)
  refine ⟨hr.trans (by decide +kernel), table_ext ?_ (hsymbol.trans (by decide +kernel))⟩
  rw [construct_count]
  decide +kernel

/-- Settles O9: both fixed codes fill their stores; what they fill them with is computed. -/
theorem fixedTablesAreWhatConstructBuilds : Obligations.FixedTablesAreWhatConstructBuilds :=
  ⟨construct_fixll, construct_fixd⟩

theorem lengths_fixll : Lengths 9 288 fixll := ⟨by decide +kernel, by decide, by decide, by decide +kernel⟩

theorem lengths_fixd : Lengths 5 30 fixd := ⟨by decide +kernel, by decide, by decide, by decide +kernel⟩

theorem holds_fixedLltab : Holds fixedLltab fixll := by
  obtain ⟨hr, htable⟩ := construct_fixll fixedLltab BlockRegs.zero.builder
  exact htable ▸ lengths_fixll.holds (by rw [hr])

theorem holds_fixedDtab : Holds fixedDtab fixd := by
  obtain ⟨hr, htable⟩ := construct_fixd fixedDtab BlockRegs.zero.builder
  exact htable ▸ lengths_fixd.holds (by rw [hr]; decide)

end Sys2Proof.Claims
end

section
/-! The Bit Cursor at its edges: the end of the input, the width 0, and a byte at a boundary (rules R91, R93, R94). -/

namespace Sys2Proof.Claims

open Sys2Proof.Machine

theorem bits_error_iff {inp : List Byte} {c : Cursor} (hc : CursorInv inp c) (n : Fin 17) {r : Reject} :
    bits inp n c = .error r ↔ 8 * inp.length < c.pos + n.val ∧ r = .truncated := by
  obtain ⟨hlt, he⟩ | ⟨hle, c', hok, -⟩ := bits_cases hc n
  · simp [he, hlt, eq_comm]
  · simp [hok, Nat.not_lt.mpr hle]

theorem nextbyte_error_iff {inp : List Byte} {c : Cursor} (hc : CursorInv inp c) :
    nextbyte inp c = .error .truncated ↔ c.incnt = inp.length := by
  have hle : c.incnt ≤ inp.length := hc.1
  cases hb : inp[c.incnt]? with
  | none =>
    have hend := List.getElem?_eq_none_iff.mp hb
    simp only [nextbyte, hb, true_iff]
    omega
  | some b =>
    have hlt := (List.getElem?_eq_some_iff.mp hb).1
    simp only [nextbyte, hb, reduceCtorEq, false_iff]
    omega

/-- Settles O2: by the two outcomes of `bits`, and by the byte at `incnt`. -/
theorem truncatedExactlyPastTheInput : Obligations.TruncatedExactlyPastTheInput :=
  fun _ _ hc => ⟨fun n => ⟨by simp [bits_error_iff hc n], fun _ h => bits_error_eq hc h⟩, nextbyte_error_iff hc⟩

/-- Settles O3: nothing is fetched, and the registers take their own values back. -/
theorem zeroWidthFieldReadsNothing : Obligations.ZeroWidthFieldReadsNothing := by
  intro inp c
  simp [bits, refill, Nat.mod_one]

/-- The cursor one byte on from a byte boundary. -/
theorem cursorAt_next_byte {inp : List Byte} {c : Cursor} (hc : CursorInv inp c) (hz : c.bitcnt = 0)
    (hlt : c.incnt < inp.length) : CursorAt inp { c with incnt := c.incnt + 1 } (c.pos + 8) := by
  refine ⟨⟨hlt, hc.2.1, fun hn => absurd hz hn⟩, ?_⟩
  simp [Cursor.pos, hz, Nat.mul_succ]

/-- Settles O5: at a boundary the next byte is the next eight bits, there or not. -/
theorem nextbyteIsAnAlignedByte : Obligations.NextbyteIsAnAlignedByte := by
  intro inp c hc hz
  have hpos : c.pos = 8 * c.incnt := by simp [Cursor.pos, hz]
  have hbyte (hlt : c.incnt < inp.length) :
      nextbyte inp c = .ok (inp.getD c.incnt 0, { c with incnt := c.incnt + 1 }) := by
    simp [nextbyte, hlt]
  refine ⟨fun hlt => ⟨hbyte hlt, cursorAt_next_byte hc hz hlt⟩, ?_⟩
  obtain ⟨hlt, he⟩ | ⟨hle, d, hok, hd, hdpos⟩ := bits_cases hc 8
  · have hend : c.incnt = inp.length := by
      have hinv : c.incnt ≤ inp.length := hc.1
      have h8 : 8 * inp.length < c.pos + 8 := hlt
      omega
    rw [he, (nextbyte_error_iff hc).mpr hend]
    rfl
  · have hlt : c.incnt < inp.length := by
      have h8 : c.pos + 8 ≤ 8 * inp.length := hle
      omega
    obtain ⟨hinv, hnext⟩ := cursorAt_next_byte hc hz hlt
    obtain rfl := hd.eq_of_pos hinv (hdpos.trans hnext.symm)
    have hval : fieldAt inp c.pos 8 = (inp.getD c.incnt 0).toNat := hpos ▸ fieldAt_byte inp c.incnt
    rw [hok, hbyte hlt]
    exact congrArg (fun v => Except.ok (v, _)) hval

end Sys2Proof.Claims
end

section
/-! Symbols with extra bits: the three element decoders that read a symbol as one reader, by its codeword and its extra
bits (rules R66 to R68, R190, R194). -/

namespace Sys2Proof.Machine

/-- A symbol, then its extra bits: what the decoders of code-length, literal/length and distance symbols have in
common. -/
def readSymbol {w cap : Nat} (t : Table w cap) (width : Nat → Fin 17) (instr : Nat → Nat → Instr) (inp : List Byte)
    (c : Cursor) : Except Reject Fetched := do
  let d ← decodeSym t inp c
  let (e, c) ← bits inp (width d.sym) d.cur
  return { instr := instr d.sym e, cur := c, regs := some d.regs }

/-- The width of a code-length symbol's repeat field; a first symbol 16 has none read (rule R169). -/
def codeWidth (first : Bool) (s : Nat) : Fin 17 :=
  if s = 16 then (if first then 0 else 2) else if s = 17 then 3 else if s = 18 then 7 else 0

/-- The instruction of a code-length symbol and its repeat field. -/
def codeInstr (s r : Nat) : Instr :=
  if s < 16 then .cl0to15 (BitVec.ofNat 4 s) else if s = 16 then .cl16 (BitVec.ofNat 2 r)
  else if s = 17 then .cl17 (BitVec.ofNat 3 r) else .cl18 (BitVec.ofNat 7 r)

/-- The width of a literal/length symbol's extra bits (rule R74). -/
def lengthWidth (s : Nat) : Fin 17 := lext.getD (s - 257) 0

/-- The instruction of a literal/length symbol below 288 and its extra value. -/
def symbolInstr (s e : Nat) : Instr :=
  if s < 256 then literalInstr s else if s = 256 then .eob else if s = 286 then .ll286 else if s = 287 then .ll287
  else (lengthInstr (s - 257) e).getD .eob

/-- The width of a distance symbol's extra bits (rule R75). -/
def distanceWidth (d : Nat) : Fin 17 := dext.getD d 0

/-- The instruction of a distance symbol below 30 and its extra value. -/
def distanceSymInstr (d e : Nat) : Instr := (distanceInstr d e).getD .dist30

theorem codeWidth_of_lt {first : Bool} {s : Nat} (h : s < 16) : codeWidth first s = 0 := by
  rw [codeWidth, if_neg (by omega), if_neg (by omega), if_neg (by omega)]

theorem lengthWidth_of_lt {s : Nat} (h : s < 256) : lengthWidth s = 0 := by
  rw [lengthWidth, Nat.sub_eq_zero_of_le (by omega)]
  rfl

theorem bind_congr_ok {α β : Type} {x : Except Reject α} {f g : α → Except Reject β} (h : ∀ a, x = .ok a → f a = g a) :
    (x >>= f) = x >>= g := by
  cases x with
  | error r => rfl
  | ok a => exact h a rfl

@[simp] theorem ok_bind {α β : Type} (a : α) (f : α → Except Reject β) : (Except.ok a >>= f) = f a := rfl

@[simp] theorem pure_eq_ok {α : Type} (a : α) : (pure a : Except Reject α) = .ok a := rfl

@[simp] theorem bits_zero (inp : List Byte) (c : Cursor) : bits inp 0 c = .ok (0, c) :=
  Claims.zeroWidthFieldReadsNothing inp c

theorem lengthInstr_isSome {k : Nat} (e : Nat) (h : k < 29) : ∃ i, lengthInstr k e = some i := by
  obtain ⟨i, hi, -⟩ := lengthInstr_some e h
  exact ⟨i, hi⟩

theorem distanceInstr_isSome {d : Nat} (e : Nat) (h : d < 30) : ∃ i, distanceInstr d e = some i := by
  obtain ⟨i, hi, -⟩ := distanceInstr_some e h
  exact ⟨i, hi⟩

variable {lens : List Nat} {inp : List Byte} {c : Cursor}

theorem decodeCodeSym_eq_readSymbol {t : Table 5 19} (first : Bool) (ht : Holds t lens) (hcap : lens.length ≤ 19)
    (hc : CursorInv inp c) : decodeCodeSym t first inp c = readSymbol t (codeWidth first) codeInstr inp c := by
  refine bind_congr_ok fun d hd => ?_
  have hsym : d.sym < 19 := (decodeSym_ok ht hc hd).1.trans_le hcap
  obtain h | h | h | h : d.sym < 16 ∨ d.sym = 16 ∨ d.sym = 17 ∨ d.sym = 18 := by omega
  · simp [codeWidth_of_lt h, codeInstr, h]
  · cases first <;> simp [h, codeWidth, codeInstr]
  · simp [h, codeWidth, codeInstr]
  · simp [h, codeWidth, codeInstr]

theorem decodeSymbol_eq_readSymbol {t : Table 9 288} (ht : Holds t lens) (hcap : lens.length ≤ 288)
    (hc : CursorInv inp c) : decodeSymbol t inp c = readSymbol t lengthWidth symbolInstr inp c := by
  refine bind_congr_ok fun d hd => ?_
  have hsym : d.sym < 288 := (decodeSym_ok ht hc hd).1.trans_le hcap
  obtain h | h | h | h | h : d.sym < 256 ∨ d.sym = 256 ∨ d.sym = 286 ∨ d.sym = 287 ∨ 257 ≤ d.sym ∧ d.sym < 286 := by
    omega
  · simp [lengthWidth_of_lt h, symbolInstr, h]
  · simp [h, lengthWidth, symbolInstr, lext]
  · simp [h, lengthWidth, symbolInstr, lext, Config.nLenSym]
  · simp [h, lengthWidth, symbolInstr, lext, Config.nLenSym]
  · rw [if_neg (by omega), if_neg (by omega), if_pos (by simp only [Config.nLenSym]; omega)]
    refine bind_congr_ok fun ⟨e, c'⟩ _ => ?_
    obtain ⟨i, hi⟩ := lengthInstr_isSome e (show d.sym - 257 < 29 by omega)
    have hinstr : symbolInstr d.sym e = i := by
      rw [symbolInstr, if_neg (by omega), if_neg (by omega), if_neg (by omega), if_neg (by omega), hi, Option.getD_some]
    simp [hi, hinstr]

theorem decodeDistance_eq_readSymbol {t : Table 5 30} {fixed : Bool} (ht : Holds t lens) (hcap : lens.length ≤ 30)
    (hc : CursorInv inp c) (hpattern : fixed = true → unassignedPattern inp c = none) :
    decodeDistance t fixed inp c = readSymbol t distanceWidth distanceSymInstr inp c := by
  have hnone : (if fixed = true then unassignedPattern inp c else none) = none := ite_eq_right_iff.mpr hpattern
  rw [decodeDistance, hnone]
  refine bind_congr_ok fun d hd => ?_
  have hsym : d.sym < 30 := (decodeSym_ok ht hc hd).1.trans_le hcap
  rw [if_pos (show d.sym < Config.maxDCodes from hsym)]
  refine bind_congr_ok fun ⟨e, c'⟩ _ => ?_
  obtain ⟨i, hi⟩ := distanceInstr_isSome e hsym
  simp [hi, distanceSymInstr]

end Sys2Proof.Machine

namespace Sys2Proof.Claims

open Sys2Proof.Machine

/-! ### Bits that stand ahead -/

/-- The bits `bs` stand at the cursor's position, all of them in the input, and end at position `q`. -/
structure Ahead (inp : List Byte) (c : Cursor) (bs : List Bool) (q : Nat) : Prop where
  inv : CursorInv inp c
  pos : c.pos + bs.length = q
  fits : q ≤ 8 * inp.length
  eq : streamBits inp c.pos bs.length = bs

theorem Ahead.cursorAt {inp : List Byte} {c : Cursor} {q : Nat} (h : Ahead inp c [] q) : CursorAt inp c q := ⟨h.inv, h.pos⟩

/-- The first bits ahead, and from a cursor after them the others. -/
theorem Ahead.split {inp : List Byte} {c : Cursor} {as bs : List Bool} {q : Nat} (h : Ahead inp c (as ++ bs) q) :
    c.pos + as.length ≤ 8 * inp.length ∧ streamBits inp c.pos as.length = as ∧
      ∀ c', CursorAt inp c' (c.pos + as.length) → Ahead inp c' bs q := by
  obtain ⟨-, hpos, hfits, heq⟩ := h
  rw [List.length_append] at hpos heq
  rw [streamBits_append] at heq
  obtain ⟨has, hbs⟩ := List.append_inj heq (streamBits_length _ _ _)
  refine ⟨by omega, has, fun c' hc' => ⟨hc'.1, by rw [hc'.2]; omega, hfits, by rw [hc'.2]; exact hbs⟩⟩

/-- A field that stands ahead is read as its value. -/
theorem Ahead.bits {inp : List Byte} {c : Cursor} {n : Fin 17} {v q : Nat} {bs : List Bool} (hv : v < 2 ^ n.val)
    (h : Ahead inp c (lsbBits n.val v ++ bs) q) : ∃ c', bits inp n c = .ok (v, c') ∧ Ahead inp c' bs q := by
  obtain ⟨hfits, heq, hrest⟩ := h.split
  rw [lsbBits_length] at hfits heq hrest
  obtain ⟨c', hok, hcur⟩ := bitsReturnsTheFieldAtThePosition.1 inp n c h.inv hfits
  have hval : fieldAt inp c.pos n.val = v := by rw [fieldAt, heq, bitsValue_lsbBits, Nat.mod_eq_of_lt hv]
  exact ⟨c', hval ▸ hok, hrest c' hcur⟩

/-- A codeword that stands ahead is decoded to its symbol. -/
theorem Ahead.decodeSym {w cap : Nat} {t : Table w cap} {lens : List Nat} (ht : Holds t lens) (h15 : ∀ l ∈ lens, l ≤ 15)
    {inp : List Byte} {c : Cursor} {s l v q : Nat} {bs : List Bool} (hcode : codewordOf lens s = some (l, v))
    (h : Ahead inp c (msbBits l v ++ bs) q) :
    ∃ d regs, decodeSym t inp c = .ok { sym := s, cur := d, regs := regs } ∧ Ahead inp d bs q := by
  obtain ⟨hfits, heq, hrest⟩ := h.split
  rw [msbBits_length] at hfits heq hrest
  obtain ⟨d, regs, hok, hcur⟩ := decodeSym_of_codeword ht h15 h.inv ⟨v, hcode, hfits, heq⟩
  exact ⟨d, regs, hok, hrest d hcur⟩

/-! ### A symbol and its extra bits -/

variable {w cap : Nat} {t : Table w cap} {lens : List Nat} {inp : List Byte} {c : Cursor} {width : Nat → Fin 17}
  {instr : Nat → Nat → Instr}

/-- The reject depends on the extra bits of the code's own symbols only. -/
theorem RejectedAt.congr {f g : Nat → Nat} (h15 : ∀ l ∈ lens, l ≤ 15) (hfg : ∀ s, s < lens.length → f s = g s)
    {p : Nat} {r : Reject} : RejectedAt lens f inp p r ↔ RejectedAt lens g inp p r := by
  refine or_congr Iff.rfl (exists_congr fun s => exists_congr fun l => and_congr_right fun hat => ?_)
  rw [hfg s (hat.range h15).1]

/-- A symbol is rejected for want of a codeword, or of its extra bits. -/
theorem readSymbol_error_iff (ht : Holds t lens) (h15 : ∀ l ∈ lens, l ≤ 15) (hc : CursorInv inp c) {r : Reject} :
    readSymbol t width instr inp c = .error r ↔ RejectedAt lens (fun s => (width s).val) inp c.pos r := by
  simp only [readSymbol, bind_eq_error, return_ne_error, and_false, exists_false, or_false]
  rw [decodeSym_error_iff ht h15 hc]
  refine or_congr Iff.rfl ⟨?_, ?_⟩
  · rintro ⟨d, hd, herr⟩
    obtain ⟨l, hat, hcur, hpos⟩ := codeword_of_decodeSym ht h15 hc hd
    obtain ⟨hshort, hr⟩ := (bits_error_iff hcur _).mp herr
    exact ⟨d.sym, l, hat, hpos ▸ hshort, hr⟩
  · rintro ⟨s, l, hat, hshort, hr⟩
    obtain ⟨d, regs, hd, hcur, hpos⟩ := decodeSym_of_codeword ht h15 hc hat
    exact ⟨_, hd, (bits_error_iff hcur _).mpr ⟨hpos.symm ▸ hshort, hr⟩⟩

/-- A symbol whose codeword and extra bits stand ahead is read as its instruction. -/
theorem Ahead.readSymbol (ht : Holds t lens) (h15 : ∀ l ∈ lens, l ≤ 15) {s e q : Nat} {bs : List Bool}
    (he : e < 2 ^ (width s).val) (henc : (codewordBits lens s).map (· ++ lsbBits (width s).val e) = some bs)
    (h : Ahead inp c bs q) :
    ∃ f, readSymbol t width instr inp c = .ok f ∧ f.instr = instr s e ∧ CursorAt inp f.cur q := by
  simp only [codewordBits, Option.map_map, Option.map_eq_some_iff, Function.comp_apply] at henc
  obtain ⟨⟨l, v⟩, hcode, rfl⟩ := henc
  obtain ⟨d, regs, hd, hextra⟩ := h.decodeSym ht h15 hcode
  rw [← List.append_nil (lsbBits _ _)] at hextra
  obtain ⟨c', hok, hend⟩ := hextra.bits he
  exact ⟨_, bind_eq_ok.mpr ⟨_, hd, bind_eq_ok.mpr ⟨_, hok, rfl⟩⟩, rfl, hend.cursorAt⟩

end Sys2Proof.Claims
end

section
/-! What each instruction is made of: its symbol and extra value, with its bits (rules R60 to R68). -/

namespace Sys2Proof.Machine

/-- A length symbol's index `s - 257` and its extra value (rules R200 to R228). -/
def lengthParts : Instr → Option (Nat × Nat)
  | .lsym257 => some (0, 0)
  | .lsym258 => some (1, 0)
  | .lsym259 => some (2, 0)
  | .lsym260 => some (3, 0)
  | .lsym261 => some (4, 0)
  | .lsym262 => some (5, 0)
  | .lsym263 => some (6, 0)
  | .lsym264 => some (7, 0)
  | .lsym265 e => some (8, e.toNat)
  | .lsym266 e => some (9, e.toNat)
  | .lsym267 e => some (10, e.toNat)
  | .lsym268 e => some (11, e.toNat)
  | .lsym269 e => some (12, e.toNat)
  | .lsym270 e => some (13, e.toNat)
  | .lsym271 e => some (14, e.toNat)
  | .lsym272 e => some (15, e.toNat)
  | .lsym273 e => some (16, e.toNat)
  | .lsym274 e => some (17, e.toNat)
  | .lsym275 e => some (18, e.toNat)
  | .lsym276 e => some (19, e.toNat)
  | .lsym277 e => some (20, e.toNat)
  | .lsym278 e => some (21, e.toNat)
  | .lsym279 e => some (22, e.toNat)
  | .lsym280 e => some (23, e.toNat)
  | .lsym281 e => some (24, e.toNat)
  | .lsym282 e => some (25, e.toNat)
  | .lsym283 e => some (26, e.toNat)
  | .lsym284 e => some (27, e.toNat)
  | .lsym285 => some (28, 0)
  | _ => none

/-- A distance symbol and its extra value (rules R231 to R260). -/
def distanceParts : Instr → Option (Nat × Nat)
  | .dsym0 => some (0, 0)
  | .dsym1 => some (1, 0)
  | .dsym2 => some (2, 0)
  | .dsym3 => some (3, 0)
  | .dsym4 e => some (4, e.toNat)
  | .dsym5 e => some (5, e.toNat)
  | .dsym6 e => some (6, e.toNat)
  | .dsym7 e => some (7, e.toNat)
  | .dsym8 e => some (8, e.toNat)
  | .dsym9 e => some (9, e.toNat)
  | .dsym10 e => some (10, e.toNat)
  | .dsym11 e => some (11, e.toNat)
  | .dsym12 e => some (12, e.toNat)
  | .dsym13 e => some (13, e.toNat)
  | .dsym14 e => some (14, e.toNat)
  | .dsym15 e => some (15, e.toNat)
  | .dsym16 e => some (16, e.toNat)
  | .dsym17 e => some (17, e.toNat)
  | .dsym18 e => some (18, e.toNat)
  | .dsym19 e => some (19, e.toNat)
  | .dsym20 e => some (20, e.toNat)
  | .dsym21 e => some (21, e.toNat)
  | .dsym22 e => some (22, e.toNat)
  | .dsym23 e => some (23, e.toNat)
  | .dsym24 e => some (24, e.toNat)
  | .dsym25 e => some (25, e.toNat)
  | .dsym26 e => some (26, e.toNat)
  | .dsym27 e => some (27, e.toNat)
  | .dsym28 e => some (28, e.toNat)
  | .dsym29 e => some (29, e.toNat)
  | _ => none

/-- A code-length symbol and its repeat field (rules R167 to R171). -/
def codeParts : Instr → Option (Nat × Nat)
  | .cl0to15 v => some (v.toNat, 0)
  | .cl16 r => some (16, r.toNat)
  | .cl17 r => some (17, r.toNat)
  | .cl18 r => some (18, r.toNat)
  | _ => none

/-- A literal/length symbol and its extra value. -/
def symbolParts : Instr → Option (Nat × Nat)
  | .lit0to143 b => some (b.toNat, 0)
  | .lit144to255 b => some (b.toNat, 0)
  | .eob => some (256, 0)
  | .ll286 => some (286, 0)
  | .ll287 => some (287, 0)
  | i => (lengthParts i).map fun p => (257 + p.1, p.2)

/-- A header's BFINAL and BTYPE (rule R62). -/
def headerParts : Instr → Option (Nat × Nat)
  | .blockStored f => some (f.toNat, 0)
  | .blockFixed f => some (f.toNat, 1)
  | .blockDynamic f => some (f.toNat, 2)
  | .blockReserved f => some (f.toNat, 3)
  | _ => none

/-- An instruction is made of the symbol `s` and the extra value `e`: the reader's instruction for them, the value within
its field, and the bits those of the codeword and of the field. -/
structure MadeOf (lens : Codes → List Nat) (width : Nat → Fin 17) (instr : Nat → Nat → Instr) (i : Instr)
    (s e : Nat) : Prop where
  instr_eq : instr s e = i
  extra_lt : e < 2 ^ (width s).val
  encode_eq : ∀ cs, encode cs i = (codewordBits (lens cs) s).map (· ++ lsbBits (width s).val e)

theorem map_append_lsbBits_zero (o : Option (List Bool)) (v : Nat) : o.map (· ++ lsbBits 0 v) = o := by
  simp [lsbBits]

theorem MadeOf.of_no_extra {lens : Codes → List Nat} {width : Nat → Fin 17} {instr : Nat → Nat → Instr} {i : Instr}
    {s : Nat} (hi : instr s 0 = i) (hwidth : width s = 0) (henc : ∀ cs, encode cs i = codewordBits (lens cs) s) :
    MadeOf lens width instr i s 0 :=
  ⟨hi, by simp [hwidth], fun cs => by rw [henc, hwidth]; exact (map_append_lsbBits_zero _ _).symm⟩

theorem headerParts_spec {i : Instr} {f t : Nat} (h : headerParts i = some (f, t)) :
    f < 2 ∧ t < 4 ∧ headerInstr f t = i ∧ ∀ cs, encode cs i = some (lsbBits 1 f ++ lsbBits 2 t) := by
  cases i <;> simp only [headerParts, reduceCtorEq, Option.some.injEq, Prod.mk.injEq] at h
  all_goals
    obtain ⟨rfl, rfl⟩ := h
    exact ⟨BitVec.isLt _, by decide, by simp [headerInstr], fun _ => rfl⟩

theorem lengthParts_spec {i : Instr} {k e : Nat} (h : lengthParts i = some (k, e)) :
    k < 29 ∧ lengthInstr k e = some i ∧ MadeOf (·.ll) lengthWidth symbolInstr i (257 + k) e := by
  cases i <;> simp only [lengthParts, reduceCtorEq, Option.some.injEq, Prod.mk.injEq] at h
  all_goals
    obtain ⟨rfl, rfl⟩ := h
    refine ⟨by decide, by simp [lengthInstr], by simp [symbolInstr, lengthInstr], ?_, fun cs => ?_⟩
    · simp [lengthWidth, lext] <;> omega
    · simp [encode, lengthWidth, lext, map_append_lsbBits_zero]

theorem distanceParts_spec {i : Instr} {d e : Nat} (h : distanceParts i = some (d, e)) :
    d < 30 ∧ distanceInstr d e = some i ∧ MadeOf (·.d) distanceWidth distanceSymInstr i d e := by
  cases i <;> simp only [distanceParts, reduceCtorEq, Option.some.injEq, Prod.mk.injEq] at h
  all_goals
    obtain ⟨rfl, rfl⟩ := h
    refine ⟨by decide, by simp [distanceInstr], by simp [distanceSymInstr, distanceInstr], ?_, fun cs => ?_⟩
    · simp [distanceWidth, dext] <;> omega
    · simp [encode, distanceWidth, dext, map_append_lsbBits_zero]

/-- A code-length symbol; the first one is no symbol 16, whose field would not be read. -/
theorem codeParts_spec {i : Instr} {s r : Nat} {first : Bool} (h : codeParts i = some (s, r))
    (hfirst : first = true → ∀ r, i ≠ .cl16 r) : MadeOf (·.cl) (codeWidth first) codeInstr i s r := by
  cases i <;> simp only [codeParts, reduceCtorEq, Option.some.injEq, Prod.mk.injEq] at h
  all_goals obtain ⟨rfl, rfl⟩ := h
  case cl0to15 v =>
    have hv : v.toNat < 16 := v.isLt
    exact .of_no_extra (by simp [codeInstr, hv]) (codeWidth_of_lt hv) fun _ => rfl
  case cl16 r =>
    obtain rfl : first = false := by
      cases first
      · rfl
      · exact absurd rfl (hfirst rfl r)
    exact ⟨by simp [codeInstr], r.isLt, fun cs => rfl⟩
  case cl17 r => exact ⟨by simp [codeInstr], r.isLt, fun cs => rfl⟩
  case cl18 r => exact ⟨by simp [codeInstr], r.isLt, fun cs => rfl⟩

theorem symbolParts_spec {i : Instr} {s e : Nat} (h : symbolParts i = some (s, e)) (hw : i.wellFormed = true) :
    MadeOf (·.ll) lengthWidth symbolInstr i s e := by
  unfold symbolParts at h
  split at h
  case h_1 b =>
    obtain ⟨rfl, rfl⟩ := Prod.mk.inj (Option.some.inj h)
    have hb : b.toNat < 144 := of_decide_eq_true hw
    exact .of_no_extra (by simp [symbolInstr, literalInstr, hb, b.isLt]) (lengthWidth_of_lt b.isLt) fun _ => rfl
  case h_2 b =>
    obtain ⟨rfl, rfl⟩ := Prod.mk.inj (Option.some.inj h)
    have hb : 144 ≤ b.toNat := of_decide_eq_true hw
    exact .of_no_extra (by simp [symbolInstr, literalInstr, hb, b.isLt]) (lengthWidth_of_lt b.isLt) fun _ => rfl
  case h_6 =>
    obtain ⟨⟨k, e'⟩, hparts, hp⟩ := Option.map_eq_some_iff.mp h
    obtain ⟨rfl, rfl⟩ := Prod.mk.inj hp
    exact (lengthParts_spec hparts).2.2
  all_goals
    obtain ⟨rfl, rfl⟩ := Prod.mk.inj (Option.some.inj h)
    exact .of_no_extra rfl rfl fun _ => rfl

end Sys2Proof.Machine
end

section
/-! The decoder undoes the encoder (rules R60 to R69, R114). -/

namespace Sys2Proof.Machine

/-- One bit more of a codeword. -/
theorem codeAt_push (inp : List Byte) (p m : Nat) : codeAt inp p m <<< 1 ||| fieldAt inp (p + m) 1 = codeAt inp p (m + 1) := by
  have hbit : (streamBit inp (p + m)).toNat < 2 ^ 1 := by have := Bool.toNat_le (streamBit inp (p + m)); omega
  have hor := Nat.two_pow_add_eq_or_of_lt hbit (codeAt inp p m)
  rw [fieldAt_one, codeAt, Nat.shiftLeft_eq, Nat.mul_comm, ← hor, Nat.pow_one]

/-- Single bits gathered from the `m`-th of a codeword on. -/
theorem codeBits_cases {inp : List Byte} (p n m : Nat) {c : Cursor} (hc : CursorInv inp c) (hpos : c.pos = p + m) :
    (8 * inp.length < p + m + n ∧ codeBits inp n (codeAt inp p m) c = .error .truncated) ∨
      (p + m + n ≤ 8 * inp.length ∧ ∃ c', codeBits inp n (codeAt inp p m) c = .ok (codeAt inp p (m + n), c') ∧
        CursorInv inp c' ∧ c'.pos = p + m + n) := by
  induction n generalizing m c with
  | zero =>
    have hle := hc.pos_le
    exact .inr ⟨by omega, c, rfl, hc, hpos⟩
  | succ n ih =>
    rw [codeBits]
    obtain ⟨hlt, he⟩ | ⟨hle, d, hok, hd, hdpos⟩ := bits_cases hc 1
    · have hlt : 8 * inp.length < c.pos + 1 := hlt
      exact .inl ⟨by omega, by rw [he]; rfl⟩
    · have hdpos : d.pos = c.pos + 1 := hdpos
      rw [hok, ok_bind]
      simp only [Fin.val_one, hpos, codeAt_push]
      rw [show p + m + (n + 1) = p + (m + 1) + n by omega, show m + (n + 1) = m + 1 + n by omega]
      exact ih (m + 1) hd (by omega)

/-- The two unassigned patterns are recognised, and nothing else is. -/
theorem unassignedPattern_cases {inp : List Byte} {c : Cursor} (hc : CursorInv inp c) :
    (∃ c', CursorInv inp c' ∧ c'.pos = c.pos + 5 ∧
        (codeAt inp c.pos 5 = 30 ∧ unassignedPattern inp c = some { instr := .dist30, cur := c', regs := none } ∨
          codeAt inp c.pos 5 = 31 ∧ unassignedPattern inp c = some { instr := .dist31, cur := c', regs := none })) ∨
      ((c.pos + 5 ≤ 8 * inp.length → codeAt inp c.pos 5 < 30) ∧ unassignedPattern inp c = none) := by
  unfold unassignedPattern
  obtain ⟨hlt, he⟩ | ⟨hle, c', hok, hinv, hpos⟩ := codeBits_cases c.pos 5 0 hc rfl
  · rw [codeAt] at he
    rw [he]
    exact .inr ⟨fun hle => by omega, rfl⟩
  · rw [codeAt, Nat.zero_add] at hok
    rw [hok]
    have hcode := codeAt_lt inp c.pos 5
    obtain h | h | h : codeAt inp c.pos 5 = 30 ∨ codeAt inp c.pos 5 = 31 ∨ codeAt inp c.pos 5 < 30 := by omega
    · exact .inl ⟨c', hinv, hpos, .inl ⟨h, by rw [h]; rfl⟩⟩
    · exact .inl ⟨c', hinv, hpos, .inr ⟨h, by rw [h]; rfl⟩⟩
    · refine .inr ⟨fun _ => h, ?_⟩
      split
      · simp_all
      · simp_all
      · rfl

end Sys2Proof.Machine

namespace Sys2Proof.Claims

open Sys2Proof.Machine

variable {inp : List Byte} {c : Cursor} {q : Nat}

/-! ### Headers and fields -/

theorem Ahead.decodeHeader {f t : Nat} (hf : f < 2) (ht : t < 4) (h : Ahead inp c (lsbBits 1 f ++ lsbBits 2 t) q) :
    ∃ F, decodeHeader inp c = .ok F ∧ F.instr = headerInstr f t ∧ CursorAt inp F.cur q := by
  obtain ⟨c₁, hbfinal, h₁⟩ := h.bits (n := 1) hf
  rw [← List.append_nil (lsbBits 2 t)] at h₁
  obtain ⟨c₂, hbtype, h₂⟩ := h₁.bits (n := 2) ht
  exact ⟨_, bind_eq_ok.mpr ⟨_, hbfinal, bind_eq_ok.mpr ⟨_, hbtype, rfl⟩⟩, rfl, h₂.cursorAt⟩

theorem Ahead.decodeStored (hz : c.bitcnt = 0) {l n : BitVec 16}
    (h : Ahead inp c (lsbBits 16 l.toNat ++ lsbBits 16 n.toNat) q) :
    ∃ F, decodeStored inp c = .ok F ∧ F.instr = .storedBody l n ∧ CursorAt inp F.cur q := by
  have halign : align c = c := by rw [align, ← h.inv.2.1 hz, ← hz]
  obtain ⟨c₁, hlen, h₁⟩ := h.bits (n := 16) l.isLt
  rw [← List.append_nil (lsbBits 16 n.toNat)] at h₁
  obtain ⟨c₂, hnlen, h₂⟩ := h₁.bits (n := 16) n.isLt
  exact ⟨_, bind_eq_ok.mpr ⟨_, halign.symm ▸ hlen, bind_eq_ok.mpr ⟨_, hnlen, rfl⟩⟩, by simp, h₂.cursorAt⟩

theorem Ahead.decodeCounts {l d : BitVec 5} {n : BitVec 4}
    (h : Ahead inp c (lsbBits 5 l.toNat ++ (lsbBits 5 d.toNat ++ lsbBits 4 n.toNat)) q) :
    ∃ F, decodeCounts inp c = .ok F ∧ F.instr = .dynHeader l d n ∧ CursorAt inp F.cur q := by
  obtain ⟨c₁, hhlit, h₁⟩ := h.bits (n := 5) l.isLt
  obtain ⟨c₂, hhdist, h₂⟩ := h₁.bits (n := 5) d.isLt
  rw [← List.append_nil (lsbBits 4 n.toNat)] at h₂
  obtain ⟨c₃, hhclen, h₃⟩ := h₂.bits (n := 4) n.isLt
  exact ⟨_, bind_eq_ok.mpr ⟨_, hhlit, bind_eq_ok.mpr ⟨_, hhdist, bind_eq_ok.mpr ⟨_, hhclen, rfl⟩⟩⟩, by simp, h₃.cursorAt⟩

theorem Ahead.readCodeLens {ls : List (BitVec 3)} (h : Ahead inp c (ls.flatMap fun v => lsbBits 3 v.toNat) q) :
    ∃ c', readCodeLens inp ls.length c = .ok (ls, c') ∧ CursorAt inp c' q := by
  induction ls generalizing c with
  | nil => exact ⟨c, rfl, h.cursorAt⟩
  | cons v vs ih =>
    obtain ⟨c₁, hv, h₁⟩ := h.bits (n := 3) v.isLt
    obtain ⟨c', hvs, hcur⟩ := ih h₁
    exact ⟨c', bind_eq_ok.mpr ⟨_, hv, bind_eq_ok.mpr ⟨_, hvs, by simp⟩⟩, hcur⟩

/-! ### Any codes the builder accepts -/

/-- The decoder of a context, where its table is one of the three, answers what the symbol reader answers. -/
theorem Ahead.decode_madeOf {w cap : Nat} {t : Table w cap} {lens : Codes → List Nat} {cs : Codes}
    {width : Nat → Fin 17} {instr : Nat → Nat → Instr} {i : Instr} {s e : Nat} {bs : List Bool} (ht : Holds t (lens cs))
    (h15 : ∀ l ∈ lens cs, l ≤ 15) (hi : MadeOf lens width instr i s e) (henc : encode cs i = some bs)
    (h : Ahead inp c bs q) :
    ∃ f, Machine.readSymbol t width instr inp c = .ok f ∧ f.instr = i ∧ CursorAt inp f.cur q := by
  obtain ⟨f, hf, hinstr, hcur⟩ := h.readSymbol (instr := instr) ht h15 hi.extra_lt (hi.encode_eq cs ▸ henc)
  exact ⟨f, hf, hinstr.trans hi.instr_eq, hcur⟩

theorem contextOf_symbol {i : Instr} {p : Nat × Nat} (cs : Codes) (b : BlockRegs) (first : Bool)
    (h : symbolParts i = some p) : contextOf cs b first i = .symbol (construct b.lltab b.builder cs.ll).table := by
  cases i <;> simp only [symbolParts, lengthParts, Option.map_none, reduceCtorEq] at h <;> rfl

theorem contextOf_distance {i : Instr} {p : Nat × Nat} (cs : Codes) (b : BlockRegs) (first : Bool)
    (h : distanceParts i = some p) : contextOf cs b first i = .distance (construct b.dtab b.builder cs.d).table false := by
  cases i <;> simp only [distanceParts, reduceCtorEq] at h <;> rfl

theorem contextOf_code {i : Instr} {p : Nat × Nat} (cs : Codes) (b : BlockRegs) (first : Bool)
    (h : codeParts i = some p) : contextOf cs b first i = .codeSyms (construct b.cltab b.builder cs.cl).table first := by
  cases i <;> simp only [codeParts, reduceCtorEq] at h <;> rfl

theorem contextOf_header {i : Instr} {p : Nat × Nat} (cs : Codes) (b : BlockRegs) (first : Bool)
    (h : headerParts i = some p) : contextOf cs b first i = .header := by
  cases i <;> simp only [headerParts, reduceCtorEq] at h <;> rfl

theorem Ahead.decode_header {cs : Codes} {i : Instr} {p : Nat × Nat} {bs : List Bool} (hi : headerParts i = some p)
    (henc : encode cs i = some bs) (h : Ahead inp c bs q) :
    ∃ f, Machine.decodeHeader inp c = .ok f ∧ f.instr = i ∧ CursorAt inp f.cur q := by
  obtain ⟨hf, ht, rfl, hbits⟩ := headerParts_spec hi
  obtain rfl := Option.some.inj ((hbits cs).symm.trans henc)
  exact h.decodeHeader hf ht

/-- Every well-formed instruction but the two unassigned patterns is decoded from its bits. -/
theorem Ahead.decodeElement {cs : Codes} {b : BlockRegs} {first : Bool} {i : Instr} {bs : List Bool}
    (hcs : LegalCodes cs b) (hw : i.wellFormed = true) (h30 : i ≠ .dist30) (h31 : i ≠ .dist31)
    (hfirst : first = true → ∀ r, i ≠ .cl16 r) (henc : encode cs i = some bs)
    (hz : (∃ l n, i = .storedBody l n) → c.bitcnt = 0) (h : Ahead inp c bs q) :
    ∃ f, decodeElement (contextOf cs b first i) inp c = .ok f ∧ f.instr = i ∧ CursorAt inp f.cur q := by
  obtain ⟨hcl, hclr, hll, hllr, hd, hdr⟩ := hcs
  cases hs : symbolParts i with
  | some p =>
    rw [contextOf_symbol cs b first hs, Machine.decodeElement, decodeSymbol_eq_readSymbol (hll.holds hllr) hll.1 h.inv]
    exact h.decode_madeOf (hll.holds hllr) hll.2.2.2 (symbolParts_spec hs hw) henc
  | none =>
  cases hdist : distanceParts i with
  | some p =>
    rw [contextOf_distance cs b first hdist, Machine.decodeElement,
      decodeDistance_eq_readSymbol (fixed := false) (hd.holds hdr) hd.1 h.inv (fun hf => nomatch hf)]
    exact h.decode_madeOf (hd.holds hdr) hd.2.2.2 (distanceParts_spec hdist).2.2 henc
  | none =>
  cases hcode : codeParts i with
  | some p =>
    rw [contextOf_code cs b first hcode, Machine.decodeElement,
      decodeCodeSym_eq_readSymbol first (hcl.holds hclr) hcl.1 h.inv]
    exact h.decode_madeOf (hcl.holds hclr) hcl.2.2.2 (codeParts_spec hcode hfirst) henc
  | none =>
  cases hheader : headerParts i with
  | some p =>
    rw [contextOf_header cs b first hheader]
    exact h.decode_header hheader henc
  | none =>
  cases i <;> simp only [symbolParts, lengthParts, distanceParts, codeParts, headerParts, Option.map_some, reduceCtorEq,
    ne_eq, not_true_eq_false] at hs hdist hcode hheader h30 h31
  case storedBody l n =>
    obtain rfl := Option.some.inj henc
    exact h.decodeStored (hz ⟨l, n, rfl⟩)
  case dynHeader l d n =>
    obtain rfl := Option.some.inj henc
    exact h.decodeCounts
  case cllens ls =>
    obtain rfl := Option.some.inj henc
    obtain ⟨c', hls, hcur⟩ := h.readCodeLens
    exact ⟨_, bind_eq_ok.mpr ⟨_, hls, rfl⟩, rfl, hcur⟩

/-- Settles O47: by what each instruction is made of; a first symbol 16 is made of its codeword alone. -/
theorem decodingUndoesEncoding : Obligations.DecodingUndoesEncoding := by
  constructor
  · intro cs b first i bs inp c hcs hw h30 h31 hfirst henc hc hz hfits hbits
    exact Ahead.decodeElement hcs hw h30 h31 hfirst henc hz ⟨hc, rfl, hfits, hbits⟩
  · intro cs b bs inp c ⟨hcl, hclr, _⟩ henc hc hfits hbits
    rw [Machine.decodeElement, decodeCodeSym_eq_readSymbol true (hcl.holds hclr) hcl.1 hc]
    exact Ahead.readSymbol (instr := codeInstr) (s := 16) (e := 0) (hcl.holds hclr) hcl.2.2.2 (by decide)
      ((map_append_lsbBits_zero _ _).trans henc) ⟨hc, rfl, hfits, hbits⟩

/-! ### The fixed block -/

theorem fixedContext_symbol {i : Instr} {p : Nat × Nat} (h : symbolParts i = some p) :
    fixedContext i = some (.symbol fixedLltab) := by
  cases i <;> simp only [symbolParts, lengthParts, Option.map_none, reduceCtorEq] at h <;> rfl

theorem fixedContext_distance {i : Instr} {p : Nat × Nat} (h : distanceParts i = some p) :
    fixedContext i = some (.distance fixedDtab true) := by
  cases i <;> simp only [distanceParts, reduceCtorEq] at h <;> rfl

theorem fixedContext_code {i : Instr} {p : Nat × Nat} (h : codeParts i = some p) : fixedContext i = none := by
  cases i <;> simp only [codeParts, reduceCtorEq] at h <;> rfl

theorem fixedContext_header {i : Instr} {p : Nat × Nat} (h : headerParts i = some p) : fixedContext i = some .header := by
  cases i <;> simp only [headerParts, reduceCtorEq] at h <;> rfl

/-- Five bits ahead that are a value's are gathered as it. -/
theorem Ahead.codeAt_five {v : Nat} {bs : List Bool} (hv : v < 32) (h : Ahead inp c (msbBits 5 v ++ bs) q) :
    c.pos + 5 ≤ 8 * inp.length ∧ codeAt inp c.pos 5 = v := by
  obtain ⟨hfits, heq, -⟩ := h.split
  rw [msbBits_length] at hfits heq
  exact ⟨hfits, (streamBits_eq_msbBits hv).mp heq⟩

/-- An assigned distance symbol ahead is no unassigned pattern. -/
theorem Ahead.unassignedPattern_eq_none {d : Nat} {bs ex : List Bool} (henc : (codewordBits fixd d).map (· ++ ex) = some bs)
    (h : Ahead inp c bs q) : unassignedPattern inp c = none := by
  rw [codewordBits, codewordOf_fixd] at henc
  split at henc
  case isTrue hd =>
    obtain rfl := Option.some.inj henc
    obtain ⟨-, hcode⟩ := h.codeAt_five (by omega)
    obtain ⟨c', -, -, ⟨hbad, -⟩ | ⟨hbad, -⟩⟩ | ⟨-, hnone⟩ := unassignedPattern_cases h.inv
    · omega
    · omega
    · exact hnone
  case isFalse => cases henc

/-- The unassigned patterns ahead are decoded, over any table (rules R261, R262). -/
theorem Ahead.decode_unassigned (t : Table 5 30) :
    (Ahead inp c (msbBits 5 30) q → ∃ c', decodeDistance t true inp c = .ok { instr := .dist30, cur := c', regs := none } ∧
      CursorAt inp c' q) ∧
    (Ahead inp c (msbBits 5 31) q → ∃ c', decodeDistance t true inp c = .ok { instr := .dist31, cur := c', regs := none } ∧
      CursorAt inp c' q) := by
  constructor <;> intro h <;> rw [← List.append_nil (msbBits _ _)] at h <;>
    obtain ⟨hfits, hcode⟩ := h.codeAt_five (by decide) <;> have hpos : c.pos + 5 = q := h.pos
  · obtain ⟨c', hinv, hc', ⟨-, hp⟩ | ⟨hbad, -⟩⟩ | ⟨hlt, -⟩ := unassignedPattern_cases h.inv
    · exact ⟨c', by rw [decodeDistance, if_pos rfl, hp], hinv, hc'.trans hpos⟩
    · omega
    · have := hlt hfits; omega
  · obtain ⟨c', hinv, hc', ⟨hbad, -⟩ | ⟨-, hp⟩⟩ | ⟨hlt, -⟩ := unassignedPattern_cases h.inv
    · omega
    · exact ⟨c', by rw [decodeDistance, if_pos rfl, hp], hinv, hc'.trans hpos⟩
    · have := hlt hfits; omega

/-- Settles O48: as O47 over the constant tables; the two patterns are recognised before any symbol is decoded. -/
theorem decodingUndoesEncodingInAFixedBlock : Obligations.DecodingUndoesEncodingInAFixedBlock := by
  intro i ctx bs inp c hctx hw henc hc hfits hbits
  have h : Ahead inp c bs (c.pos + bs.length) := ⟨hc, rfl, hfits, hbits⟩
  cases hs : symbolParts i with
  | some p =>
    obtain rfl := Option.some.inj ((fixedContext_symbol hs).symm.trans hctx)
    rw [Machine.decodeElement, decodeSymbol_eq_readSymbol holds_fixedLltab lengths_fixll.1 hc]
    exact h.decode_madeOf (cs := fixedCodes) holds_fixedLltab lengths_fixll.2.2.2 (symbolParts_spec hs hw) henc
  | none =>
  cases hdist : distanceParts i with
  | some p =>
    obtain rfl := Option.some.inj ((fixedContext_distance hdist).symm.trans hctx)
    obtain ⟨-, -, hmade⟩ := distanceParts_spec hdist
    rw [Machine.decodeElement, decodeDistance_eq_readSymbol holds_fixedDtab lengths_fixd.1 hc
      fun _ => h.unassignedPattern_eq_none ((hmade.encode_eq fixedCodes).symm.trans henc)]
    exact h.decode_madeOf (cs := fixedCodes) holds_fixedDtab lengths_fixd.2.2.2 hmade henc
  | none =>
  cases hcode : codeParts i with
  | some p => rw [fixedContext_code hcode] at hctx; cases hctx
  | none =>
  cases hheader : headerParts i with
  | some p =>
    obtain rfl := Option.some.inj ((fixedContext_header hheader).symm.trans hctx)
    exact h.decode_header hheader henc
  | none =>
  cases i <;> simp only [symbolParts, lengthParts, distanceParts, codeParts, headerParts, Option.map_some,
    reduceCtorEq] at hs hdist hcode hheader
  case storedBody => cases hctx
  case dynHeader => cases hctx
  case cllens => cases hctx
  case dist30 =>
    obtain rfl := Option.some.inj hctx
    obtain rfl := Option.some.inj henc
    obtain ⟨c', hok, hcur⟩ := (Ahead.decode_unassigned fixedDtab).1 h
    exact ⟨_, hok, rfl, hcur⟩
  case dist31 =>
    obtain rfl := Option.some.inj hctx
    obtain rfl := Option.some.inj henc
    obtain ⟨c', hok, hcur⟩ := (Ahead.decode_unassigned fixedDtab).2 h
    exact ⟨_, hok, rfl, hcur⟩

end Sys2Proof.Claims
end

section
/-! The elements each context's decoder can give, and the place the sequencer is at in each context (rules R27, R130). -/

namespace Sys2Proof.Machine

/-- The stream elements of each context. -/
inductive ElementOf : Context → Instr → Prop where
  | header (f t : Nat) : ElementOf .header (headerInstr f t)
  | stored (l n : BitVec 16) : ElementOf .storedBody (.storedBody l n)
  | counts (l d : BitVec 5) (n : BitVec 4) : ElementOf .counts (.dynHeader l d n)
  | codeLens (ls : List (BitVec 3)) : ElementOf (.codeLens ls.length) (.cllens ls)
  | cl0to15 (t : Table 5 19) (first : Bool) (v : BitVec 4) : ElementOf (.codeSyms t first) (.cl0to15 v)
  | cl16 (t : Table 5 19) (first : Bool) (r : BitVec 2) : ElementOf (.codeSyms t first) (.cl16 r)
  | cl17 (t : Table 5 19) (first : Bool) (r : BitVec 3) : ElementOf (.codeSyms t first) (.cl17 r)
  | cl18 (t : Table 5 19) (first : Bool) (r : BitVec 7) : ElementOf (.codeSyms t first) (.cl18 r)
  | literal (t : Table 9 288) {v : Nat} (hv : v < 256) : ElementOf (.symbol t) (literalInstr v)
  | eob (t : Table 9 288) : ElementOf (.symbol t) .eob
  | length (t : Table 9 288) {k e : Nat} {i : Instr} (hk : k < 29) (hi : lengthInstr k e = some i) :
    ElementOf (.symbol t) i
  | ll286 (t : Table 9 288) : ElementOf (.symbol t) .ll286
  | ll287 (t : Table 9 288) : ElementOf (.symbol t) .ll287
  | distance (t : Table 5 30) (fixed : Bool) {d e : Nat} {i : Instr} (hd : d < 30) (hi : distanceInstr d e = some i) :
    ElementOf (.distance t fixed) i
  | dist30 (t : Table 5 30) (fixed : Bool) : ElementOf (.distance t fixed) .dist30
  | dist31 (t : Table 5 30) (fixed : Bool) : ElementOf (.distance t fixed) .dist31

variable {inp : List Byte} {c : Cursor} {f : Fetched}

theorem readCodeLens_length {n : Nat} {d : Cursor} {ls : List (BitVec 3)} (h : readCodeLens inp n c = .ok (ls, d)) :
    ls.length = n := by
  induction n generalizing c d ls with
  | zero =>
    obtain ⟨rfl, -⟩ := Prod.mk.inj (Except.ok.inj h)
    rfl
  | succ n ih =>
    simp only [readCodeLens, bind_eq_ok, return_eq_ok, Prod.mk.injEq] at h
    obtain ⟨_, _, ⟨vs, d'⟩, hvs, rfl, -⟩ := h
    rw [List.length_cons, ih hvs]

theorem decodeCodeSym_elementOf {t : Table 5 19} {first : Bool} (h : decodeCodeSym t first inp c = .ok f) :
    ElementOf (.codeSyms t first) f.instr := by
  simp only [decodeCodeSym, bind_eq_ok] at h
  obtain ⟨d, -, h⟩ := h
  split_ifs at h <;> simp only [bind_eq_ok, return_eq_ok] at h
  · obtain rfl := h
    exact .cl0to15 t first _
  · obtain rfl := h
    exact .cl16 t first _
  · obtain ⟨-, -, rfl⟩ := h
    exact .cl16 t first _
  · obtain ⟨-, -, rfl⟩ := h
    exact .cl17 t first _
  · obtain ⟨-, -, rfl⟩ := h
    exact .cl18 t first _

theorem decodeSymbol_elementOf {t : Table 9 288} (h : decodeSymbol t inp c = .ok f) :
    ElementOf (.symbol t) f.instr := by
  simp only [decodeSymbol, bind_eq_ok] at h
  obtain ⟨d, -, h⟩ := h
  split_ifs at h with hlit heob hlen h286 h287 <;> simp only [bind_eq_ok, return_eq_ok] at h
  · obtain rfl := h
    exact .literal t hlit
  · obtain rfl := h
    exact .eob t
  · obtain ⟨⟨e, c'⟩, -, h⟩ := h
    split at h
    case h_1 i hi =>
      obtain rfl := return_eq_ok.mp h
      exact .length t hlen hi
    case h_2 => cases h
  · obtain rfl := h
    exact .ll286 t
  · obtain rfl := h
    exact .ll287 t

theorem unassignedPattern_elementOf {t : Table 5 30} {fixed : Bool} (h : unassignedPattern inp c = some f) :
    ElementOf (.distance t fixed) f.instr := by
  unfold unassignedPattern at h
  split at h
  · obtain rfl := Option.some.inj h
    exact .dist30 t fixed
  · obtain rfl := Option.some.inj h
    exact .dist31 t fixed
  · cases h

theorem decodeDistance_elementOf {t : Table 5 30} {fixed : Bool} (h : decodeDistance t fixed inp c = .ok f) :
    ElementOf (.distance t fixed) f.instr := by
  unfold decodeDistance at h
  split at h
  case h_1 g hg =>
    obtain rfl := Except.ok.inj h
    exact unassignedPattern_elementOf (Option.ite_none_right_eq_some.mp hg).2
  case h_2 =>
    simp only [bind_eq_ok] at h
    obtain ⟨d, -, h⟩ := h
    split_ifs at h with hd
    · simp only [bind_eq_ok] at h
      obtain ⟨⟨e, c'⟩, -, h⟩ := h
      split at h
      case h_1 i hi =>
        obtain rfl := return_eq_ok.mp h
        exact .distance t fixed hd hi
      case h_2 => cases h

/-- Whatever is decoded is one of the context's elements. -/
theorem decodeElement_elementOf {ctx : Context} (h : decodeElement ctx inp c = .ok f) : ElementOf ctx f.instr := by
  cases ctx with
  | header =>
    simp only [decodeElement, decodeHeader, bind_eq_ok, return_eq_ok] at h
    obtain ⟨⟨x, -⟩, -, ⟨y, -⟩, -, rfl⟩ := h
    exact .header x y
  | storedBody =>
    simp only [decodeElement, decodeStored, bind_eq_ok, return_eq_ok] at h
    obtain ⟨-, -, -, -, rfl⟩ := h
    exact .stored _ _
  | counts =>
    simp only [decodeElement, decodeCounts, bind_eq_ok, return_eq_ok] at h
    obtain ⟨-, -, -, -, -, -, rfl⟩ := h
    exact .counts _ _ _
  | codeLens n =>
    simp only [decodeElement, decodeCodeLens, bind_eq_ok, return_eq_ok] at h
    obtain ⟨⟨ls, d⟩, hls, rfl⟩ := h
    obtain rfl := readCodeLens_length hls
    exact .codeLens ls
  | codeSyms t first => exact decodeCodeSym_elementOf h
  | symbol t => exact decodeSymbol_elementOf h
  | distance t fixed => exact decodeDistance_elementOf h

/-- The places of the sequencer, each with the context of the element there. -/
inductive Place (s : State) : Context → Prop where
  | header (hphase : s.phase = .header) : Place s .header
  | stored (hphase : s.phase = .stored) : Place s .storedBody
  | counts (hphase : s.phase = .dynamic) (hsub : s.sub = .entry) : Place s .counts
  | codeLens (hphase : s.phase = .dynamic) (hsub : s.sub = .codeLens) : Place s (.codeLens s.blk.ncode.toNat)
  | codeSyms (hphase : s.phase = .dynamic) (hsub : s.sub = .codeSyms) :
    Place s (.codeSyms s.blk.cltab (s.blk.index == 0))
  | symbol (hphase : s.phase = .dynamic) (hsub : s.sub = .symbol) : Place s (.symbol s.blk.lltab)
  | distance (hphase : s.phase = .dynamic) (hsub : s.sub = .distance) : Place s (.distance s.blk.dtab false)
  | fixedSymbol (hphase : s.phase = .fixed) (hsub : s.sub ≠ .distance) : Place s (.symbol s.blk.lltab)
  | fixedDistance (hphase : s.phase = .fixed) (hsub : s.sub = .distance) : Place s (.distance s.blk.dtab true)

theorem place_of_context {s : State} {ctx : Context} (h : s.context = some ctx) : Place s ctx := by
  cases hphase : s.phase <;> simp only [State.context, hphase, reduceCtorEq, Option.some.injEq] at h
  case header => exact h ▸ .header hphase
  case stored => exact h ▸ .stored hphase
  case fixed =>
    cases hsub : s.sub <;> simp only [hsub, Option.some.injEq] at h
    case distance => exact h ▸ .fixedDistance hphase hsub
    all_goals exact h ▸ .fixedSymbol hphase (by simp [hsub])
  case dynamic =>
    cases hsub : s.sub <;> simp only [hsub, Option.some.injEq] at h
    case entry => exact h ▸ .counts hphase hsub
    case codeLens => exact h ▸ .codeLens hphase hsub
    case codeSyms => exact h ▸ .codeSyms hphase hsub
    case symbol => exact h ▸ .symbol hphase hsub
    case distance => exact h ▸ .distance hphase hsub

end Sys2Proof.Machine

namespace Sys2Proof.Claims

open Sys2Proof.Machine

/-- Settles O49: the elements of each context are well formed. -/
theorem decodedInstructionsAreWellFormed : Obligations.DecodedInstructionsAreWellFormed := by
  intro ctx inp c f hlens h
  have hi := decodeElement_elementOf h
  revert hi
  generalize f.instr = i
  intro hi
  cases hi with
  | header x y => obtain ⟨b, h⟩ | ⟨b, h⟩ | ⟨b, h⟩ | ⟨b, h⟩ := headerInstr_cases x y <;> rw [h] <;> rfl
  | codeLens ls =>
    obtain ⟨h4, h19⟩ := hlens _ rfl
    simp [Instr.wellFormed, h4, h19]
  | literal t hv =>
    unfold literalInstr
    split <;> simp only [Instr.wellFormed, BitVec.toNat_ofNat, decide_eq_true_eq] <;> omega
  | length t hk hi =>
    obtain ⟨i', hi', hw, -⟩ := lengthInstr_some _ hk
    obtain rfl := Option.some.inj (hi.symm.trans hi')
    exact hw
  | distance t fixed hd hi =>
    obtain ⟨i', hi', hw, -⟩ := distanceInstr_some _ hd
    obtain rfl := Option.some.inj (hi.symm.trans hi')
    exact hw
  | _ => rfl

/-- Settles O59: by the phase and the sub-phase. -/
theorem contextFollowsThePlace : Obligations.ContextFollowsThePlace := by
  intro s
  have hidle : s.context = none ↔ s.busyFlag = false := by
    rw [← context_isSome, Option.isSome_eq_false_iff, Option.isNone_iff_eq_none]
  unfold ContextAt State.context
  refine ⟨fun sub => ⟨?_, ?_, ?_⟩, fun sub => ⟨?_, ?_⟩, ?_, ?_, fun hi => ?_, fun hi => ?_, ?_, ?_, ?_, ?_, hidle⟩ <;>
    intro hphase hsub <;> simp_all

end Sys2Proof.Claims
end

section
/-! Everything the meaning of a decoded element can be, in every state, and what every element keeps (rules R41, R130). -/

namespace Sys2Proof.Machine

/-- What an element of a context makes of a state: a fault, or the next state of one of its meanings. The block's
registers that a meaning sets for itself stand as `b`, with what later elements need of them. -/
inductive Effect (s : State) : Context → State → Prop where
  | fault (ctx : Context) (f : FaultCode) : Effect s ctx (raiseFault f s)
  | blockStored (f : BitVec 1) : Effect s .header { s with bfinal := f, btype := 0, phase := .stored, sub := .entry }
  | blockFixed (f : BitVec 1) : Effect s .header { s with
      bfinal := f, btype := 1, phase := .fixed, sub := .symbol, blk.lltab := fixedLltab, blk.dtab := fixedDtab }
  | blockDynamic (f : BitVec 1) : Effect s .header { s with bfinal := f, btype := 2, phase := .dynamic, sub := .entry }
  | storedBody (b : BlockRegs) (n : Nat) (hfits : s.cur.incnt + n ≤ s.input.length ∨ n = 0) :
    Effect s .storedBody (endBlock (storedMoved n { s with blk := b }))
  | counts (b : BlockRegs) (hcounts : CountsInv b) (hlow : 4 ≤ b.ncode.toNat) (hhigh : b.ncode.toNat ≤ 19) :
    Effect s .counts { s with blk := b, sub := .codeLens }
  | codeLens (n : Nat) (b : BlockRegs) (hnlen : b.nlen = s.blk.nlen) (hndist : b.ndist = s.blk.ndist)
      (hindex : b.index = 0) (hcltab : Usable b.cltab) : Effect s (.codeLens n) { s with blk := b, sub := .codeSyms }
  | lengths (t : Table 5 19) (first : Bool) (b : BlockRegs) (hnlen : b.nlen = s.blk.nlen)
      (hndist : b.ndist = s.blk.ndist) (hcltab : b.cltab = s.blk.cltab) (hindex : b.index.toNat < s.lensWanted) :
    Effect s (.codeSyms t first) { s with blk := b }
  | tables (t : Table 5 19) (first : Bool) (b : BlockRegs) (hlltab : s.blk.nlen.toNat ≤ 288 → Usable b.lltab)
      (hdtab : s.blk.ndist.toNat ≤ 30 → Usable b.dtab) : Effect s (.codeSyms t first) { s with blk := b, sub := .symbol }
  | literal (t : Table 9 288) (b : BlockRegs) (hlltab : b.lltab = s.blk.lltab) (hdtab : b.dtab = s.blk.dtab) (v : Byte) :
    Effect s (.symbol t) (output { s with blk := b } v)
  | eob (t : Table 9 288) : Effect s (.symbol t) (endBlock s)
  | length (t : Table 9 288) (b : BlockRegs) (hlltab : b.lltab = s.blk.lltab) (hdtab : b.dtab = s.blk.dtab)
      (hlow : 3 ≤ b.length.toNat) (hhigh : b.length.toNat ≤ 258) :
    Effect s (.symbol t) { s with blk := b, sub := .distance }
  | copy (t : Table 5 30) (fixed : Bool) (b : BlockRegs) (hlltab : b.lltab = s.blk.lltab) (hdtab : b.dtab = s.blk.dtab)
      (dist n : Nat) : Effect s (.distance t fixed) (copyLoop dist n { s with blk := b, sub := .symbol })

theorem exec_lengthInstr {k e : Nat} {i : Instr} (hk : k < 29) (hi : lengthInstr k e = some i) (s : State) :
    exec i s = lengthSymbol s (257 + k) (e % 2 ^ (lext.getD k 0).val) := by
  obtain ⟨i', hi', -, hexec⟩ := lengthInstr_some e hk
  obtain rfl := Option.some.inj (hi.symm.trans hi')
  exact hexec s

theorem exec_distanceInstr {d e : Nat} {i : Instr} (hd : d < 30) (hi : distanceInstr d e = some i) (s : State) :
    exec i s = distanceSymbol s d (e % 2 ^ (dext.getD d 0).val) := by
  obtain ⟨i', hi', -, hexec⟩ := distanceInstr_some e hd
  obtain rfl := Option.some.inj (hi.symm.trans hi')
  exact hexec s

theorem exec_literalInstr (v : Nat) (s : State) : exec (literalInstr v) s = literal (BitVec.ofNat 8 v) s := by
  unfold literalInstr
  split <;> rfl

/-- The stored data that answer a next state: moved, or the input ended. -/
theorem storedLoop_next {n : Nat} {s t : State} (h : storedLoop n s = .next t) :
    t = raiseFault .truncated s ∨
      ((s.cur.incnt + n ≤ s.input.length ∨ n = 0) ∧ t = endBlock (storedMoved n s)) := by
  cases n with
  | zero => exact .inr ⟨.inr rfl, (Host.Outcome.next.inj h).symm⟩
  | succ n =>
    by_cases hz : s.cur.bitcnt = 0
    · by_cases hin : s.cur.incnt ≤ s.input.length
      · obtain ⟨hfits, hok⟩ | ⟨-, hfault⟩ := storedLoop_cases (n + 1) hz hin
        · exact .inr ⟨.inl hfits, Host.Outcome.next.inj (h.symm.trans hok)⟩
        · exact .inl (Host.Outcome.next.inj (h.symm.trans hfault))
      · rw [storedLoop, if_neg (not_not_intro hz), nextbyte, List.getElem?_eq_none (by omega)] at h
        exact .inl (Host.Outcome.next.inj h).symm
    · rw [storedLoop, if_pos hz] at h
      cases h

/-- Appended lengths, whichever way the element goes on. -/
theorem appendLengths_effect {s t : State} (tb : Table 5 19) (first : Bool) {n : Nat} {v : BitVec 4} (b : BlockRegs)
    (hnlen : b.nlen = s.blk.nlen) (hndist : b.ndist = s.blk.ndist) (hcltab : b.cltab = s.blk.cltab)
    (h : appendLengths n v { s with blk := b } = .next t) : Effect s (.codeSyms tb first) t := by
  by_cases hbound : 316 < b.index.toNat + n
  · rw [appendLengths, if_pos hbound] at h
    cases h
  obtain ⟨hmore, hok⟩ | ⟨-, hll, hd, hok⟩ | ⟨-, -, hok⟩ :=
    appendLengths_cases n v (s := { s with blk := b }) (Nat.not_lt.mp hbound) <;>
    obtain rfl := Host.Outcome.next.inj (h.symm.trans hok)
  · refine .lengths tb first (appended n v { s with blk := b }).blk hnlen hndist hcltab ?_
    have hindex : (BitVec.ofNat 9 (b.index.toNat + n)).toNat = b.index.toNat + n :=
      Nat.mod_eq_of_lt (by omega)
    simp only [State.lensWanted, hnlen, hndist] at hmore
    simpa only [appended, hindex, State.lensWanted] using hmore
  · refine .tables tb first _
      (fun h288 => ?_) fun h30 => ?_
    · exact construct_usable _ _ ((lensSlice_length_le _ _ _).trans (hnlen ▸ h288)) (lensSlice_le _ _ _) (by omega)
    · exact construct_usable _ _ ((lensSlice_length_le _ _ _).trans (hndist ▸ h30)) (lensSlice_le _ _ _) (by omega)
  · exact .fault _ .overSubscribed

theorem repeatLength_effect {s t : State} (tb : Table 5 19) (first : Bool) {rep : Nat} {v : BitVec 4} (b : BlockRegs)
    (hnlen : b.nlen = s.blk.nlen) (hndist : b.ndist = s.blk.ndist) (hcltab : b.cltab = s.blk.cltab)
    (h : repeatLength rep v { s with blk := b } = .next t) : Effect s (.codeSyms tb first) t := by
  obtain ⟨-, hok⟩ | ⟨-, hok⟩ := repeatLength_cases rep v { s with blk := b }
  · obtain rfl := Host.Outcome.next.inj (h.symm.trans hok)
    exact .fault _ .repeatOverrun
  · exact appendLengths_effect tb first { b with rep := BitVec.ofNat 8 rep, rlen := v } hnlen hndist hcltab
      (hok.symm.trans h)

/-- The counts are refused, or taken (rules R161, R162). -/
theorem execDynHeader_cases (l d : BitVec 5) (n : BitVec 4) (s : State) :
    ((30 ≤ l.toNat ∨ 30 ≤ d.toNat) ∧ execDynHeader l d n s = .next (raiseFault .badCodeCount s)) ∨
      ((l.toNat ≤ 29 ∧ d.toNat ≤ 29) ∧ execDynHeader l d n s = .next { s with
        blk.nlen := BitVec.ofNat 9 (l.toNat + 257), blk.ndist := BitVec.ofNat 6 (d.toNat + 1),
        blk.ncode := BitVec.ofNat 5 (n.toNat + 4), sub := .codeLens }) := by
  by_cases h : 30 ≤ l.toNat ∨ 30 ≤ d.toNat
  · refine .inl ⟨h, ?_⟩
    rw [execDynHeader, if_pos (by simp only [nlenOf, ndistOf, Config.maxLCodes, Config.maxDCodes]; omega)]
    rfl
  · refine .inr ⟨by omega, ?_⟩
    rw [execDynHeader, if_neg (by simp only [nlenOf, ndistOf, Config.maxLCodes, Config.maxDCodes]; omega)]
    rfl

/-- The three counts as their registers hold them. -/
theorem counts_toNat {l d : BitVec 5} (n : BitVec 4) (hd : d.toNat ≤ 29) :
    (BitVec.ofNat 9 (l.toNat + 257)).toNat = l.toNat + 257 ∧ (BitVec.ofNat 6 (d.toNat + 1)).toNat = d.toNat + 1 ∧
      (BitVec.ofNat 5 (n.toNat + 4)).toNat = n.toNat + 4 :=
  ⟨Nat.mod_eq_of_lt (by omega), Nat.mod_eq_of_lt (by omega), Nat.mod_eq_of_lt (by omega)⟩

theorem execDynHeader_effect {s t : State} {l d : BitVec 5} {n : BitVec 4} (h : execDynHeader l d n s = .next t) :
    Effect s .counts t := by
  obtain ⟨-, hok⟩ | ⟨⟨hl, hd⟩, hok⟩ := execDynHeader_cases l d n s <;> obtain rfl := Host.Outcome.next.inj (h.symm.trans hok)
  · exact .fault _ .badCodeCount
  · obtain ⟨hnlen, hndist, hncode⟩ := counts_toNat (l := l) n hd
    refine .counts _ ⟨?_, ?_, ?_, ?_⟩ ?_ ?_ <;> simp only [hnlen, hndist, hncode] <;> omega

theorem unassignedDistance_effect {s t : State} {ctx : Context} (h : unassignedDistance s = .next t) :
    Effect s ctx t := by
  unfold unassignedDistance at h
  split at h <;> obtain rfl := Host.Outcome.next.inj h
  · exact .fault _ .truncated
  · exact .fault _ .undecodable

/-- Every element that answers a next state has one of its context's effects. -/
theorem exec_effect {ctx : Context} {i : Instr} {s t : State} (hi : ElementOf ctx i) (h : exec i s = .next t) :
    Effect s ctx t := by
  cases hi with
  | header x y =>
    obtain ⟨f, hf⟩ | ⟨f, hf⟩ | ⟨f, hf⟩ | ⟨f, hf⟩ := headerInstr_cases x y <;> rw [hf] at h <;>
      obtain rfl := Host.Outcome.next.inj h
    · exact .blockStored f
    · exact .blockFixed f
    · exact .blockDynamic f
    · exact .fault _ .invalidBlockType
  | stored l n =>
    obtain ⟨-, -, hfault⟩ | ⟨-, hbody⟩ := storedBody_cases s.params l n s
    · obtain rfl := Host.Outcome.next.inj (h.symm.trans hfault)
      exact .fault _ .storedLengthMismatch
    · obtain rfl | ⟨hfits, rfl⟩ := storedLoop_next (hbody.symm.trans h)
      · exact .fault _ .truncated
      · exact .storedBody { s.blk with slen := l, snlen := n, scnt := l } l.toNat hfits
  | counts l d n => exact execDynHeader_effect h
  | codeLens ls =>
    simp only [exec, execCllens, overSubscribed_iff] at h
    split_ifs at h with hneg <;> obtain rfl := Host.Outcome.next.inj h
    · exact .fault _ .overSubscribed
    · obtain ⟨hlen, h15⟩ := codeLens_le (placeCodeLens ls)
      exact .codeLens _ _ rfl rfl rfl
        (construct_usable _ _ hlen.le h15 hneg)
  | cl0to15 tb first v => exact appendLengths_effect tb first { s.blk with sym := BitVec.ofNat 9 v.toNat } rfl rfl rfl h
  | cl16 tb first r =>
    simp only [exec, execCl16] at h
    split_ifs at h
    · obtain rfl := Host.Outcome.next.inj h
      exact .fault _ .repeatWithoutPrevious
    · split at h
      · cases h
      · exact repeatLength_effect tb first { s.blk with sym := 16 } rfl rfl rfl h
  | cl17 tb first r => exact repeatLength_effect tb first { s.blk with sym := 17 } rfl rfl rfl h
  | cl18 tb first r => exact repeatLength_effect tb first { s.blk with sym := 18 } rfl rfl rfl h
  | literal tb hv =>
    rw [exec_literalInstr] at h
    obtain rfl := Host.Outcome.next.inj h
    exact .literal (s := s) tb _ (by rfl) (by rfl) _
  | eob tb =>
    obtain rfl := Host.Outcome.next.inj h
    exact .eob tb
  | length tb hk hi =>
    rw [exec_lengthInstr hk hi] at h
    obtain rfl := Host.Outcome.next.inj h
    obtain ⟨hlow, hhigh⟩ := lengthOf_range _ hk
    exact .length tb _ rfl rfl
      (hlow.trans_eq (Nat.mod_eq_of_lt (by omega)).symm) ((Nat.mod_eq_of_lt (by omega)).trans_le hhigh)
  | ll286 tb =>
    obtain rfl := Host.Outcome.next.inj h
    exact .fault _ .invalidLengthSymbol
  | ll287 tb =>
    obtain rfl := Host.Outcome.next.inj h
    exact .fault _ .invalidLengthSymbol
  | distance tb fixed hd hi =>
    rw [exec_distanceInstr hd hi, distanceSymbol] at h
    obtain ⟨-, -, hfault⟩ | ⟨-, hok⟩ := copy_cases s.params _ _ _
    · obtain rfl := Host.Outcome.next.inj (h.symm.trans hfault)
      exact .fault _ .distanceTooFar
    · obtain rfl := Host.Outcome.next.inj (h.symm.trans hok)
      exact .copy (s := s) tb fixed _ (by rfl) (by rfl) _ _
  | dist30 tb fixed => exact unassignedDistance_effect h
  | dist31 tb fixed => exact unassignedDistance_effect h

/-! ### What every element keeps -/

/-- The parameters and the input stand, and a canonical window stays so. -/
structure Kept (s t : State) : Prop where
  params : t.params = s.params
  input : t.input = s.input
  memWf : memWf s.window = true → memWf t.window = true

theorem storedMoved_kept (n : Nat) (s : State) : Kept s (storedMoved n s) := by
  induction n generalizing s with
  | zero => exact ⟨rfl, rfl, id⟩
  | succ n ih =>
    obtain ⟨hparams, hinput, hmem⟩ := ih (output { s with
      cur := { s.cur with incnt := s.cur.incnt + 1 }, blk.scnt := s.blk.scnt - 1 } (s.input.getD s.cur.incnt 0))
    exact ⟨hparams, hinput, fun h => hmem (output_memWf (s := { s with
      cur := { s.cur with incnt := s.cur.incnt + 1 }, blk.scnt := s.blk.scnt - 1 }) _ h)⟩

theorem Effect.kept {s t : State} {ctx : Context} (h : Effect s ctx t) : Kept s t := by
  cases h with
  | fault => exact ⟨rfl, rfl, fun _ => rfl⟩
  | storedBody b n =>
    obtain ⟨hparams, hinput, hmem⟩ := storedMoved_kept n { s with blk := b }
    exact ⟨hparams, hinput, hmem⟩
  | literal _ b => exact ⟨rfl, rfl, fun h => output_memWf (s := { s with blk := b }) _ h⟩
  | copy _ _ b _ _ dist n =>
    obtain ⟨-, hinput, -, -, -, -, -, -, -, -, -, hparams⟩ := copyLoop_frame dist n { s with blk := b, sub := .symbol }
    exact ⟨hparams, hinput, fun h => copyLoop_memWf dist n (s := { s with blk := b, sub := .symbol }) h⟩
  | _ => exact ⟨rfl, rfl, id⟩

theorem rejected_next {r : Reject} {s t : State} (h : rejected r s = .next t) : ∃ f, t = raiseFault f s := by
  cases r <;> simp only [rejected, Host.Outcome.next.injEq, reduceCtorEq] at h <;> exact ⟨_, h.symm⟩

/-- A stream element step: nothing outside a busy phase, else a reject's fault, or an element's effect from the state in
which its bits are consumed. -/
theorem stepElement_next {s t : State} (h : stepElement s = .next t) :
    (s.context = none ∧ t = s) ∨
      ∃ ctx, s.context = some ctx ∧
        ((∃ f, t = raiseFault f s) ∨
          ∃ f, decodeElement ctx s.input s.cur = .ok f ∧ Effect (s.consume f) ctx t) := by
  cases hctx : s.context with
  | none => exact .inl ⟨rfl, (Host.Outcome.next.inj ((stepElement_idle hctx).symm.trans h)).symm⟩
  | some ctx =>
    refine .inr ⟨ctx, rfl, ?_⟩
    cases hd : decodeElement ctx s.input s.cur with
    | error r => exact .inl (rejected_next ((stepElement_error hctx hd).symm.trans h))
    | ok f => exact .inr ⟨f, rfl, exec_effect (decodeElement_elementOf hd) ((stepElement_ok hctx hd).symm.trans h)⟩

theorem stepElement_kept {s t : State} (h : stepElement s = .next t) : Kept s t := by
  obtain ⟨-, rfl⟩ | ⟨ctx, -, ⟨f, rfl⟩ | ⟨f, -, heffect⟩⟩ := stepElement_next h
  · exact ⟨rfl, rfl, id⟩
  · exact ⟨rfl, rfl, fun _ => rfl⟩
  · obtain ⟨hparams, hinput, hmem⟩ := heffect.kept
    exact ⟨hparams, hinput, hmem⟩

theorem step_kept {s t : State} (h : step s = .next t) :
    t.params = s.params ∧ (memWf s.window = true → memWf t.window = true) := by
  obtain ⟨-, hstep⟩ | ⟨-, -, -, hstep⟩ | ⟨-, -, hstep⟩ := step_cases s
  · obtain rfl := Host.Outcome.next.inj (hstep.symm.trans h)
    exact ⟨rfl, fun _ => rfl⟩
  · obtain rfl := Host.Outcome.next.inj (hstep.symm.trans h)
    exact ⟨rfl, fun _ => rfl⟩
  · obtain ⟨hparams, -, hmem⟩ := stepElement_kept (hstep.symm.trans h)
    exact ⟨hparams, hmem⟩

/-! ### A step by what the host asks for -/

theorem step_reset {s : State} (h : s.host.reset = true) : step s = .next (hardwareReset s) := by
  simp [step, h]

/-- Without a reset and an accepted `START` a step is one stream element, the pulse dropped. -/
theorem step_run {s : State} (hreset : s.host.reset = false) (hrun : s.host.start = false ∨ s.busyFlag = true) :
    step s = stepElement { s with host.start := false } := by
  obtain ⟨hr, -⟩ | ⟨-, hstart, hbusy, -⟩ | ⟨-, -, hstep⟩ := step_cases s
  · simp [hreset] at hr
  · simp [hstart, hbusy] at hrun
  · exact hstep

/-! ### The phases -/

@[simp] theorem storedMoved_bfinal (n : Nat) (s : State) : (storedMoved n s).bfinal = s.bfinal := by
  induction n generalizing s with
  | zero => rfl
  | succ n ih => exact ih _

theorem endBlock_transition {s s₀ : State} (hbfinal : s.bfinal = s₀.bfinal) :
    (s₀.bfinal = 0 ∧ (endBlock s).phase = .header) ∨ (s₀.bfinal = 1 ∧ (endBlock s).phase = .done) := by
  obtain hb | hb := BitVec.eq_zero_or_eq_one s₀.bfinal
  · exact .inl ⟨hb, by rw [endBlock_phase, hbfinal, hb]; rfl⟩
  · exact .inr ⟨hb, by rw [endBlock_phase, hbfinal, hb]; rfl⟩

end Sys2Proof.Machine

namespace Sys2Proof.Claims

open Sys2Proof.Machine

/-- Settles O57: by the effects, each of which keeps the form. -/
theorem stepKeepsTheWindowCanonical : Obligations.StepKeepsTheWindowCanonical :=
  fun _ _ hmem h => (step_kept h).2 hmem

/-- A fault is a transition of the table from every busy phase. -/
theorem transition_of_fault {s t : State} {ctx : Context} (hplace : Place s ctx) (h : t.phase = .fault) :
    Transition s t := by
  cases hplace <;> simp_all [Transition]

/-- So is the end of a block, from the places where one can end. -/
theorem transition_of_end {s t : State} {ctx : Context} (hplace : Place s ctx)
    (hctx : ctx = .storedBody ∨ ∃ tb, ctx = .symbol tb)
    (hend : (s.bfinal = 0 ∧ t.phase = .header) ∨ (s.bfinal = 1 ∧ t.phase = .done)) : Transition s t := by
  cases hplace <;> simp only [reduceCtorEq, exists_false, or_self] at hctx <;> simp only [Transition, *] <;> tauto

/-- The table of rule R134, by the place of the element and its effect; `s` is the state before its bits are
consumed. -/
theorem transition_of_effect {s s' t : State} {ctx : Context} (hplace : Place s ctx) (hphase : s'.phase = s.phase)
    (hbfinal : s'.bfinal = s.bfinal) (h : Effect s' ctx t) : Transition s t := by
  cases h with
  | fault => exact transition_of_fault hplace rfl
  | storedBody b n =>
    exact transition_of_end hplace (.inl rfl) (endBlock_transition ((storedMoved_bfinal n _).trans hbfinal))
  | eob tb => exact transition_of_end hplace (.inr ⟨tb, rfl⟩) (endBlock_transition hbfinal)
  | copy _ _ b _ _ dist n =>
    obtain ⟨-, -, -, -, -, -, hp, -⟩ := copyLoop_frame dist n { s' with blk := b, sub := .symbol }
    cases hplace <;> simp_all [Transition]
  | _ => cases hplace <;> simp_all [Transition]

/-- Outside a busy phase, where no `START` is pending, the step leaves the state. -/
theorem transition_of_context_none {s : State} (hnone : s.context = none)
    (hrun : s.host.start = false ∨ s.busyFlag = true) : Transition s { s with host.start := false } := by
  have hidle : s.busyFlag = false := by rw [← context_isSome, hnone]; rfl
  have hstart : s.host.start = false := by simpa [hidle] using hrun
  have hsame : ({ s with host.start := false } : State) = s := by rw [← hstart]
  rw [hsame]
  cases hphase : s.phase <;> simp_all [Transition, State.busyFlag, Phase.busy]

/-- Settles O20: a reset, an accepted start, or an element's effect. -/
theorem phasesMoveAsTheTableSays : Obligations.PhasesMoveAsTheTableSays := by
  intro s t h
  refine ⟨fun hreset => ?_, fun hreset hstart hbusy => ?_, fun hreset hrun => ?_⟩
  · obtain rfl := Host.Outcome.next.inj ((step_reset hreset).symm.trans h)
    rfl
  · obtain rfl := Host.Outcome.next.inj ((step_start hreset hstart hbusy).symm.trans h)
    rfl
  · rw [step_run hreset hrun] at h
    obtain ⟨hnone, rfl⟩ | ⟨ctx, hctx, ⟨f, rfl⟩ | ⟨f, -, heffect⟩⟩ := stepElement_next h
    · exact transition_of_context_none hnone hrun
    · exact transition_of_fault (place_of_context (s := s) hctx) rfl
    · exact transition_of_effect (place_of_context (s := s) hctx) (by rfl) (by rfl) heffect

end Sys2Proof.Claims
end

section
/-! The run invariant: what it gives the decoder at each place, and that every effect keeps it (rules R14, R17, R20, R24,
R122, R278). -/

namespace Sys2Proof.Machine

/-- What the invariant gives of the table, or the number of lengths, a context decodes with. -/
def Context.Sound : Context → Prop
  | .header => True
  | .storedBody => True
  | .counts => True
  | .codeLens n => 4 ≤ n ∧ n ≤ 19
  | .codeSyms t _ => Usable t
  | .symbol t => Usable t
  | .distance t fixed => Usable t ∧ (fixed = true → t = fixedDtab)

variable {s t : State} {ctx : Context} {inp : List Byte} {c : Cursor} {f : Fetched}

/-- The tables are there where a symbol is decoded. -/
theorem PlaceInv.tables_of_symbol {tb : Table 9 288} (h : PlaceInv s) (hplace : Place s (.symbol tb)) :
    TablesInv s ∧ s.sub = .symbol := by
  cases hplace with
  | symbol hphase hsub => exact ⟨by simpa only [PlaceInv, hphase, hsub] using h, hsub⟩
  | fixedSymbol hphase hsub => cases hs : s.sub <;> simp_all only [PlaceInv, ne_eq, not_true_eq_false, and_self]

/-- And where a distance is, with a length in its range. -/
theorem PlaceInv.tables_of_distance {tb : Table 5 30} {fixed : Bool} (h : PlaceInv s) (hplace : Place s (.distance tb fixed)) :
    TablesInv s ∧ 3 ≤ s.blk.length.toNat ∧ s.blk.length.toNat ≤ 258 := by
  cases hplace with
  | distance hphase hsub => simpa only [PlaceInv, hphase, hsub] using h
  | fixedDistance hphase hsub => simpa only [PlaceInv, hphase, hsub] using h

theorem PlaceInv.sound (h : PlaceInv s) (hplace : Place s ctx) : ctx.Sound := by
  have hplace' := hplace
  cases hplace with
  | header => trivial
  | stored => trivial
  | counts => trivial
  | codeLens hphase hsub =>
    simp only [PlaceInv, hphase, hsub] at h
    exact h.2
  | codeSyms hphase hsub =>
    simp only [PlaceInv, hphase, hsub] at h
    exact h.2.2
  | symbol => exact (h.tables_of_symbol hplace').1.1
  | fixedSymbol => exact (h.tables_of_symbol hplace').1.1
  | distance => exact ⟨(h.tables_of_distance hplace').1.2.1, nofun⟩
  | fixedDistance hphase =>
    obtain ⟨⟨-, hd, hfixed⟩, -⟩ := h.tables_of_distance hplace'
    exact ⟨hd, fun _ => (hfixed hphase).2⟩

/-- An element decoded in a sound context moves the cursor forward; a stored body leaves it at a byte boundary. -/
theorem decodeElement_forward (hctx : ctx.Sound) (hc : CursorInv inp c) (h : decodeElement ctx inp c = .ok f) :
    Forward inp c f.cur ∧ (ctx = .storedBody → f.cur.bitcnt = 0) := by
  cases ctx with
  | header => exact ⟨(decodeHeader_ok hc h).1, nofun⟩
  | storedBody =>
    obtain ⟨hfwd, hz, -⟩ := decodeStored_ok hc h
    exact ⟨hfwd, fun _ => hz⟩
  | counts => exact ⟨(decodeCounts_ok hc h).1, nofun⟩
  | codeLens n => exact ⟨(decodeCodeLens_ok hc (by have := hctx.1; omega) h).1, nofun⟩
  | codeSyms t first =>
    obtain ⟨lens, -, -, ht⟩ := Usable.holds hctx (by decide)
    exact ⟨(decodeCodeSym_ok ht hc h).1, nofun⟩
  | symbol t =>
    obtain ⟨lens, -, -, ht⟩ := Usable.holds hctx (by decide)
    exact ⟨(decodeSymbol_ok ht hc h).1, nofun⟩
  | distance t fixed =>
    obtain ⟨lens, -, -, ht⟩ := Usable.holds hctx.1 (by decide)
    exact ⟨(decodeDistance_ok ht hc h).1, nofun⟩

/-- In a sound context the decoder has the spec's two rejects only. -/
theorem decodeElement_error (hctx : ctx.Sound) (hc : CursorInv inp c) {r : Reject}
    (h : decodeElement ctx inp c = .error r) : r = .truncated ∨ r = .undecodable := by
  cases ctx with
  | header => exact .inl (decodeHeader_error hc h)
  | storedBody => exact .inl (decodeStored_error hc h)
  | counts => exact .inl (decodeCounts_error hc h)
  | codeLens n => exact .inl (decodeCodeLens_error hc h)
  | codeSyms t first =>
    obtain ⟨lens, hcap, -, ht⟩ := Usable.holds hctx (by decide)
    exact decodeCodeSym_error ht hcap hc h
  | symbol t =>
    obtain ⟨lens, hcap, -, ht⟩ := Usable.holds hctx (by decide)
    exact decodeSymbol_error ht hcap hc h
  | distance t fixed =>
    obtain ⟨lens, hcap, -, ht⟩ := Usable.holds hctx.1 (by decide)
    exact decodeDistance_error ht hcap hc h

/-! ### The invariant in a run -/

/-- The part of the run invariant that holds at every place of a run. -/
structure InRun (s : State) : Prop where
  window : memWf s.window = true
  faultCode : s.faultCode = 0
  cursor : CursorInv s.input s.cur
  output : OutputInv s

theorem RunInv.inRun (h : RunInv s) (hbusy : s.busyFlag = true) : InRun s := by
  obtain ⟨hwindow, hcode, -, hrun, -⟩ := h
  have hphase : s.phase ≠ .idle ∧ s.phase ≠ .fault := by
    constructor <;> intro hp <;> simp [State.busyFlag, hp, Phase.busy] at hbusy
  obtain ⟨hcursor, houtput⟩ := hrun hphase.1 hphase.2
  exact ⟨hwindow, hcode hphase.2, hcursor, houtput⟩

theorem InRun.runInv (h : InRun s) (hphase : s.phase ≠ .fault) (hplace : PlaceInv s) : RunInv s :=
  ⟨h.window, fun _ => h.faultCode, fun hf => absurd hf hphase, fun _ _ => ⟨h.cursor, h.output⟩, hplace⟩

/-- After a fault only the code and the empty window are left to hold (rule R273). -/
theorem runInv_raiseFault (f : FaultCode) (s : State) : RunInv (raiseFault f s) :=
  ⟨rfl, fun h => absurd rfl h, fun _ => f.code_range, fun _ h => absurd rfl h, trivial⟩

/-- The bits of a decoded element consumed. -/
theorem InRun.consume (h : InRun s) (hf : CursorInv s.input f.cur) : InRun (s.consume f) :=
  ⟨h.window, h.faultCode, hf, h.output⟩

theorem InRun.endBlock (h : InRun s) : RunInv (endBlock s) := by
  have hphase : (Machine.endBlock s).phase = .done ∨ (Machine.endBlock s).phase = .header := by
    rw [endBlock_phase]
    split <;> simp
  refine InRun.runInv ⟨h.window, h.faultCode, h.cursor, h.output⟩ ?_ ?_
  · obtain hp | hp := hphase <;> simp only [hp, ne_eq, reduceCtorEq, not_false_eq_true]
  · obtain hp | hp := hphase <;> simp only [PlaceInv, hp]

theorem InRun.storedMoved (n : Nat) (h : InRun s) (hz : s.cur.bitcnt = 0) (hfits : s.cur.incnt + n ≤ s.input.length) :
    InRun (storedMoved n s) := by
  obtain ⟨-, -, hcur, hout, hmem, -, hrest⟩ := storedMoved_frame n hfits
  refine ⟨hmem h.window, ?_, ?_, hout h.output⟩
  · rw [hrest]
    exact h.faultCode
  · rw [hcur, (storedMoved_kept n s).input]
    exact ⟨hfits, h.cursor.2.1, fun hn => absurd hz hn⟩

theorem InRun.copyLoop (dist n : Nat) (h : InRun s) : InRun (copyLoop dist n s) := by
  obtain ⟨-, hinput, hcur, -, -, -, -, -, hcode, -⟩ := copyLoop_frame dist n s
  exact ⟨copyLoop_memWf dist n h.window, hcode.trans h.faultCode, by rw [hinput, hcur]; exact h.cursor,
    copyLoop_outputInv dist n h.output⟩

/-- In a Huffman block whose tables are built a symbol may come next. -/
theorem InRun.runInv_symbol (h : InRun t) (hphase : t.phase = .fixed ∨ t.phase = .dynamic) (hsub : t.sub = .symbol)
    (htables : TablesInv t) : RunInv t := by
  obtain hp | hp := hphase <;>
    exact h.runInv (by simp [hp]) (by simpa only [PlaceInv, hp, hsub] using htables)

/-- And after a length a distance. -/
theorem InRun.runInv_distance (h : InRun t) (hphase : t.phase = .fixed ∨ t.phase = .dynamic) (hsub : t.sub = .distance)
    (htables : TablesInv t) (hlow : 3 ≤ t.blk.length.toNat) (hhigh : t.blk.length.toNat ≤ 258) : RunInv t := by
  obtain hp | hp := hphase <;>
    exact h.runInv (by simp [hp]) (by simpa only [PlaceInv, hp, hsub] using ⟨htables, hlow, hhigh⟩)

theorem Place.huffman_of_symbol {tb : Table 9 288} (h : Place s (.symbol tb)) : s.phase = .fixed ∨ s.phase = .dynamic := by
  cases h with
  | symbol hphase => exact .inr hphase
  | fixedSymbol hphase => exact .inl hphase

theorem Place.huffman_of_distance {tb : Table 5 30} {fixed : Bool} (h : Place s (.distance tb fixed)) :
    s.phase = .fixed ∨ s.phase = .dynamic := by
  cases h with
  | distance hphase => exact .inr hphase
  | fixedDistance hphase => exact .inl hphase

/-- Every effect of an element keeps the run invariant. -/
theorem Effect.runInv (h : Effect s ctx t) (hs : InRun s) (hplace : Place s ctx) (hinv : PlaceInv s)
    (haligned : ctx = .storedBody → s.cur.bitcnt = 0) : RunInv t := by
  -- the registers of the block and the places are no part of what `InRun` speaks of
  have with_blk (b : BlockRegs) : InRun { s with blk := b } := ⟨hs.window, hs.faultCode, hs.cursor, hs.output⟩
  have with_sub (b : BlockRegs) (sub : Sub) : InRun { s with blk := b, sub := sub } :=
    ⟨hs.window, hs.faultCode, hs.cursor, hs.output⟩
  cases h with
  | fault _ f => exact runInv_raiseFault f s
  | blockStored => exact InRun.runInv ⟨hs.window, hs.faultCode, hs.cursor, hs.output⟩ nofun trivial
  | blockDynamic => exact InRun.runInv ⟨hs.window, hs.faultCode, hs.cursor, hs.output⟩ nofun trivial
  | blockFixed =>
    exact InRun.runInv_symbol ⟨hs.window, hs.faultCode, hs.cursor, hs.output⟩ (.inl rfl) rfl
      ⟨Tests.usable_fixed.1, Tests.usable_fixed.2, fun _ => ⟨rfl, rfl⟩⟩
  | storedBody b n hfits =>
    have hin : s.cur.incnt ≤ s.input.length := hs.cursor.1
    exact ((with_blk b).storedMoved n (haligned rfl) (show s.cur.incnt + n ≤ s.input.length by omega)).endBlock
  | counts b hcounts hlow hhigh =>
    cases hplace with
    | counts hphase =>
      exact (with_sub b .codeLens).runInv (by simp [hphase]) (by simpa only [PlaceInv, hphase] using ⟨hcounts, hlow, hhigh⟩)
  | codeLens n b hnlen hndist hindex hcltab =>
    cases hplace with
    | codeLens hphase hsub =>
      simp only [PlaceInv, hphase, hsub] at hinv
      have hcounts : CountsInv b := by unfold CountsInv; rw [hnlen, hndist]; exact hinv.1
      have hzero : b.index.toNat = 0 := by rw [hindex]; rfl
      have hwanted : b.index.toNat < b.nlen.toNat + b.ndist.toNat := by have := hcounts.1; omega
      exact (with_sub b .codeSyms).runInv (by simp [hphase])
        (by simpa only [PlaceInv, hphase] using ⟨hcounts, hwanted, hcltab⟩)
  | lengths tb first b hnlen hndist hcltab hindex =>
    cases hplace with
    | codeSyms hphase hsub =>
      simp only [PlaceInv, hphase, hsub] at hinv
      have hcounts : CountsInv b := by unfold CountsInv; rw [hnlen, hndist]; exact hinv.1
      have hwanted : b.index.toNat < b.nlen.toNat + b.ndist.toNat := by rw [hnlen, hndist]; exact hindex
      exact (with_blk b).runInv (by simp [hphase])
        (by simpa only [PlaceInv, hphase, hsub] using ⟨hcounts, hwanted, hcltab ▸ hinv.2.2⟩)
  | tables tb first b hlltab hdtab =>
    cases hplace with
    | codeSyms hphase hsub =>
      simp only [PlaceInv, hphase, hsub] at hinv
      obtain ⟨⟨-, hnlen, -, hndist⟩, -⟩ := hinv
      exact (with_sub b .symbol).runInv_symbol (.inr hphase) rfl
        ⟨hlltab (by omega), hdtab hndist, fun hp => by simp [hphase] at hp⟩
  | literal tb b hlltab hdtab v =>
    obtain ⟨htables, hsub⟩ := hinv.tables_of_symbol hplace
    exact InRun.runInv_symbol (t := output { s with blk := b } v)
      ⟨output_memWf v (with_blk b).window, hs.faultCode, hs.cursor, (with_blk b).output.output v⟩
      hplace.huffman_of_symbol hsub (htables.congr hlltab hdtab rfl)
  | eob => exact hs.endBlock
  | length tb b hlltab hdtab hlow hhigh =>
    obtain ⟨htables, -⟩ := hinv.tables_of_symbol hplace
    exact (with_sub b .distance).runInv_distance hplace.huffman_of_symbol rfl (htables.congr hlltab hdtab rfl) hlow hhigh
  | copy tb fixed b hlltab hdtab dist n =>
    obtain ⟨htables, -⟩ := hinv.tables_of_distance hplace
    obtain ⟨-, -, -, -, -, -, hphase, hsub, -, hblk, -⟩ := copyLoop_frame dist n { s with blk := b, sub := .symbol }
    exact ((with_sub b .symbol).copyLoop dist n).runInv_symbol (by rw [hphase]; exact hplace.huffman_of_distance) hsub
      (htables.congr (by rw [hblk]; exact hlltab) (by rw [hblk]; exact hdtab) hphase)

/-- No effect moves the cursor back. -/
theorem Effect.pos_le (h : Effect s ctx t) (hs : InRun s) (hphase : t.phase ≠ .fault) : s.cur.pos ≤ t.cur.pos := by
  cases h with
  | fault => exact absurd rfl hphase
  | storedBody b n hfits =>
    have hin : s.cur.incnt ≤ s.input.length := hs.cursor.1
    obtain ⟨-, -, hcur, -⟩ := storedMoved_frame n (s := { s with blk := b })
      (show s.cur.incnt + n ≤ s.input.length by omega)
    rw [endBlock_cur, hcur]
    simp only [Cursor.pos]
    omega
  | copy _ _ b _ _ dist n =>
    obtain ⟨-, -, hcur, -⟩ := copyLoop_frame dist n { s with blk := b, sub := .symbol }
    rw [hcur]
  | _ => exact le_rfl

/-! ### No element stops -/

theorem appendLengths_total {n : Nat} {v : BitVec 4} (h : s.blk.index.toNat + n ≤ 316) :
    ∃ t, appendLengths n v s = .next t := by
  obtain ⟨-, hok⟩ | ⟨-, -, -, hok⟩ | ⟨-, -, hok⟩ := appendLengths_cases n v h <;> exact ⟨_, hok⟩

theorem repeatLength_total {rep : Nat} {v : BitVec 4} (h : s.lensWanted ≤ 316) : ∃ t, repeatLength rep v s = .next t := by
  obtain ⟨-, hok⟩ | ⟨hle, hok⟩ := repeatLength_cases rep v s
  · exact ⟨_, hok⟩
  · rw [hok]
    exact appendLengths_total (hle.trans h)

/-- Symbol 16 finds the length before it. -/
theorem execCl16_cases (r : BitVec 2) (s : State) (h : s.blk.index.toNat ≤ 316) :
    (s.blk.index = 0 ∧ execCl16 r s = .next (raiseFault .repeatWithoutPrevious s)) ∨
      (s.blk.index ≠ 0 ∧ ∃ v, s.blk.lengths.toList[s.blk.index.toNat - 1]? = some v ∧
        execCl16 r s = repeatLength (repShort r.toNat) v { s with blk.sym := 16 }) := by
  by_cases hz : s.blk.index = 0
  · exact .inl ⟨hz, by rw [execCl16, if_pos hz]; rfl⟩
  · have hpos : s.blk.index.toNat ≠ 0 := fun h => hz (BitVec.eq_of_toNat_eq h)
    have hlt : s.blk.index.toNat - 1 < s.blk.lengths.toList.length := by rw [Vector.length_toList]; omega
    have hv := List.getElem?_eq_getElem hlt
    exact .inr ⟨hz, _, hv, by rw [execCl16, if_neg hz, hv]⟩

theorem unassignedDistance_total (s : State) : ∃ t, unassignedDistance s = .next t := by
  unfold unassignedDistance
  split <;> exact ⟨_, rfl⟩

/-- Where the invariant of a run holds, no element stops the model. -/
theorem exec_total {i : Instr} (hi : ElementOf ctx i) (hs : InRun s) (hplace : Place s ctx) (hinv : PlaceInv s)
    (haligned : ctx = .storedBody → s.cur.bitcnt = 0) : ∃ t, exec i s = .next t := by
  have hwanted {tb : Table 5 19} {first : Bool} (hctx : ctx = .codeSyms tb first) :
      s.blk.index.toNat + 1 ≤ 316 ∧ s.lensWanted ≤ 316 := by
    subst hctx
    cases hplace with
    | codeSyms hphase hsub =>
      simp only [PlaceInv, hphase, hsub] at hinv
      obtain ⟨⟨-, hnlen, -, hndist⟩, hindex, -⟩ := hinv
      simp only [State.lensWanted] at hindex ⊢
      omega
  cases hi with
  | header x y => obtain ⟨f, hf⟩ | ⟨f, hf⟩ | ⟨f, hf⟩ | ⟨f, hf⟩ := headerInstr_cases x y <;> rw [hf] <;> exact ⟨_, rfl⟩
  | stored l n =>
    obtain ⟨-, -, hok⟩ | ⟨-, hbody⟩ := storedBody_cases s.params l n s
    · exact ⟨_, hok⟩
    · obtain ⟨-, hok⟩ | ⟨-, hok⟩ := storedLoop_cases l.toNat
        (s := { s with blk.slen := l, blk.snlen := n, blk.scnt := l }) (haligned rfl) hs.cursor.1
      · exact ⟨_, hbody.trans hok⟩
      · exact ⟨_, hbody.trans hok⟩
  | counts l d n => obtain ⟨-, hok⟩ | ⟨-, hok⟩ := execDynHeader_cases l d n s <;> exact ⟨_, hok⟩
  | codeLens ls =>
    rw [exec, execCllens]
    split <;> exact ⟨_, rfl⟩
  | cl0to15 tb first v => exact appendLengths_total (hwanted rfl).1
  | cl16 tb first r =>
    obtain ⟨hindex, hlens⟩ := hwanted rfl
    obtain ⟨-, hok⟩ | ⟨-, v, -, hok⟩ := execCl16_cases r s (by omega)
    · exact ⟨_, hok⟩
    · obtain ⟨t, ht⟩ := repeatLength_total (s := { s with blk.sym := 16 }) hlens
      exact ⟨t, hok.trans ht⟩
  | cl17 tb first r => exact repeatLength_total (s := { s with blk.sym := 17 }) (hwanted rfl).2
  | cl18 tb first r => exact repeatLength_total (s := { s with blk.sym := 18 }) (hwanted rfl).2
  | literal tb hv => exact ⟨_, exec_literalInstr _ s⟩
  | eob tb => exact ⟨_, rfl⟩
  | length tb hk hi => exact ⟨_, exec_lengthInstr hk hi s⟩
  | ll286 tb => exact ⟨_, rfl⟩
  | ll287 tb => exact ⟨_, rfl⟩
  | distance tb fixed hd hi =>
    rw [exec_distanceInstr hd hi, distanceSymbol]
    obtain ⟨-, -, hok⟩ | ⟨-, hok⟩ := copy_cases s.params _ _ _ <;> exact ⟨_, hok⟩
  | dist30 => exact unassignedDistance_total s
  | dist31 => exact unassignedDistance_total s

/-! ### A step from a state of the run invariant -/

/-- The state an element's meaning starts from. -/
theorem RunInv.consume (h : RunInv s) (hctx : s.context = some ctx) (hd : decodeElement ctx s.input s.cur = .ok f) :
    InRun (s.consume f) ∧ PlaceInv (s.consume f) ∧ Place (s.consume f) ctx ∧
      (ctx = .storedBody → (s.consume f).cur.bitcnt = 0) ∧ s.cur.pos < (s.consume f).cur.pos := by
  have hrun := h.inRun (by rw [← context_isSome, hctx]; rfl)
  obtain ⟨-, -, -, -, hinv⟩ := h
  obtain ⟨⟨hcur, hpos⟩, haligned⟩ := decodeElement_forward (hinv.sound (place_of_context hctx)) hrun.cursor hd
  exact ⟨hrun.consume hcur, hinv, place_of_context (s := s.consume f) hctx, haligned, hpos⟩

theorem stepElement_runInv (h : RunInv s) (hstep : stepElement s = .next t) : RunInv t := by
  obtain ⟨-, rfl⟩ | ⟨ctx, hctx, ⟨f, rfl⟩ | ⟨f, hd, heffect⟩⟩ := stepElement_next hstep
  · exact h
  · exact runInv_raiseFault f s
  · obtain ⟨hrun, hinv, hplace, haligned, -⟩ := h.consume hctx hd
    exact heffect.runInv hrun hplace hinv haligned

theorem stepElement_total (h : RunInv s) : ∃ t, stepElement s = .next t := by
  cases hctx : s.context with
  | none => exact ⟨s, stepElement_idle hctx⟩
  | some ctx =>
    cases hd : decodeElement ctx s.input s.cur with
    | error r =>
      have hrun := h.inRun (by rw [← context_isSome, hctx]; rfl)
      obtain ⟨-, -, -, -, hinv⟩ := h
      rw [stepElement_error hctx hd]
      obtain rfl | rfl := decodeElement_error (hinv.sound (place_of_context hctx)) hrun.cursor hd <;> exact ⟨_, rfl⟩
    | ok f =>
      obtain ⟨hrun, hinv, hplace, haligned, -⟩ := h.consume hctx hd
      rw [stepElement_ok hctx hd]
      exact exec_total (decodeElement_elementOf hd) hrun hplace hinv haligned

theorem runInv_startRun (s : State) : RunInv (startRun s) :=
  InRun.runInv ⟨rfl, rfl, ⟨Nat.zero_le _, fun _ => rfl, fun h => absurd rfl h⟩, rfl, rfl,
    fun _ hlow hhigh => absurd (hlow.trans hhigh) (Nat.not_succ_le_zero 0)⟩ nofun trivial

theorem runInv_hardwareReset (s : State) : RunInv (hardwareReset s) :=
  ⟨rfl, fun _ => rfl, nofun, fun h => absurd rfl h, trivial⟩

end Sys2Proof.Machine

namespace Sys2Proof.Claims

open Sys2Proof.Machine

/-- Settles O53: a reset and a start set the invariant up, and every effect of an element keeps it. -/
theorem stepKeepsTheRunInvariant : Obligations.StepKeepsTheRunInvariant := by
  refine fun s t h => ⟨fun hinv => ?_, (step_kept h).1⟩
  obtain ⟨-, hstep⟩ | ⟨-, -, -, hstep⟩ | ⟨-, -, hstep⟩ := step_cases s
  · obtain rfl := Host.Outcome.next.inj (hstep.symm.trans h)
    exact runInv_hardwareReset s
  · obtain rfl := Host.Outcome.next.inj (hstep.symm.trans h)
    exact runInv_startRun s
  · exact stepElement_runInv (s := { s with host.start := false }) hinv (hstep.symm.trans h)

/-- Settles O54: the decoder's model stops are excluded by the tables, those of the meanings by the places. -/
theorem noStepOfARunStops : Obligations.NoStepOfARunStops := by
  intro s hinv
  obtain ⟨-, hstep⟩ | ⟨-, -, -, hstep⟩ | ⟨-, -, hstep⟩ := step_cases s
  · exact ⟨_, hstep⟩
  · exact ⟨_, hstep⟩
  · rw [hstep]
    exact stepElement_total (s := { s with host.start := false }) hinv

/-- No element leads to IDLE. -/
theorem Transition.phase_ne_idle {s t : State} {ctx : Context} (h : Transition s t) (hplace : Place s ctx) :
    t.phase ≠ .idle := by
  intro hidle
  cases hplace <;> simp_all [Transition]

/-- Settles O55: the decoder moves the cursor forward, the meaning not back, and the next state's cursor is one of its
input. -/
theorem everyElementConsumesBits : Obligations.EveryElementConsumesBits := by
  intro s t hinv hbusy hreset h
  rw [step_run hreset (.inr hbusy)] at h
  by_cases hphase : t.phase = .fault
  · exact .inl hphase
  obtain ⟨hnone, -⟩ | ⟨ctx, hctx, ⟨f, rfl⟩ | ⟨f, hd, heffect⟩⟩ := stepElement_next h
  · have hsome : s.context.isSome = true := by rw [context_isSome, hbusy]
    rw [show s.context = none from hnone] at hsome
    cases hsome
  · exact absurd rfl hphase
  · obtain ⟨hrun, hinv, hplace, haligned, hpos⟩ := RunInv.consume (s := { s with host.start := false }) hinv hctx hd
    have hback := heffect.pos_le hrun hphase
    have hidle := (transition_of_effect hplace rfl rfl heffect).phase_ne_idle hplace
    obtain ⟨-, -, -, hcursor, -⟩ := heffect.runInv hrun hplace hinv haligned
    obtain ⟨hcur, -⟩ := hcursor hidle hphase
    have hle := hcur.pos_le
    rw [heffect.kept.input] at hle
    exact .inr ⟨hpos.trans_le hback, hle⟩

end Sys2Proof.Claims
end

section
/-! Bytes after the input an element needs: the decoder and the meanings do the same whatever follows (rules R41, R136,
R323). -/

namespace Sys2Proof.Machine

/-! ### The decoder -/

/-- A reader that answers over an input answers the same when bytes follow it. -/
def Persists {α : Type} (x : List Byte → Except Reject α) : Prop :=
  ∀ inp more a, x inp = .ok a → x (inp ++ more) = .ok a

theorem Persists.const {α : Type} (x : Except Reject α) : Persists fun _ => x := fun _ _ _ h => h

theorem Persists.bind {α β : Type} {x : List Byte → Except Reject α} {g : α → List Byte → Except Reject β}
    (hx : Persists x) (hg : ∀ a, Persists (g a)) : Persists fun inp => x inp >>= fun a => g a inp := by
  intro inp more b h
  obtain ⟨a, ha, hb⟩ := bind_eq_ok.mp h
  exact bind_eq_ok.mpr ⟨a, hx inp more a ha, hg a inp more b hb⟩

theorem Persists.ite {α : Type} {p : Prop} [Decidable p] {x y : List Byte → Except Reject α} (hx : Persists x)
    (hy : Persists y) : Persists fun inp => if p then x inp else y inp := by
  by_cases hp : p <;> simpa [hp]

theorem refill_persists (n fuel val i cnt : Nat) : Persists fun inp => refill inp n fuel val i cnt := by
  induction fuel generalizing val i cnt with
  | zero => exact .const _
  | succ fuel ih =>
    intro inp more a h
    simp only [refill] at h ⊢
    split_ifs at h ⊢
    · cases hb : inp[i]? with
      | none => rw [hb] at h; cases h
      | some b =>
        rw [hb] at h
        rw [List.getElem?_append_left (List.getElem?_eq_some_iff.mp hb).1, hb]
        exact ih _ _ _ inp more a h
    · exact h

theorem bits_persists (n : Fin 17) (c : Cursor) : Persists fun inp => bits inp n c := by
  intro inp more a h
  simp only [bits] at h ⊢
  split at h
  case h_1 => cases h
  case h_2 val i cnt hr =>
    have hr' := refill_persists _ _ _ _ _ inp more _ hr
    simp only at hr'
    rw [hr']
    exact h

theorem readCodeLens_persists (n : Nat) (c : Cursor) : Persists fun inp => readCodeLens inp n c := by
  induction n generalizing c with
  | zero => exact .const _
  | succ n ih => exact .bind (bits_persists 3 c) fun p => .bind (ih p.2) fun _ => .const _

theorem codeBits_persists (n code : Nat) (c : Cursor) : Persists fun inp => codeBits inp n code c := by
  induction n generalizing code c with
  | zero => exact .const _
  | succ n ih => exact .bind (bits_persists 1 c) fun p => ih _ p.2

theorem decodeFrom_persists {w cap : Nat} (t : Table w cap) (fuel len code first index : Nat) (c : Cursor) :
    Persists fun inp => decodeFrom t inp fuel len code first index c := by
  induction fuel generalizing len code first index c with
  | zero => exact .const _
  | succ fuel ih =>
    intro inp more a h
    simp only [decodeFrom] at h ⊢
    cases hb : bits inp 1 c with
    | error r => rw [hb] at h; cases h
    | ok p =>
      rw [hb] at h
      have hb' := bits_persists 1 c inp more p hb
      simp only at hb' h
      rw [hb']
      simp only
      split_ifs at h ⊢
      · exact h
      · exact ih _ _ _ _ _ inp more a h

theorem decodeSym_persists {w cap : Nat} (t : Table w cap) (c : Cursor) : Persists fun inp => decodeSym t inp c :=
  decodeFrom_persists t 15 1 0 0 0 c

theorem decodeCodeSym_persists (t : Table 5 19) (first : Bool) (c : Cursor) :
    Persists fun inp => decodeCodeSym t first inp c :=
  .bind (decodeSym_persists t c) fun d => .ite (.const _) <| .ite
    (.ite (.const _) (.bind (bits_persists 2 d.cur) fun _ => .const _)) <| .ite
      (.bind (bits_persists 3 d.cur) fun _ => .const _) <| .ite (.bind (bits_persists 7 d.cur) fun _ => .const _) (.const _)

theorem decodeSymbol_persists (t : Table 9 288) (c : Cursor) : Persists fun inp => decodeSymbol t inp c :=
  .bind (decodeSym_persists t c) fun d => .ite (.const _) <| .ite (.const _) <| .ite
    (.bind (bits_persists _ d.cur) fun _ => .const _) <| .ite (.const _) <| .ite (.const _) (.const _)

/-- A distance symbol, where no unassigned pattern is looked for. -/
theorem decodeDistance_persists (t : Table 5 30) (c : Cursor) : Persists fun inp => decodeDistance t false inp c :=
  .bind (decodeSym_persists t c) fun d => .ite (.bind (bits_persists _ d.cur) fun _ => .const _) (.const _)

theorem decodeDistance_true (t : Table 5 30) (inp : List Byte) (c : Cursor) :
    decodeDistance t true inp c = (unassignedPattern inp c).elim (decodeDistance t false inp c) .ok := by
  unfold decodeDistance
  cases unassignedPattern inp c <;> simp

variable {inp : List Byte} {c : Cursor} {f : Fetched}

/-- With its five bits there, what follows does not make a pattern of them. -/
theorem unassignedPattern_append (hc : CursorInv inp c) (hfits : c.pos + 5 ≤ 8 * inp.length) (more : List Byte) :
    unassignedPattern (inp ++ more) c = unassignedPattern inp c := by
  obtain ⟨hlt, -⟩ | ⟨-, c', hok, -⟩ := codeBits_cases c.pos 5 0 hc rfl
  · omega
  · have hok' : codeBits (inp ++ more) 5 0 c = _ := codeBits_persists 5 0 c inp more _ hok
    unfold unassignedPattern
    rw [hok', show codeBits inp 5 0 c = _ from hok]

/-- In a fixed block nothing is decoded from fewer than five bits. -/
theorem decodeDistance_fixed_fits (hc : CursorInv inp c) (h : decodeDistance fixedDtab true inp c = .ok f) :
    c.pos + 5 ≤ 8 * inp.length := by
  obtain ⟨c', hc', hpos, -⟩ | ⟨-, hnone⟩ := unassignedPattern_cases hc
  · exact hpos ▸ hc'.pos_le
  · rw [decodeDistance_true, hnone] at h
    obtain ⟨d, hd, -⟩ := bind_eq_ok.mp h
    obtain ⟨l, ⟨v, hcode, hfits, -⟩, -⟩ :=
      Claims.codeword_of_decodeSym Claims.holds_fixedDtab Claims.lengths_fixd.2.2.2 hc hd
    rw [Claims.codewordOf_fixd] at hcode
    split_ifs at hcode
    obtain ⟨rfl, -⟩ := Prod.mk.inj (Option.some.inj hcode)
    exact hfits

/-- What is decoded in a sound context is decoded so whatever follows. -/
theorem decodeElement_append {ctx : Context} (hctx : ctx.Sound) (hc : CursorInv inp c)
    (h : decodeElement ctx inp c = .ok f) (more : List Byte) : decodeElement ctx (inp ++ more) c = .ok f := by
  cases ctx with
  | header =>
    exact Persists.bind (bits_persists 1 c) (fun p => .bind (bits_persists 2 p.2) fun _ => .const _) inp more f h
  | storedBody =>
    exact Persists.bind (bits_persists 16 _) (fun p => .bind (bits_persists 16 p.2) fun _ => .const _) inp more f h
  | counts =>
    exact Persists.bind (bits_persists 5 c) (fun p => .bind (bits_persists 5 p.2) fun p' =>
      .bind (bits_persists 4 p'.2) fun _ => .const _) inp more f h
  | codeLens n => exact Persists.bind (readCodeLens_persists n c) (fun _ => .const _) inp more f h
  | codeSyms t first => exact decodeCodeSym_persists t first c inp more f h
  | symbol t => exact decodeSymbol_persists t c inp more f h
  | distance t fixed =>
    cases fixed with
    | false => exact decodeDistance_persists t c inp more f h
    | true =>
      obtain rfl := hctx.2 rfl
      have hfits := decodeDistance_fixed_fits hc h
      rw [decodeElement, decodeDistance_true] at h ⊢
      rw [unassignedPattern_append hc hfits]
      cases hp : unassignedPattern inp c with
      | some g => rwa [hp] at h
      | none =>
        rw [hp] at h
        exact decodeDistance_persists fixedDtab c inp more f h

/-! ### The meanings -/

/-- The state with bytes after its input. -/
def State.append (s : State) (more : List Byte) : State := { s with input := s.input ++ more }

/-- A change of the next state, where there is one. -/
def onNext (g : State → State) : Host.Outcome State Fault Refusal → Host.Outcome State Fault Refusal
  | .next s => .next (g s)
  | .fault r => .fault r
  | .refused r => .refused r

variable {s t : State} {ctx : Context}

theorem copyLoop_append (dist n : Nat) (s : State) (more : List Byte) :
    copyLoop dist n (s.append more) = (copyLoop dist n s).append more := by
  induction n generalizing s with
  | zero => rfl
  | succ n ih => exact ih (output s (s.winRead (s.copyAddr dist)))

theorem appendLengths_append (n : Nat) (v : BitVec 4) (s : State) (more : List Byte) :
    appendLengths n v (s.append more) = onNext (·.append more) (appendLengths n v s) := by
  simp only [appendLengths, buildTables, apply_ite (onNext _)]
  rfl

theorem repeatLength_append (rep : Nat) (v : BitVec 4) (s : State) (more : List Byte) :
    repeatLength rep v (s.append more) = onNext (·.append more) (repeatLength rep v s) := by
  simp only [repeatLength, apply_ite (onNext _), ← appendLengths_append]
  rfl

theorem execDynHeader_append (l d : BitVec 5) (n : BitVec 4) (s : State) (more : List Byte) :
    execDynHeader l d n (s.append more) = onNext (·.append more) (execDynHeader l d n s) := by
  simp only [execDynHeader, apply_ite (onNext _)]
  rfl

theorem execCllens_append (ls : List (BitVec 3)) (s : State) (more : List Byte) :
    execCllens ls (s.append more) = onNext (·.append more) (execCllens ls s) := by
  simp only [execCllens, apply_ite (onNext _)]
  rfl

theorem copy_append (p : Params) (n dist : Nat) (s : State) (more : List Byte) :
    copy p n dist (s.append more) = onNext (·.append more) (copy p n dist s) := by
  rw [copy, copy, apply_ite (onNext _), onNext, onNext, copyLoop_append]
  rfl

theorem execCl16_append (r : BitVec 2) (s : State) (more : List Byte) :
    execCl16 r (s.append more) = onNext (·.append more) (execCl16 r s) := by
  by_cases hz : s.blk.index = 0
  · rw [execCl16, execCl16, if_pos hz, if_pos (show (s.append more).blk.index = 0 from hz)]
    rfl
  · rw [execCl16, execCl16, if_neg hz, if_neg (show (s.append more).blk.index ≠ 0 from hz)]
    change (match s.blk.lengths.toList[s.blk.index.toNat - 1]? with | none => _ | some prev => _) = _
    cases s.blk.lengths.toList[s.blk.index.toNat - 1]? with
    | none => rfl
    | some v => exact repeatLength_append _ v { s with blk.sym := 16 } more

theorem distanceSymbol_append (d e : Nat) (s : State) (more : List Byte) :
    distanceSymbol (s.append more) d e = onNext (·.append more) (distanceSymbol s d e) :=
  copy_append s.params s.blk.length.toNat (distanceOf d e)
    { s with
      blk.dsym := BitVec.ofNat 5 d
      blk.dist := BitVec.ofNat 16 (distanceOf d e)
      sub := .symbol } more

/-- The stored data, where they end within the input. -/
theorem storedLoop_append {n : Nat} (h : storedLoop n s = .next t) (hphase : t.phase ≠ .fault) (more : List Byte) :
    storedLoop n (s.append more) = .next (t.append more) := by
  induction n generalizing s with
  | zero =>
    obtain rfl := Host.Outcome.next.inj h
    rfl
  | succ n ih =>
    by_cases hz : s.cur.bitcnt = 0
    · rw [storedLoop, if_neg (not_not_intro hz), nextbyte] at h
      rw [storedLoop, if_neg (not_not_intro (show (s.append more).cur.bitcnt = 0 from hz)), nextbyte]
      cases hb : s.input[s.cur.incnt]? with
      | none =>
        rw [hb] at h
        obtain rfl := Host.Outcome.next.inj h
        exact absurd rfl hphase
      | some b =>
        rw [hb] at h
        have hb' : (s.append more).input[(s.append more).cur.incnt]? = some b :=
          (List.getElem?_append_left (List.getElem?_eq_some_iff.mp hb).1).trans hb
        rw [hb']
        exact ih h
    · rw [storedLoop, if_pos hz] at h
      cases h

theorem storedBody_append {p : Params} {l n : BitVec 16} (h : storedBody p l n s = .next t) (hphase : t.phase ≠ .fault)
    (more : List Byte) : storedBody p l n (s.append more) = .next (t.append more) := by
  obtain ⟨-, -, hfault⟩ | ⟨hcheck, hbody⟩ := storedBody_cases p l n s
  · obtain rfl := Host.Outcome.next.inj (h.symm.trans hfault)
    exact absurd rfl hphase
  · obtain ⟨hp, hne, -⟩ | ⟨-, hbody'⟩ := storedBody_cases p l n (s.append more)
    · exact absurd (hcheck hp) hne
    · exact hbody'.trans (storedLoop_append (hbody.symm.trans h) hphase more)

theorem unassignedDistance_fault (h : unassignedDistance s = .next t) : t.phase = .fault := by
  unfold unassignedDistance at h
  split at h <;> obtain rfl := Host.Outcome.next.inj h <;> rfl

/-- An element that does not fault does the same whatever follows the input. -/
theorem exec_append {i : Instr} (hi : ElementOf ctx i) (h : exec i s = .next t) (hphase : t.phase ≠ .fault)
    (more : List Byte) : exec i (s.append more) = .next (t.append more) := by
  have of_onNext {o : Host.Outcome State Fault Refusal} (ho : o = onNext (·.append more) (exec i s)) :
      o = .next (t.append more) := by rw [ho, h]; rfl
  cases hi with
  | header x y =>
    obtain ⟨f, hf⟩ | ⟨f, hf⟩ | ⟨f, hf⟩ | ⟨f, hf⟩ := headerInstr_cases x y <;> rw [hf] at h ⊢ <;>
      obtain rfl := Host.Outcome.next.inj h <;> rfl
  | stored l n => exact storedBody_append h hphase more
  | counts l d n => exact of_onNext (execDynHeader_append l d n s more)
  | codeLens ls => exact of_onNext (execCllens_append ls s more)
  | cl0to15 _ _ v => exact of_onNext (appendLengths_append 1 v { s with blk.sym := BitVec.ofNat 9 v.toNat } more)
  | cl16 _ _ r => exact of_onNext (execCl16_append r s more)
  | cl17 _ _ r => exact of_onNext (repeatLength_append _ 0 { s with blk.sym := 17 } more)
  | cl18 _ _ r => exact of_onNext (repeatLength_append _ 0 { s with blk.sym := 18 } more)
  | literal tb hv =>
    rw [exec_literalInstr] at h ⊢
    obtain rfl := Host.Outcome.next.inj h
    rfl
  | eob tb => exact of_onNext rfl
  | length tb hk hi =>
    rw [exec_lengthInstr hk hi] at h ⊢
    obtain rfl := Host.Outcome.next.inj h
    rfl
  | ll286 tb => exact of_onNext rfl
  | ll287 tb => exact of_onNext rfl
  | distance tb fixed hd hi =>
    refine of_onNext ?_
    rw [exec_distanceInstr hd hi, exec_distanceInstr hd hi]
    exact distanceSymbol_append _ _ s more
  | dist30 => exact absurd (unassignedDistance_fault h) hphase
  | dist31 => exact absurd (unassignedDistance_fault h) hphase

theorem stepElement_append (hinv : RunInv s) (h : stepElement s = .next t) (hphase : t.phase ≠ .fault)
    (more : List Byte) : stepElement (s.append more) = .next (t.append more) := by
  obtain ⟨hnone, rfl⟩ | ⟨ctx, hctx, ⟨f, rfl⟩ | ⟨f, hd, -⟩⟩ := stepElement_next h
  · exact stepElement_idle (s := t.append more) hnone
  · exact absurd rfl hphase
  · have hrun := hinv.inRun (by rw [← context_isSome, hctx]; rfl)
    obtain ⟨-, -, -, -, hplace⟩ := hinv
    have hd' := decodeElement_append (hplace.sound (place_of_context hctx)) hrun.cursor hd more
    rw [stepElement_ok (s := s.append more) hctx hd']
    exact exec_append (s := s.consume f) (decodeElement_elementOf hd) ((stepElement_ok hctx hd).symm.trans h) hphase more

end Sys2Proof.Machine

namespace Sys2Proof.Claims

open Sys2Proof.Machine

/-- Settles O56: what a step decodes and what its meaning reads is there already. -/
theorem nothingBeyondIsRead : Obligations.NothingBeyondIsRead := by
  intro s t more hinv hreset hrun h hphase
  have h' := stepElement_append (s := { s with host.start := false }) hinv ((step_run hreset hrun).symm.trans h) hphase more
  exact (step_run (s := s.append more) hreset hrun).trans h'

end Sys2Proof.Claims
end

section
/-! Copies in terms of the output, and the stored block (rules R18, R124, R125, R141 to R145). -/

namespace Sys2Proof.Machine

/-! ### Copies -/

/-- The cell a copy within the bytes produced reads is a written one, and holds the byte produced `dist` before. -/
theorem OutputInv.read {s : State} {dist : Nat} (h : OutputInv s) (hpos : 1 ≤ dist) (hwindow : dist ≤ 32768)
    (hout : dist ≤ s.outcnt) :
    memLookup s.window (s.copyAddr dist) = some (s.winRead (s.copyAddr dist)) ∧
      s.out[s.outcnt - dist]? = some (s.winRead (s.copyAddr dist)) := by
  obtain ⟨hlen, -, hcells⟩ := h
  obtain ⟨b, hb⟩ : ∃ b, s.out[s.outcnt - dist]? = some b := ⟨_, List.getElem?_eq_getElem (by omega)⟩
  have hcell : memLookup s.window (s.copyAddr dist) = some b := (hcells dist hpos hout hwindow).trans hb
  have hread : s.winRead (s.copyAddr dist) = b := by rw [State.winRead, hcell, Option.getD_some]
  rw [hread]
  exact ⟨hcell, hb⟩

theorem copyLoop_out_of_lt (dist n : Nat) {s : State} (h : s.out.length = s.outcnt) {i : Nat} (hi : i < s.outcnt) :
    (copyLoop dist n s).out[i]? = s.out[i]? := by
  obtain ⟨bs, -, hout⟩ := copyLoop_out dist n s
  rw [hout, List.getElem?_append_left (h ▸ hi)]

/-- Every byte a copy outputs is the one `dist` before it, those of the copy itself included (rule R125). -/
theorem copyLoop_repeats {dist : Nat} (hpos : 1 ≤ dist) (hwindow : dist ≤ 32768) (n : Nat) {s : State}
    (h : OutputInv s) (hout : dist ≤ s.outcnt) {j : Nat} (hlow : s.outcnt ≤ j) (hhigh : j < s.outcnt + n) :
    (copyLoop dist n s).out[j]? = (copyLoop dist n s).out[j - dist]? := by
  induction n generalizing s with
  | zero => omega
  | succ n ih =>
    have hnext := h.output (s.winRead (s.copyAddr dist))
    obtain rfl | hlt := Nat.eq_or_lt_of_le hlow
    · have hlen : s.out.length = s.outcnt := h.1
      have hnew : (output s (s.winRead (s.copyAddr dist))).out[s.outcnt]? = some (s.winRead (s.copyAddr dist)) := by
        rw [output_out, ← hlen, List.getElem?_concat_length]
      have hold : (output s (s.winRead (s.copyAddr dist))).out[s.outcnt - dist]? = some (s.winRead (s.copyAddr dist)) := by
        rw [output_out, List.getElem?_append_left (by omega), (h.read hpos hwindow hout).2]
      rw [copyLoop, copyLoop_out_of_lt dist n hnext.1 (Nat.lt_succ_self _),
        copyLoop_out_of_lt dist n hnext.1 (Nat.lt_succ_of_le (Nat.sub_le _ _)), hnew, hold]
    · exact ih hnext (Nat.le_succ_of_le hout) hlt (by rw [output_outcnt]; omega)

/-! ### The stored body -/

theorem decodeStored_short {inp : List Byte} {c : Cursor} (hc : CursorInv inp c) (h : inp.length < c.incnt + 4) :
    decodeStored inp c = .error .truncated := by
  cases hd : decodeStored inp c with
  | error r => rw [decodeStored_error hc hd]
  | ok f =>
    simp only [decodeStored, bind_eq_ok, return_eq_ok] at hd
    obtain ⟨⟨x, c₁⟩, hlen, ⟨y, c₂⟩, hnlen, -⟩ := hd
    obtain ⟨hbase, hbasePos⟩ := hc.align
    obtain ⟨hc₁, hpos₁ : c₁.pos = (align c).pos + 16, -⟩ := hbase.bits hlen
    obtain ⟨hc₂, hpos₂ : c₂.pos = c₁.pos + 16, -⟩ := hc₁.bits hnlen
    have := hc₂.pos_le
    omega

/-- The data loop ends the block or the run, and either forgets the NLEN register. -/
theorem storedLoop_snlen (n : Nat) (s : State) (x : BitVec 16) :
    storedLoop n { s with blk.snlen := x } = storedLoop n s := by
  induction n generalizing s with
  | zero => rfl
  | succ n ih =>
    rw [storedLoop, storedLoop]
    cases nextbyte s.input s.cur with
    | error r => rfl
    | ok p => exact if_congr Iff.rfl rfl (ih (output { s with cur := p.2, blk.scnt := s.blk.scnt - 1 } p.1))

/-- A stored body that passes its complement check, by the data it has. -/
theorem exec_storedBody_cases {len nlen : BitVec 16} {s : State}
    (hcheck : s.params.checkNlen = true → len ^^^ nlen = 0xFFFF) (hz : s.cur.bitcnt = 0)
    (hin : s.cur.incnt ≤ s.input.length) :
    (s.cur.incnt + len.toNat ≤ s.input.length ∧ exec (.storedBody len nlen) s =
        .next (endBlock (storedMoved len.toNat { s with blk.slen := len, blk.snlen := nlen, blk.scnt := len }))) ∨
      (s.input.length < s.cur.incnt + len.toNat ∧ exec (.storedBody len nlen) s = .next (raiseFault .truncated s)) := by
  obtain ⟨hp, hne, -⟩ | ⟨-, hbody⟩ := storedBody_cases s.params len nlen s
  · exact absurd (hcheck hp) hne
  · obtain ⟨hfits, hmoved⟩ | ⟨hshort, hfault⟩ := storedLoop_cases len.toNat
      (s := { s with blk.slen := len, blk.snlen := nlen, blk.scnt := len }) hz hin
    · exact .inl ⟨hfits, hbody.trans hmoved⟩
    · exact .inr ⟨hshort, hbody.trans hfault⟩

end Sys2Proof.Machine

namespace Sys2Proof.Claims

open Sys2Proof.Machine

/-- Settles O16: the cell's part of the output invariant. -/
theorem noUnwrittenCellIsRead : Obligations.NoUnwrittenCellIsRead :=
  fun _ _ h hpos hwindow hout => h.read hpos hwindow hout

/-- Settles O15: by the two ways a copy goes. -/
theorem distanceIsCheckedBeforeCopying : Obligations.DistanceIsCheckedBeforeCopying := by
  intro p n dist s
  obtain ⟨hcheck, hfar, hfault⟩ | ⟨hnear, hok⟩ := copy_cases p n dist s
  · exact ⟨fun _ _ => hfault, fun _ hle => absurd hfar (Nat.not_lt.mpr hle), fun hoff => by simp [hcheck] at hoff⟩
  · exact ⟨fun hcheck hfar => absurd (hnear hcheck) (Nat.not_le.mpr hfar), fun _ _ => hok, fun _ => hok⟩

/-- Settles O14: each byte is read from a written cell, and every byte output keeps the invariant. -/
theorem copyRepeatsTheOutput : Obligations.CopyRepeatsTheOutput := by
  intro p s n dist h hpos hwindow hout
  obtain ⟨-, hfar, -⟩ | ⟨-, hok⟩ := copy_cases p n dist s
  · omega
  · obtain ⟨bs, -, happend⟩ := copyLoop_out dist n s
    exact ⟨_, hok, copyLoop_outcnt dist n s, copyLoop_outputInv dist n h, by rw [happend, List.take_left' h.1],
      fun j => copyLoop_repeats hpos hwindow n h hout⟩

/-- Settles O26: the data moved one by one, then the end of the block. -/
theorem storedBodyCopiesItsBytes : Obligations.StoredBodyCopiesItsBytes := by
  intro len nlen s hcheck hz hdata
  obtain ⟨-, hexec⟩ | ⟨hshort, -⟩ := exec_storedBody_cases hcheck hz (Nat.le_of_add_right_le hdata)
  · obtain ⟨hout, houtcnt, hcur, hinv, -, -, hframe⟩ := storedMoved_frame len.toNat
      (s := { s with blk.slen := len, blk.snlen := nlen, blk.scnt := len }) hdata
    refine ⟨_, hexec, hout, houtcnt, hcur, rfl, by rw [endBlock_faultCode, hframe], ?_, ?_, fun h => ?_⟩
    · intro hfinal
      rw [endBlock_phase, storedMoved_bfinal, if_pos hfinal]
    · intro hmore
      rw [endBlock_phase, storedMoved_bfinal, if_neg (by rw [hmore]; decide)]
    · exact (hinv (h.congr rfl rfl rfl rfl)).congr rfl rfl rfl rfl
  · omega

/-- Settles O27: the data end before LEN bytes are moved. -/
theorem storedBodyPastTheInputIsTruncated : Obligations.StoredBodyPastTheInputIsTruncated := by
  intro len nlen s hcheck hz hin hshort
  obtain ⟨hfits, -⟩ | ⟨-, hfault⟩ := exec_storedBody_cases hcheck hz hin
  · omega
  · exact hfault

/-- Settles O28: by the two ways the check goes; both sides are the same data loop where it passes. -/
theorem complementIsCheckedOnlyIfEnabled : Obligations.ComplementIsCheckedOnlyIfEnabled := by
  have hmismatch (p : Params) (len nlen : BitVec 16) (s : State) (hp : p.checkNlen = true)
      (hne : len ^^^ nlen ≠ 0xFFFF) : storedBody p len nlen s = .next (raiseFault .storedLengthMismatch s) := by
    obtain ⟨-, -, hfault⟩ | ⟨hok, -⟩ := storedBody_cases p len nlen s
    · exact hfault
    · exact absurd (hok hp) hne
  refine ⟨hmismatch, fun p len nlen s _ heq => ?_, fun _ _ _ => rfl, fun len nlen s => hmismatch s.params len nlen s,
    fun len nlen nlen' s hoff => ?_⟩
  · obtain ⟨-, hne, -⟩ | ⟨-, hon⟩ := storedBody_cases p len nlen s
    · exact absurd heq hne
    · obtain ⟨hoff, -, -⟩ | ⟨-, hoff⟩ := storedBody_cases { p with checkNlen := false } len nlen s
      · cases hoff
      · exact hon.trans hoff.symm
  · have hloop (x : BitVec 16) : exec (.storedBody len x) s =
        storedLoop len.toNat { s with blk.slen := len, blk.scnt := len } := by
      obtain ⟨hon, -, -⟩ | ⟨-, hbody⟩ := storedBody_cases s.params len x s
      · simp [hoff] at hon
      · exact hbody.trans (storedLoop_snlen len.toNat { s with blk.slen := len, blk.scnt := len } x)
    rw [hloop nlen, hloop nlen']

/-- Settles O29: four bytes after the boundary are two words; without them one of the two reads ends. -/
theorem storedLengthsAreLittleEndian : Obligations.StoredLengthsAreLittleEndian :=
  fun _ _ hc => ⟨decodeStored_of_four_bytes hc, decodeStored_short hc⟩

end Sys2Proof.Claims
end

section
/-! The stream driver and the status interface, by the law of a step (rules R26, R28, R130 to R138, R270 to R304). -/

namespace Sys2Proof.Claims

open Sys2Proof.Machine

/-! ### Headers, the end of a block and faults -/

/-- Settles O17: each header's meaning as it stands; a fault forgets the latches. -/
theorem headersEnterTheirPhase : Obligations.HeadersEnterTheirPhase :=
  fun _ _ => ⟨rfl, rfl, rfl, rfl⟩

/-- Settles O19: the fields of the end of a block. -/
theorem endOfBlockCarriesTheRunOver : Obligations.EndOfBlockCarriesTheRunOver := by
  intro s
  refine ⟨endBlock s, rfl, fun hfinal => ?_, fun hmore => ?_, rfl, rfl⟩
  · rw [endBlock_phase, if_pos hfinal]
  · have hne : s.bfinal ≠ 1 := by rw [hmore]; decide
    exact ⟨if_neg hne, if_neg hne, if_neg hne⟩

/-- Settles O24: a fault's fields and the table of codes. -/
theorem faultEntrySetsCodeAndPhase : Obligations.FaultEntrySetsCodeAndPhase :=
  ⟨fun _ _ => ⟨rfl, rfl, rfl⟩, rfl, rfl, rfl, rfl, rfl, rfl, rfl, rfl, rfl, rfl⟩

/-- Settles O25: the status is a function of the seven phases. -/
theorem statusShowsThePhase : Obligations.StatusShowsThePhase := by
  intro s
  unfold State.statusPhase State.busyFlag State.doneFlag State.faultFlag
  cases s.phase <;> decide

/-! ### Steps -/

/-- Settles O21: a busy phase drops the pulse before it looks for an element, and an idle one has no element. -/
theorem startIsIgnoredWhileBusyAndNeededOtherwise : Obligations.StartIsIgnoredWhileBusyAndNeededOtherwise := by
  intro s hreset
  refine ⟨fun hbusy => ?_, fun hidle hstart => ?_⟩
  · rw [step_run (s := { s with host.start := true }) hreset (.inr hbusy),
      step_run (s := { s with host.start := false }) hreset (.inl rfl)]
  · have hdropped : ({ s with host.start := false } : State) = s := by rw [← hstart]
    have hnone : s.context = none := by rw [← Option.not_isSome_iff_eq_none, context_isSome, hidle]; exact Bool.false_ne_true
    rw [step_run hreset (.inl hstart), hdropped, stepElement_idle hnone]

/-- Settles O22: the fields of a started run, whose window lists no cell. -/
theorem startBeginsAFreshRun : Obligations.StartBeginsAFreshRun :=
  fun s hreset hstart hidle => ⟨startRun s, step_start hreset hstart hidle, fun _ => rfl, rfl⟩

/-- Settles O23: the fields of a reset machine. -/
theorem resetLeadsToIdle : Obligations.ResetLeadsToIdle :=
  ⟨fun s hreset => ⟨hardwareReset s, step_reset hreset, rfl, rfl, rfl, rfl⟩, rfl, rfl, rfl, rfl, rfl, rfl, rfl⟩

/-- Settles O51: an element decoded, or the reject's fault; decoding does not look at the pulse. -/
theorem stepRunsTheDecodedElement : Obligations.StepRunsTheDecodedElement := by
  intro s ctx hreset hctx
  have hbusy : s.busyFlag = true := by rw [← context_isSome, hctx]; rfl
  have hctx' : State.context { s with host.start := false } = some ctx := hctx
  rw [step_run hreset (.inr hbusy)]
  exact ⟨fun f hd => stepElement_ok hctx' hd, fun hd => stepElement_error hctx' hd, fun hd => stepElement_error hctx' hd,
    fun hd => stepElement_error hctx' hd⟩

/-- Settles O52: before the first run the invariant asks for the window and the fault code only. -/
theorem runInvariantHoldsAtReset : Obligations.RunInvariantHoldsAtReset :=
  ⟨⟨rfl, fun _ => rfl, nofun, fun hne => absurd rfl hne, trivial⟩, rfl⟩

/-! ### Words and literals -/

/-- Settles O50: the decoder run on each word. -/
theorem sampleWordsDecode : Obligations.SampleWordsDecode := by
  unfold Obligations.SampleWordsDecode
  decide +kernel

/-- Settles O37: both rows are the literal's meaning. -/
theorem literalsAreOutput : Obligations.LiteralsAreOutput :=
  fun _ _ => ⟨rfl, rfl⟩

end Sys2Proof.Claims
end

section
/-! The dynamic block's header elements (rules R161 to R174). -/

namespace Sys2Proof.Machine

/-! ### Placing the code-length code lengths -/

/-- Values stored one after the other, each at its own address. -/
def storeAt {α : Type} {n : Nat} (ks : List Nat) (xs : List α) (v : Vector α n) : Vector α n :=
  (ks.zip xs).foldl (fun v p => v.setIfInBounds p.1 p.2) v

theorem placeCodeLens_eq (ls : List (BitVec 3)) : placeCodeLens ls = storeAt order ls (Vector.replicate 19 0) := rfl

theorem storeAt_other {α : Type} {n a : Nat} {ks : List Nat} (h : a ∉ ks) (xs : List α) (v : Vector α n) :
    (storeAt ks xs v)[a]? = v[a]? := by
  induction ks generalizing xs v with
  | nil => rfl
  | cons k ks ih =>
    cases xs with
    | nil => rfl
    | cons x xs =>
      obtain ⟨hne, hks⟩ := not_or.mp (mt List.mem_cons.mpr h)
      exact (ih hks xs (v.setIfInBounds k x)).trans (by rw [Vector.getElem?_setIfInBounds, if_neg (Ne.symm hne)])

/-- At distinct addresses the `i`-th holds the `i`-th value, if there is one. -/
theorem storeAt_getElem? {α : Type} {n : Nat} {ks : List Nat} (hnodup : ks.Nodup) (hlt : ∀ k ∈ ks, k < n) (xs : List α)
    (v : Vector α n) {i : Nat} (hi : i < ks.length) : (storeAt ks xs v)[ks[i]]? = xs[i]?.or v[ks[i]]? := by
  induction ks generalizing xs v i with
  | nil => simp at hi
  | cons k ks ih =>
    obtain ⟨hk, hks⟩ := List.nodup_cons.mp hnodup
    cases xs with
    | nil => simp [storeAt]
    | cons x xs =>
      cases i with
      | zero =>
        refine (storeAt_other hk xs (v.setIfInBounds k x)).trans ?_
        rw [Vector.getElem?_setIfInBounds, if_pos rfl, if_pos (hlt k List.mem_cons_self)]
        rfl
      | succ i =>
        have hi' : i < ks.length := Nat.lt_of_succ_lt_succ hi
        refine (ih hks (fun k' h => hlt k' (List.mem_cons_of_mem k h)) xs (v.setIfInBounds k x) hi').trans ?_
        have hne : k ≠ ks[i] := fun h => hk (h ▸ List.getElem_mem hi')
        rw [Vector.getElem?_setIfInBounds, if_neg hne]
        rfl

theorem order_nodup : order.Nodup := by decide

theorem order_lt : ∀ k ∈ order, k < 19 := by decide

/-! ### Appending code lengths -/

variable {s : State} {n rep : Nat} {v : BitVec 4}

theorem CountsInv.lensWanted_le (h : CountsInv s.blk) : s.lensWanted ≤ 316 := by
  obtain ⟨-, hnlen, -, hndist⟩ := h
  unfold State.lensWanted
  omega

theorem appendLengths_more (hwanted : s.lensWanted ≤ 316) (h : s.blk.index.toNat + n < s.lensWanted) :
    appendLengths n v s = .next (appended n v s) := by
  obtain ⟨-, hok⟩ | ⟨hlast, -⟩ | ⟨hlast, -⟩ := appendLengths_cases n v (s := s) (by omega)
  · exact hok
  · omega
  · omega

theorem repeatLength_within (h : s.blk.index.toNat + rep ≤ s.lensWanted) :
    repeatLength rep v s = appendLengths rep v { s with blk.rep := BitVec.ofNat 8 rep, blk.rlen := v } := by
  obtain ⟨hover, -⟩ | ⟨-, hok⟩ := repeatLength_cases rep v s
  · omega
  · exact hok

theorem repeatLength_overrun (h : s.lensWanted < s.blk.index.toNat + rep) :
    repeatLength rep v s = .next (raiseFault .repeatOverrun s) := by
  obtain ⟨-, hfault⟩ | ⟨hle, -⟩ := repeatLength_cases rep v s
  · exact hfault
  · omega

theorem appended_index (h : s.blk.index.toNat + n ≤ 316) : (appended n v s).blk.index.toNat = s.blk.index.toNat + n :=
  Nat.mod_eq_of_lt (by omega)

/-- The state in which a code-length element has set the three registers it keeps for itself. -/
def State.noted (s : State) (sym : BitVec 9) (rep : BitVec 8) (rlen : BitVec 4) : State :=
  { s with blk.sym := sym, blk.rep := rep, blk.rlen := rlen }

/-- What the lengths appended last are built of: the first `nlen` and the next `ndist` of all. -/
theorem appended_lensSlice (hwanted : s.lensWanted ≤ 316) (h : s.blk.index.toNat + n = s.lensWanted)
    {all : List Nat}
    (hall : all = (s.blk.lengths.toList.take s.blk.index.toNat).map (·.toNat) ++ List.replicate n v.toNat) :
    (appended n v s).lensSlice 0 s.blk.nlen.toNat = all.take s.blk.nlen.toNat ∧
      (appended n v s).lensSlice s.blk.nlen.toNat s.blk.ndist.toNat = all.drop s.blk.nlen.toNat := by
  have hlen : (s.blk.lengths.toList.take s.blk.index.toNat ++ List.replicate n v).length =
      s.blk.nlen.toNat + s.blk.ndist.toNat := by
    rw [List.length_append, List.length_take, Vector.length_toList, List.length_replicate]
    unfold State.lensWanted at h hwanted
    omega
  have hmap : all = (s.blk.lengths.toList.take s.blk.index.toNat ++ List.replicate n v).map (·.toNat) := by
    rw [hall, List.map_append, List.map_replicate]
  have hstore : (appended n v s).blk.lengths.toList = _ := overwrite_toList _ s.blk.lengths (hlen.trans_le hwanted)
  have hdrop : (List.drop s.blk.nlen.toNat (s.blk.lengths.toList.take s.blk.index.toNat ++ List.replicate n v)).length =
      s.blk.ndist.toNat := by rw [List.length_drop]; omega
  rw [State.lensSlice, State.lensSlice, hstore, hmap, ← List.map_take, ← List.map_drop, List.drop_zero,
    List.take_append_of_le_length (by omega), List.drop_append_of_le_length (by omega), List.take_left' hdrop]
  exact ⟨rfl, rfl⟩

/-- The last lengths wanted are appended and the tables are built. -/
theorem appendLengths_last (hwanted : s.lensWanted ≤ 316) (h : s.blk.index.toNat + n = s.lensWanted) {all : List Nat}
    (hall : all = (s.blk.lengths.toList.take s.blk.index.toNat).map (·.toNat) ++ List.replicate n v.toNat) :
    appendLengths n v s =
      buildTables (appended n v s) (all.take s.blk.nlen.toNat) (all.drop s.blk.nlen.toNat) := by
  obtain ⟨hll, hd⟩ := appended_lensSlice hwanted h hall
  rw [appendLengths, if_neg (by omega), if_neg (by omega), ← hll, ← hd]
  rfl

end Sys2Proof.Machine

namespace Sys2Proof.Claims

open Sys2Proof.Machine

/-- Settles O30: by the two ways the count check goes. -/
theorem dynamicHeaderSetsTheCounts : Obligations.DynamicHeaderSetsTheCounts := by
  intro l d n s
  obtain ⟨hbad, hfault⟩ | ⟨⟨hl, hd⟩, hok⟩ := execDynHeader_cases l d n s
  · exact ⟨fun hl hd => by omega, fun _ => hfault⟩
  · obtain ⟨hnlen, hndist, hncode⟩ := counts_toNat (l := l) n hd
    refine ⟨fun _ _ => ⟨_, hok, hnlen, hndist, hncode, rfl, ⟨?_, ?_, ?_, ?_⟩, rfl⟩, fun hbad => by omega⟩ <;>
      simp only [hnlen, hndist] <;> omega

/-- Settles O31: the nineteen slots of `ORDER` are distinct. -/
theorem codeLengthsGoToTheirSlots : Obligations.CodeLengthsGoToTheirSlots := by
  intro ls i hls hi
  have hslot : order.getD i 0 = order[i] := List.getD_eq_getElem order 0 hi
  change (placeCodeLens ls).toList[order.getD i 0]? = _
  rw [hslot, Vector.getElem?_toList, placeCodeLens_eq, storeAt_getElem? order_nodup order_lt ls _ hi,
    Vector.getElem?_replicate, if_pos (order_lt _ (List.getElem_mem hi))]
  split
  case isTrue hsent => simp [hsent]
  case isFalse hnot => simp [Nat.le_of_not_lt hnot]

/-- Settles O32: by the sign of the builder's result. -/
theorem codeLengthTableIsBuilt : Obligations.CodeLengthTableIsBuilt := by
  intro ls s b
  exact ⟨fun hok => if_neg (by rw [overSubscribed_iff]; exact Int.not_lt.mpr hok),
    fun hneg => if_pos ((overSubscribed_iff _).mpr hneg)⟩

/-- Settles O33: one length appended, and more are wanted. -/
theorem codeLengthIsAppended : Obligations.CodeLengthIsAppended := by
  intro v s hcounts hmore
  have hle := hcounts.lensWanted_le
  refine ⟨_, appendLengths_more (s := { s with blk.sym := BitVec.ofNat 9 v.toNat }) hle hmore,
    appended_index (by exact (hmore.le.trans hle)), fun k hk => ?_, rfl⟩
  refine (setLengths_getElem? s.blk.lengths v (hmore.le.trans hle) hk).trans (if_congr ?_ rfl rfl)
  omega

/-- A repeat that does not reach the last length wanted. -/
theorem repeated_of_exec {i : Instr} {s : State} {sym rep : Nat} {v : BitVec 4} (hcounts : CountsInv s.blk)
    (hmore : s.blk.index.toNat + rep < s.lensWanted)
    (hexec : exec i s = repeatLength rep v { s with blk.sym := BitVec.ofNat 9 sym }) : Repeated i s sym rep v := by
  have hle := hcounts.lensWanted_le
  have happend : appendLengths rep v (s.noted (BitVec.ofNat 9 sym) (BitVec.ofNat 8 rep) v) =
      .next (appended rep v (s.noted (BitVec.ofNat 9 sym) (BitVec.ofNat 8 rep) v)) := appendLengths_more hle hmore
  exact ⟨_, (hexec.trans (repeatLength_within hmore.le)).trans happend,
    appended_index (s := s.noted (BitVec.ofNat 9 sym) (BitVec.ofNat 8 rep) v) (hmore.le.trans hle),
    fun k hk => setLengths_getElem? s.blk.lengths v (hmore.le.trans hle) hk, rfl⟩

/-- Settles O34: symbol 16 finds the length before it; 17 and 18 repeat 0. -/
theorem repeatsAppendTheirLength : Obligations.RepeatsAppendTheirLength := by
  intro s hcounts
  have hle := hcounts.lensWanted_le
  refine ⟨fun r hmore hindex => ?_, fun r hmore => repeated_of_exec hcounts hmore rfl,
    fun r hmore => repeated_of_exec hcounts hmore rfl⟩
  obtain ⟨hz, -⟩ | ⟨-, v, hv, hexec⟩ := execCl16_cases r s (by omega)
  · exact absurd hz hindex
  · exact ⟨v, hv, repeated_of_exec hcounts hmore hexec⟩

/-- Settles O35: the first check of symbol 16, and the overrun check of the three. -/
theorem illegalRepeatsFault : Obligations.IllegalRepeatsFault := by
  intro s
  refine ⟨fun r hz => ?_, fun r hindex hle hover => ?_, fun r hover => repeatLength_overrun hover,
    fun r hover => repeatLength_overrun hover⟩
  · exact if_pos hz
  · obtain ⟨hz, -⟩ | ⟨-, v, -, hexec⟩ := execCl16_cases r s hle
    · exact absurd hz hindex
    · exact hexec.trans (repeatLength_overrun hover)

/-- The lengths appended last, whatever the element has set in its own registers. -/
theorem fillsTheLast_of_append {i : Instr} {s : State} {n : Nat} {v rlen : BitVec 4} {sym : BitVec 9} {rep : BitVec 8}
    (hcounts : CountsInv s.blk) (hlast : s.blk.index.toNat + n = s.lensWanted)
    (hexec : exec i s = appendLengths n v (s.noted sym rep rlen)) :
    FillsTheLast i s n v := by
  unfold FillsTheLast
  intro all ll d
  have hle := hcounts.lensWanted_le
  have hbuild := hexec.trans (appendLengths_last (s := s.noted sym rep rlen) (all := all) hle hlast rfl)
  obtain ⟨hll, hd, hok⟩ | ⟨hneg, hfault⟩ := buildTables_cases (appended n v (s.noted sym rep rlen)) (all.take s.blk.nlen.toNat)
    (all.drop s.blk.nlen.toNat)
  · refine ⟨fun _ _ => ⟨_, hbuild.trans hok, rfl, rfl, rfl, ?_, rfl, rfl, rfl, rfl, rfl⟩, fun hneg => ?_⟩
    · exact (appended_index (s := s.noted sym rep rlen) (v := v) (hlast.le.trans hle)).trans hlast
    · exact absurd hneg (not_or.mpr ⟨Int.not_lt.mpr hll, Int.not_lt.mpr hd⟩)
  · refine ⟨fun hll hd => ?_, fun _ => hbuild.trans hfault⟩
    exact absurd hneg (not_or.mpr ⟨Int.not_lt.mpr hll, Int.not_lt.mpr hd⟩)

/-- A repeat that reaches the last length wanted. -/
theorem fillsTheLast_of_repeat {i : Instr} {s : State} {rep : Nat} {v : BitVec 4} {sym : BitVec 9}
    (hcounts : CountsInv s.blk) (hlast : s.blk.index.toNat + rep = s.lensWanted)
    (hexec : exec i s = repeatLength rep v { s with blk.sym := sym }) : FillsTheLast i s rep v :=
  fillsTheLast_of_append hcounts hlast (hexec.trans (repeatLength_within hlast.le))

/-- Settles O36: each of the four elements appends its lengths, and none is wanted after them. -/
theorem lastLengthBuildsTheTables : Obligations.LastLengthBuildsTheTables := by
  intro s hcounts
  have hle := hcounts.lensWanted_le
  refine ⟨fun v hlast => fillsTheLast_of_append (rep := s.blk.rep) (rlen := s.blk.rlen) hcounts hlast rfl,
    fun r hlast hindex => ?_, fun r hlast => fillsTheLast_of_repeat hcounts hlast rfl,
    fun r hlast => fillsTheLast_of_repeat hcounts hlast rfl⟩
  obtain ⟨hz, -⟩ | ⟨-, v, hv, hexec⟩ := execCl16_cases r s (by omega)
  · exact absurd hz hindex
  · exact ⟨v, hv, fillsTheLast_of_repeat hcounts hlast hexec⟩

/-! ### Codes without a meaning -/

/-- Settles O44: ten bits more decide the two patterns' fault; the patterns are recognised before any symbol. -/
theorem reservedCodesFault : Obligations.ReservedCodesFault := by
  refine ⟨fun _ => ⟨rfl, rfl⟩, fun s hc => ?_, fun t inp c hc hfits => ⟨fun hbits => ?_, fun hbits => ?_⟩⟩
  · have hten : unassignedDistance s =
        .next (raiseFault (if 8 * s.inLen < s.cur.pos + 10 then .truncated else .undecodable) s) := by
      unfold unassignedDistance
      obtain ⟨hshort, herr⟩ | ⟨hlong, c', hok, -⟩ := bits_cases hc 10
      · rw [herr, if_pos (by exact hshort)]
      · rw [hok, if_neg (by exact Nat.not_lt.mpr hlong)]
    exact ⟨hten, hten⟩
  · exact (Ahead.decode_unassigned t).1 ⟨hc, rfl, hfits, hbits⟩
  · exact (Ahead.decode_unassigned t).2 ⟨hc, rfl, hfits, hbits⟩

end Sys2Proof.Claims
end

section
/-! The rows of the length and distance symbols (rules R200 to R260). -/

namespace Sys2Proof.Machine

/-- A length symbol's fixed codeword: 7 bits below 280, 8 bits from there on (rule R70). -/
def fixedLengthCode (s : Nat) : List Bool := if s < 280 then msbBits 7 (s - 256) else msbBits 8 (192 + (s - 280))

theorem codewordBits_fixll_length {k : Nat} (h : k < 29) : codewordBits fixll (257 + k) = some (fixedLengthCode (257 + k)) := by
  rw [codewordBits, Claims.codewordOf_fixll, if_neg (by omega), if_neg (by omega), fixedLengthCode]
  split
  · rfl
  · rw [if_pos (by omega)]
    rfl

theorem codewordBits_fixd {d : Nat} (h : d < 30) : codewordBits fixd d = some (msbBits 5 d) := by
  rw [codewordBits, Claims.codewordOf_fixd, if_pos h]
  rfl

end Sys2Proof.Machine

namespace Sys2Proof.Claims

open Sys2Proof.Machine

/-- A length symbol's row, from its place in the tables of bases and extra bits. -/
theorem lengthRow {i : Instr} {k sym e nx base : Nat} {code : List Bool} (hparts : lengthParts i = some (k, e))
    (hsym : 257 + k = sym) (hcode : fixedLengthCode sym = code) (hwidth : (lext.getD k 0).val = nx)
    (hbase : lbase.getD k 0 = base) : LengthRow i sym code nx e base := by
  subst hsym hcode hwidth hbase
  obtain ⟨hk, hi, -, hlt, henc⟩ := lengthParts_spec hparts
  have hlext : lengthWidth (257 + k) = lext.getD k 0 := by rw [lengthWidth, Nat.add_sub_cancel_left]
  rw [hlext] at hlt
  simp only [hlext] at henc
  refine ⟨?_, henc, fun s => ?_⟩
  · rw [henc, show fixedCodes.ll = fixll from rfl, codewordBits_fixll_length hk]
    rfl
  · rw [exec_lengthInstr hk hi, Nat.mod_eq_of_lt hlt, lengthSymbol, lengthOf, Nat.add_sub_cancel_left]

/-- A distance symbol's row, from its place in the tables of bases and extra bits. -/
theorem distanceRow {i : Instr} {d e nx base : Nat} {code : List Bool} (hparts : distanceParts i = some (d, e))
    (hcode : msbBits 5 d = code) (hwidth : (dext.getD d 0).val = nx) (hbase : dbase.getD d 0 = base) :
    DistanceRow i d code nx e base := by
  subst hcode hwidth hbase
  obtain ⟨hd, hi, -, hlt, henc⟩ := distanceParts_spec hparts
  have hexec (s : State) : exec i s = distanceSymbol s d e :=
    (exec_distanceInstr hd hi s).trans (congrArg _ (Nat.mod_eq_of_lt hlt))
  refine ⟨?_, henc, fun s hnear => (hexec s).trans ?_, fun s hcheck hfar => (hexec s).trans ?_⟩
  · rw [henc, show fixedCodes.d = fixd from rfl, codewordBits_fixd hd]
    rfl
  · obtain ⟨hcheck, hfar, -⟩ | ⟨-, hok⟩ := copy_cases s.params s.blk.length.toNat (distanceOf d e) { s with
      blk.dsym := BitVec.ofNat 5 d, blk.dist := BitVec.ofNat 16 (distanceOf d e), sub := .symbol }
    · exact absurd hfar (Nat.not_lt.mpr (hnear hcheck))
    · exact hok
  · exact if_pos ⟨hcheck, hfar⟩

/-- Settles O38: row by row. -/
theorem lengthSymbols257To268 : Obligations.LengthSymbols257To268 :=
  ⟨lengthRow rfl rfl rfl rfl rfl, lengthRow rfl rfl rfl rfl rfl, lengthRow rfl rfl rfl rfl rfl, lengthRow rfl rfl rfl rfl rfl,
    lengthRow rfl rfl rfl rfl rfl, lengthRow rfl rfl rfl rfl rfl, lengthRow rfl rfl rfl rfl rfl, lengthRow rfl rfl rfl rfl rfl,
    fun _ => lengthRow rfl rfl rfl rfl rfl, fun _ => lengthRow rfl rfl rfl rfl rfl, fun _ => lengthRow rfl rfl rfl rfl rfl,
    fun _ => lengthRow rfl rfl rfl rfl rfl⟩

/-- Settles O39: row by row. -/
theorem lengthSymbols269To280 : Obligations.LengthSymbols269To280 :=
  ⟨fun _ => lengthRow rfl rfl rfl rfl rfl, fun _ => lengthRow rfl rfl rfl rfl rfl, fun _ => lengthRow rfl rfl rfl rfl rfl,
    fun _ => lengthRow rfl rfl rfl rfl rfl, fun _ => lengthRow rfl rfl rfl rfl rfl, fun _ => lengthRow rfl rfl rfl rfl rfl,
    fun _ => lengthRow rfl rfl rfl rfl rfl, fun _ => lengthRow rfl rfl rfl rfl rfl, fun _ => lengthRow rfl rfl rfl rfl rfl,
    fun _ => lengthRow rfl rfl rfl rfl rfl, fun _ => lengthRow rfl rfl rfl rfl rfl, fun _ => lengthRow rfl rfl rfl rfl rfl⟩

/-- Settles O40: row by row. -/
theorem lengthSymbols281To285 : Obligations.LengthSymbols281To285 :=
  ⟨fun _ => lengthRow rfl rfl rfl rfl rfl, fun _ => lengthRow rfl rfl rfl rfl rfl, fun _ => lengthRow rfl rfl rfl rfl rfl,
    fun _ => lengthRow rfl rfl rfl rfl rfl, lengthRow rfl rfl rfl rfl rfl⟩

/-- Settles O41: row by row. -/
theorem distanceSymbols0To11 : Obligations.DistanceSymbols0To11 :=
  ⟨distanceRow rfl rfl rfl rfl, distanceRow rfl rfl rfl rfl, distanceRow rfl rfl rfl rfl, distanceRow rfl rfl rfl rfl,
    fun _ => distanceRow rfl rfl rfl rfl, fun _ => distanceRow rfl rfl rfl rfl, fun _ => distanceRow rfl rfl rfl rfl,
    fun _ => distanceRow rfl rfl rfl rfl, fun _ => distanceRow rfl rfl rfl rfl, fun _ => distanceRow rfl rfl rfl rfl,
    fun _ => distanceRow rfl rfl rfl rfl, fun _ => distanceRow rfl rfl rfl rfl⟩

/-- Settles O42: row by row. -/
theorem distanceSymbols12To23 : Obligations.DistanceSymbols12To23 :=
  ⟨fun _ => distanceRow rfl rfl rfl rfl, fun _ => distanceRow rfl rfl rfl rfl, fun _ => distanceRow rfl rfl rfl rfl,
    fun _ => distanceRow rfl rfl rfl rfl, fun _ => distanceRow rfl rfl rfl rfl, fun _ => distanceRow rfl rfl rfl rfl,
    fun _ => distanceRow rfl rfl rfl rfl, fun _ => distanceRow rfl rfl rfl rfl, fun _ => distanceRow rfl rfl rfl rfl,
    fun _ => distanceRow rfl rfl rfl rfl, fun _ => distanceRow rfl rfl rfl rfl, fun _ => distanceRow rfl rfl rfl rfl⟩

/-- Settles O43: row by row. -/
theorem distanceSymbols24To29 : Obligations.DistanceSymbols24To29 :=
  ⟨fun _ => distanceRow rfl rfl rfl rfl, fun _ => distanceRow rfl rfl rfl rfl, fun _ => distanceRow rfl rfl rfl rfl,
    fun _ => distanceRow rfl rfl rfl rfl, fun _ => distanceRow rfl rfl rfl rfl, fun _ => distanceRow rfl rfl rfl rfl⟩

end Sys2Proof.Claims
end

section
/-! Frames: what the elements leave unchanged (rules R41, R121, R123, R142). -/

namespace Sys2Proof.Machine

variable {s t : State} {n rep : Nat} {v : BitVec 4}

theorem isLengthSym_parts {i : Instr} (h : Claims.isLengthSym i = true) : ∃ p, lengthParts i = some p := by
  cases i <;> simp only [Claims.isLengthSym, Bool.false_eq_true] at h <;> exact ⟨_, rfl⟩

theorem isDistanceSym_parts {i : Instr} (h : Claims.isDistanceSym i = true) : ∃ p, distanceParts i = some p := by
  cases i <;> simp only [Claims.isDistanceSym, Bool.false_eq_true] at h <;> exact ⟨_, rfl⟩

/-! ### Elements that store nothing -/

theorem appendLengths_frame (h : appendLengths n v s = .next t) (hphase : t.phase ≠ .fault) :
    t = { s with
      blk.lengths := t.blk.lengths, blk.index := t.blk.index, blk.lltab := t.blk.lltab, blk.dtab := t.blk.dtab,
      blk.builder := t.blk.builder, sub := t.sub } := by
  by_cases hbound : 316 < s.blk.index.toNat + n
  · rw [appendLengths, if_pos hbound] at h
    cases h
  · obtain ⟨-, hok⟩ | ⟨-, -, -, hok⟩ | ⟨-, -, hfault⟩ := appendLengths_cases n v (s := s) (Nat.not_lt.mp hbound)
    · obtain rfl := Host.Outcome.next.inj (h.symm.trans hok)
      rfl
    · obtain rfl := Host.Outcome.next.inj (h.symm.trans hok)
      rfl
    · obtain rfl := Host.Outcome.next.inj (h.symm.trans hfault)
      exact absurd rfl hphase

theorem repeatLength_frame (h : repeatLength rep v s = .next t) (hphase : t.phase ≠ .fault) :
    t = { s with
      blk.rep := t.blk.rep, blk.rlen := t.blk.rlen, blk.lengths := t.blk.lengths, blk.index := t.blk.index,
      blk.lltab := t.blk.lltab, blk.dtab := t.blk.dtab, blk.builder := t.blk.builder, sub := t.sub } := by
  obtain ⟨-, hfault⟩ | ⟨-, hok⟩ := repeatLength_cases rep v s
  · obtain rfl := Host.Outcome.next.inj (h.symm.trans hfault)
    exact absurd rfl hphase
  · have hframe := appendLengths_frame (hok.symm.trans h) hphase
    rw [hframe]

/-- A symbol 16 that goes on repeats a length. -/
theorem execCl16_next {r : BitVec 2} (h : execCl16 r s = .next t) (hphase : t.phase ≠ .fault) :
    ∃ v, repeatLength (repShort r.toNat) v { s with blk.sym := 16 } = .next t := by
  simp only [execCl16] at h
  split_ifs at h
  · obtain rfl := Host.Outcome.next.inj h
    exact absurd rfl hphase
  · split at h
    · cases h
    · exact ⟨_, h⟩

/-! ### Elements that store -/

theorem copyLoop_eq (dist n : Nat) (s : State) : copyLoop dist n s = { s with
    out := (copyLoop dist n s).out, window := (copyLoop dist n s).window, next := (copyLoop dist n s).next,
    outcnt := (copyLoop dist n s).outcnt } := by
  induction n generalizing s with
  | zero => rfl
  | succ n ih => exact ih (output s (s.winRead (s.copyAddr dist)))

theorem storedMoved_eq (n : Nat) (s : State) : storedMoved n s = { s with
    cur.incnt := (storedMoved n s).cur.incnt, out := (storedMoved n s).out, window := (storedMoved n s).window,
    next := (storedMoved n s).next, outcnt := (storedMoved n s).outcnt, blk := (storedMoved n s).blk } := by
  induction n generalizing s with
  | zero => rfl
  | succ n ih => exact ih _

/-- The cells the stored data do not write, where the data are all there or none. -/
theorem storedMoved_lookup (hfits : s.cur.incnt + n ≤ s.input.length ∨ n = 0) {a : Nat} (h : ¬ Claims.Stored s n a) :
    memLookup (storedMoved n s).window a = memLookup s.window a := by
  obtain hfits | rfl := hfits
  · obtain ⟨-, -, -, -, -, hcells, -⟩ := storedMoved_frame n hfits
    exact hcells a fun j hj heq => h ⟨j, hj, heq⟩
  · rfl

/-- A stored body that goes on has moved its data and ended the block. -/
theorem exec_storedBody_next {len nlen : BitVec 16} (h : exec (.storedBody len nlen) s = .next t)
    (hphase : t.phase ≠ .fault) :
    (s.cur.incnt + len.toNat ≤ s.input.length ∨ len.toNat = 0) ∧
      t = endBlock (storedMoved len.toNat { s with blk.slen := len, blk.snlen := nlen, blk.scnt := len }) := by
  obtain ⟨-, -, hfault⟩ | ⟨-, hbody⟩ := storedBody_cases s.params len nlen s
  · obtain rfl := Host.Outcome.next.inj (h.symm.trans hfault)
    exact absurd rfl hphase
  · obtain rfl | ⟨hfits, rfl⟩ := storedLoop_next (hbody.symm.trans h)
    · exact absurd rfl hphase
    · exact ⟨hfits, rfl⟩

/-- The end of a block that is not the last keeps the header's latches. -/
theorem endBlock_latches (h : (endBlock s).phase = .header) :
    (endBlock s).bfinal = s.bfinal ∧ (endBlock s).btype = s.btype := by
  have hmore : s.bfinal ≠ 1 := fun hfinal => by
    rw [endBlock_phase, if_pos hfinal] at h
    cases h
  exact ⟨if_neg hmore, if_neg hmore⟩

end Sys2Proof.Machine

namespace Sys2Proof.Claims

open Sys2Proof.Machine

/-- Settles O45: each group's next state, where it is no fault, is a record update of the old one. -/
theorem frameOfTheElementsThatStoreNothing : Obligations.FrameOfTheElementsThatStoreNothing := by
  intro i s t h hphase
  refine ⟨?_, ?_, ?_, ?_, ?_, ?_, fun hi => ?_⟩
  · rintro ⟨f, rfl | rfl⟩ <;> obtain rfl := Host.Outcome.next.inj h <;> rfl
  · rintro ⟨f, rfl⟩
    obtain rfl := Host.Outcome.next.inj h
    rfl
  · rintro ⟨l, d, n, rfl⟩
    obtain ⟨-, hfault⟩ | ⟨-, hok⟩ := execDynHeader_cases l d n s
    · obtain rfl := Host.Outcome.next.inj (h.symm.trans hfault)
      exact absurd rfl hphase
    · obtain rfl := Host.Outcome.next.inj (h.symm.trans hok)
      rfl
  · rintro ⟨ls, rfl⟩
    obtain ⟨hbuilt, hover⟩ := codeLengthTableIsBuilt ls s
    obtain hok | hneg := le_or_gt 0
      (construct s.blk.cltab s.blk.builder ((placeCodeLens ls).toList.map (·.toNat))).result
    · obtain rfl := Host.Outcome.next.inj (h.symm.trans (hbuilt hok))
      rfl
    · obtain rfl := Host.Outcome.next.inj (h.symm.trans (hover hneg))
      exact absurd rfl hphase
  · rintro ⟨v, rfl⟩
    have hframe := appendLengths_frame (s := { s with blk.sym := BitVec.ofNat 9 v.toNat }) h hphase
    rw [hframe]
  · rintro (⟨r, rfl⟩ | ⟨r, rfl⟩ | ⟨r, rfl⟩)
    · obtain ⟨v, hrepeat⟩ := execCl16_next h hphase
      have hframe := repeatLength_frame hrepeat hphase
      rw [hframe]
    · have hframe := repeatLength_frame (s := { s with blk.sym := 17 }) h hphase
      rw [hframe]
    · have hframe := repeatLength_frame (s := { s with blk.sym := 18 }) h hphase
      rw [hframe]
  · obtain ⟨⟨k, e⟩, hparts⟩ := isLengthSym_parts hi
    obtain ⟨hk, hinstr, -⟩ := lengthParts_spec hparts
    rw [exec_lengthInstr hk hinstr] at h
    obtain rfl := Host.Outcome.next.inj h
    rfl

/-- A literal's one byte. -/
theorem output_lookup (s : State) (b : Byte) {a : Nat} (h : ¬ Stored s 1 a) :
    memLookup (output s b).window a = memLookup s.window a :=
  memLookup_memWrite_other s.window b fun heq => h ⟨0, Nat.one_pos, heq.trans (by simp)⟩

/-- Settles O46: the bytes are output from `next` on, and nothing else is stored. -/
theorem frameOfTheElementsThatStore : Obligations.FrameOfTheElementsThatStore := by
  intro i s t h hphase
  refine ⟨fun b hi => ?_, fun hi => ?_, fun len nlen hi => ?_⟩
  · obtain rfl : t = output { s with blk.sym := BitVec.ofNat 9 b.toNat } b := by
      obtain rfl | rfl := hi <;> exact (Host.Outcome.next.inj h).symm
    exact ⟨rfl, fun a => output_lookup { s with blk.sym := BitVec.ofNat 9 b.toNat } b⟩
  · obtain ⟨⟨d, e⟩, hparts⟩ := isDistanceSym_parts hi
    obtain ⟨hd, hinstr, -⟩ := distanceParts_spec hparts
    rw [exec_distanceInstr hd hinstr, distanceSymbol] at h
    obtain ⟨-, -, hfault⟩ | ⟨-, hok⟩ := copy_cases s.params s.blk.length.toNat _ _
    · obtain rfl := Host.Outcome.next.inj (h.symm.trans hfault)
      exact absurd rfl hphase
    · obtain rfl := Host.Outcome.next.inj (h.symm.trans hok)
      refine ⟨by rw [copyLoop_eq], fun a hstored => copyLoop_lookup _ _ _ fun j hj heq => hstored ⟨j, hj, heq⟩⟩
  · subst hi
    obtain ⟨hfits, rfl⟩ := exec_storedBody_next h hphase
    have hframe := storedMoved_eq len.toNat { s with blk.slen := len, blk.snlen := nlen, blk.scnt := len }
    refine ⟨by rw [hframe]; rfl, fun hheader => ?_, fun a => ?_⟩
    · obtain ⟨hbfinal, hbtype⟩ := endBlock_latches hheader
      rw [hbfinal, hbtype, hframe]
      exact ⟨rfl, rfl⟩
    · exact storedMoved_lookup (s := { s with blk.slen := len, blk.snlen := nlen, blk.scnt := len }) hfits

end Sys2Proof.Claims
end

section
/-! Why an element is rejected (rules R91, R113, R161, R163, R193, R194). -/

namespace Sys2Proof.Machine

variable {inp : List Byte} {c : Cursor} {r : Reject}

/-- A field, then a reader that is rejected exactly past position `q`. -/
theorem bits_bind_error_iff {α : Type} (hc : CursorInv inp c) (n : Fin 17) {g : Nat × Cursor → Except Reject α} {q : Nat}
    (hq : c.pos + n.val ≤ q) (hg : ∀ v c', CursorInv inp c' → c'.pos = c.pos + n.val →
      (g (v, c') = .error r ↔ 8 * inp.length < q ∧ r = .truncated)) :
    (bits inp n c >>= g) = .error r ↔ 8 * inp.length < q ∧ r = .truncated := by
  obtain ⟨hshort, herr⟩ | ⟨-, c', hok, hc', hpos⟩ := bits_cases hc n
  · rw [herr]
    exact ⟨fun h => ⟨hshort.trans_le hq, (Except.error.inj h).symm⟩, fun h => h.2 ▸ rfl⟩
  · rw [hok, ok_bind]
    exact hg _ c' hc' hpos

/-- Nothing is rejected once the cursor is at the last position. -/
theorem return_error_iff {α : Type} (a : α) (hc : CursorInv inp c) {q : Nat} (hq : c.pos = q) :
    (return a : Except Reject α) = .error r ↔ 8 * inp.length < q ∧ r = .truncated :=
  ⟨fun h => (return_ne_error h).elim, fun h => by have := hc.pos_le; omega⟩

theorem decodeCounts_error_iff (hc : CursorInv inp c) :
    decodeCounts inp c = .error r ↔ 8 * inp.length < c.pos + 14 ∧ r = .truncated := by
  refine bits_bind_error_iff hc 5 (Nat.add_le_add_left (by decide) _) fun x c₁ hc₁ hpos₁ => ?_
  have hpos₁ : c₁.pos = c.pos + 5 := hpos₁
  refine bits_bind_error_iff hc₁ 5 (by rw [hpos₁]; exact Nat.add_le_add_left (by decide : 5 + 5 ≤ 14) c.pos)
    fun y c₂ hc₂ hpos₂ => ?_
  have hpos₂ : c₂.pos = c₁.pos + 5 := hpos₂
  refine bits_bind_error_iff hc₂ 4 (Nat.le_of_eq ?_) fun z c₃ hc₃ hpos₃ => return_error_iff _ hc₃ ?_
  · rw [hpos₂, hpos₁]; rfl
  · rw [hpos₃, hpos₂, hpos₁]; rfl

theorem readCodeLens_error_iff (n : Nat) (hc : CursorInv inp c) :
    readCodeLens inp n c = .error r ↔ 8 * inp.length < c.pos + 3 * n ∧ r = .truncated := by
  induction n generalizing c with
  | zero => exact return_error_iff _ hc rfl
  | succ n ih =>
    refine bits_bind_error_iff hc 3 (Nat.add_le_add_left (Nat.le_mul_of_pos_right 3 n.succ_pos) _) fun x c₁ hc₁ hpos₁ => ?_
    have hpos₁ : c₁.pos = c.pos + 3 := hpos₁
    simp only [bind_eq_error, return_ne_error, and_false, exists_false, or_false]
    rw [ih hc₁, hpos₁, Nat.add_assoc, show 3 + 3 * n = 3 * (n + 1) by omega]

theorem decodeCodeLens_error_iff (n : Nat) (hc : CursorInv inp c) :
    decodeCodeLens n inp c = .error r ↔ 8 * inp.length < c.pos + 3 * n ∧ r = .truncated := by
  simp only [decodeCodeLens, bind_eq_error, return_ne_error, and_false, exists_false, or_false]
  exact readCodeLens_error_iff n hc

end Sys2Proof.Machine

namespace Sys2Proof.Claims

open Sys2Proof.Machine

variable {inp : List Byte} {c : Cursor} {r : Reject}

theorem codeWidth_eq_codeExtra (first : Bool) (s : Nat) : (codeWidth first s).val = codeExtra first s := by
  unfold codeWidth codeExtra
  split_ifs <;> rfl

theorem lengthWidth_eq_lengthExtra : ∀ s < 288, (lengthWidth s).val = lengthExtra s := by decide +kernel

theorem distanceWidth_eq_distanceExtra : ∀ d < 30, (distanceWidth d).val = distanceExtra d := by decide

/-- In the fixed distance code the codeword of `d` is `d` in five bits. -/
theorem codewordAt_fixd {p d l : Nat} :
    CodewordAt fixd inp p d l ↔ d < 30 ∧ l = 5 ∧ p + 5 ≤ 8 * inp.length ∧ streamBits inp p 5 = msbBits 5 d := by
  simp only [CodewordAt, codewordOf_fixd]
  split
  case isTrue hd =>
    constructor
    · rintro ⟨v, hv, hfits, hbits⟩
      obtain ⟨rfl, rfl⟩ := Prod.mk.inj (Option.some.inj hv)
      exact ⟨hd, rfl, hfits, hbits⟩
    · rintro ⟨-, rfl, hfits, hbits⟩
      exact ⟨d, rfl, hfits, hbits⟩
  case isFalse hd => simp [hd]

/-- Where no unassigned pattern stands, the fixed distance code wants its five bits and the symbol's extra ones. -/
theorem rejectedAt_fixd {p : Nat} (hassigned : p + 5 ≤ 8 * inp.length → codeAt inp p 5 < 30) :
    RejectedAt fixd distanceExtra inp p r ↔ r = .truncated ∧ (8 * inp.length < p + 5 ∨
      ∃ d, d < 30 ∧ streamBits inp p 5 = msbBits 5 d ∧ 8 * inp.length < p + 5 + distanceExtra d) := by
  simp only [RejectedAt, codewordAt_fixd]
  obtain hshort | hfits := Nat.lt_or_ge (8 * inp.length) (p + 5)
  · rw [if_pos (by omega)]
    constructor
    · rintro (⟨-, hr⟩ | ⟨d, l, ⟨-, -, hfits, -⟩, -⟩)
      · exact ⟨hr, .inl hshort⟩
      · omega
    · rintro ⟨hr, -⟩
      exact .inl ⟨fun d l h => absurd h.2.2.1 (Nat.not_le.mpr hshort), hr⟩
  · have hcode := hassigned hfits
    constructor
    · rintro (⟨hnone, -⟩ | ⟨d, l, ⟨hd, rfl, -, hbits⟩, hextra, hr⟩)
      · exact absurd ⟨hcode, rfl, hfits, (streamBits_eq_msbBits (by omega)).mpr rfl⟩ (hnone _ 5)
      · exact ⟨hr, .inr ⟨d, hd, hbits, hextra⟩⟩
    · rintro ⟨hr, hshort | ⟨d, hd, hbits, hextra⟩⟩
      · omega
      · exact .inr ⟨d, 5, ⟨hd, rfl, hfits, hbits⟩, hextra, hr⟩

theorem decodeDistance_fixed_error_iff (hc : CursorInv inp c) :
    decodeDistance fixedDtab true inp c = .error r ↔ r = .truncated ∧ (8 * inp.length < c.pos + 5 ∨
      ∃ d, d < 30 ∧ streamBits inp c.pos 5 = msbBits 5 d ∧ 8 * inp.length < c.pos + 5 + distanceExtra d) := by
  obtain ⟨c', hc', hpos, hpattern⟩ | ⟨hassigned, hnone⟩ := unassignedPattern_cases hc
  · have hfits := hc'.pos_le
    have hcode : 30 ≤ codeAt inp c.pos 5 := by omega
    have hok : ∃ f, decodeDistance fixedDtab true inp c = .ok f := by
      rw [decodeDistance_true]
      obtain ⟨-, hp⟩ | ⟨-, hp⟩ := hpattern <;> exact ⟨_, by rw [hp]; rfl⟩
    obtain ⟨f, hf⟩ := hok
    rw [hf]
    constructor
    · intro h
      cases h
    · rintro ⟨-, hshort | ⟨d, hd, hbits, -⟩⟩
      · omega
      · have := (streamBits_eq_msbBits (by omega)).mp hbits
        omega
  · rw [decodeDistance_eq_readSymbol holds_fixedDtab lengths_fixd.1 hc fun _ => hnone,
      readSymbol_error_iff holds_fixedDtab lengths_fixd.2.2.2 hc, ← rejectedAt_fixd hassigned]
    exact RejectedAt.congr lengths_fixd.2.2.2 fun d hd => distanceWidth_eq_distanceExtra d (hd.trans_le lengths_fixd.1)

/-- Settles O60: fields by the positions they end at, symbols by the one reader of a codeword and its extra bits. -/
theorem elementsAreRejectedOnlyForTheirBits : Obligations.ElementsAreRejectedOnlyForTheirBits := by
  intro inp c r hc
  refine ⟨decodeCounts_error_iff hc, fun n => decodeCodeLens_error_iff n hc, fun t b lens first hl hr => ?_,
    fun t b lens hl hr => ?_, fun t b lens hl hr => ?_, decodeDistance_fixed_error_iff hc⟩
  · rw [Machine.decodeElement, decodeCodeSym_eq_readSymbol first (hl.holds hr) hl.1 hc,
      readSymbol_error_iff (hl.holds hr) hl.2.2.2 hc]
    exact RejectedAt.congr hl.2.2.2 fun s _ => codeWidth_eq_codeExtra first s
  · rw [Machine.decodeElement, decodeSymbol_eq_readSymbol (hl.holds hr) hl.1 hc,
      readSymbol_error_iff (hl.holds hr) hl.2.2.2 hc]
    exact RejectedAt.congr hl.2.2.2 fun s hs => lengthWidth_eq_lengthExtra s (hs.trans_le hl.1)
  · rw [Machine.decodeElement, decodeDistance_eq_readSymbol (fixed := false) (hl.holds hr) hl.1 hc nofun,
      readSymbol_error_iff (hl.holds hr) hl.2.2.2 hc]
    exact RejectedAt.congr hl.2.2.2 fun d hd => distanceWidth_eq_distanceExtra d (hd.trans_le hl.1)

end Sys2Proof.Claims
end
